-- ==== Sys2Proof/Word.lean ====
section
/-! DEFINITION. The widths of the hardware as types (spec/00_scope.md R5, R6; spec/30_encoding.md R50 to R52).
All values are unsigned. -/

namespace Sys2Proof

/-- A byte of `IN` or of a plane (spec/20_memory.md R30). -/
abbrev Byte := BitVec 8

/-- Half a byte (spec/00_scope.md R9). -/
abbrev Nibble := BitVec 4

/-- One 12-bit channel value for one pixel (spec/00_scope.md R9, spec/30_encoding.md R52). -/
abbrev Sample := BitVec 12

/-- The 16-bit container of one sample (spec/30_encoding.md R52). -/
abbrev Slot := BitVec 16

/-- Format `BLOCK`: the 36 bytes of a packed block, flat bit `8 * k + i` being bit `i` of byte `k`
(spec/30_encoding.md R51). -/
abbrev Block := BitVec 288

/-- A sample id: `8 * plane + pixel`, an index into the extraction table (spec/30_encoding.md R59). -/
abbrev SampleId := BitVec 5

end Sys2Proof
end

