-- ==== Sys2Proof/Config.lean ====
section
/-! DEFINITION. What an implementation fixes: the parameters of spec/00_scope.md R5 with the values this hardware
takes, and the one free value, the order of the work inside a `DECODE` (`BLOCK_ORDER = any`). -/

namespace Sys2Proof

/-- Bytes per packed block, `BLK_BYTES` (spec/00_scope.md R5). -/
abbrev Config.blockBytes : Nat := 36

/-- Pixels per packed block, `PIX` (spec/00_scope.md R5). -/
abbrev Config.blockPixels : Nat := 8

/-- The constant of register `FORMAT` (spec/10_state.md R23): 12 significant bits, 16 container bits, 3 planes,
little-endian, planar. -/
abbrev Config.format : BitVec 16 := 0x3E0C

/-- FREE VALUE (log 3): which of the pending blocks of a `DECODE` the core takes at its `t`-th move that no event
prescribes, counted modulo their number, so that every choice names one (spec/42_frame_decoder.md R131 step 3). The
spec leaves the order open (`BLOCK_ORDER = any`, spec/00_scope.md R5, spec/42_frame_decoder.md R128), so nothing is
known of it. -/
opaque Config.blockChoice : Nat → Nat

end Sys2Proof
end

