-- ==== Sys2Proof/Syntax.lean ====
section
/-! DEFINITION. The operations of the core (spec/30_encoding.md R59, spec/opcode_table.json), the three formats their
words stand in (R50), and the descriptors of the extraction table (R53). -/

namespace Sys2Proof

/-- A channel, and the plane its samples go to (spec/00_scope.md R9): Green is plane 0, Blue plane 1, Red plane 2. -/
inductive Chan where
  | g
  | b
  | r
deriving DecidableEq, Repr

/-- What is taken from a block byte: the whole byte, its low nibble or its high nibble
(spec/30_encoding.md R53, spec/41_block_unpacker.md R80). -/
inductive Sel where
  | full
  | low
  | high
deriving DecidableEq, Repr

/-- One extraction descriptor: which byte `(word, byte)`, what is taken of it, and how far it is shifted left
(spec/30_encoding.md R53). -/
structure Piece where
  word : Fin 9
  byte : Fin 4
  sel : Sel
  shift : Nat
deriving DecidableEq, Repr

/-- One entry of the extraction table, format `SAMPLE`: the destination of the sample and its low and high part
(spec/30_encoding.md R53). -/
structure Entry where
  chan : Chan
  pixel : Fin 8
  lo : Piece
  hi : Piece
deriving DecidableEq, Repr

/-- The operations of spec/opcode_table.json, one constructor per row. `unpack` carries the 288 bits of its word, the
packed block; the other rows have no operand in their words. -/
inductive Instr where
  /-- `VALIDATE` (spec/40_geometry_validator.md R74) -/
  | validate
  /-- `DECODE` (spec/42_frame_decoder.md R120) -/
  | decode
  /-- `UNPACK` (spec/41_block_unpacker.md R82) -/
  | unpack (block : Block)
  /-- `EXT.G0` (R84) -/
  | extG0
  /-- `EXT.G1` (R87) -/
  | extG1
  /-- `EXT.G2` (R90) -/
  | extG2
  /-- `EXT.G3` (R93) -/
  | extG3
  /-- `EXT.G4` (R96) -/
  | extG4
  /-- `EXT.G5` (R99) -/
  | extG5
  /-- `EXT.G6` (R102) -/
  | extG6
  /-- `EXT.G7` (R105) -/
  | extG7
  /-- `EXT.B0` (R83) -/
  | extB0
  /-- `EXT.B1` (R86) -/
  | extB1
  /-- `EXT.B2` (R89) -/
  | extB2
  /-- `EXT.B3` (R92) -/
  | extB3
  /-- `EXT.B4` (R95) -/
  | extB4
  /-- `EXT.B5` (R98) -/
  | extB5
  /-- `EXT.B6` (R101) -/
  | extB6
  /-- `EXT.B7` (R104) -/
  | extB7
  /-- `EXT.R0` (R85) -/
  | extR0
  /-- `EXT.R1` (R88) -/
  | extR1
  /-- `EXT.R2` (R91) -/
  | extR2
  /-- `EXT.R3` (R94) -/
  | extR3
  /-- `EXT.R4` (R97) -/
  | extR4
  /-- `EXT.R5` (R100) -/
  | extR5
  /-- `EXT.R6` (R103) -/
  | extR6
  /-- `EXT.R7` (R106) -/
  | extR7
deriving DecidableEq, Repr

/-- A word of one of the three formats an operation of the table stands in (spec/30_encoding.md R50, R59): a command
code written to register 0, the bits of a packed block, or a sample id. -/
inductive TableWord where
  | cmd (code : BitVec 2)
  | block (bits : Block)
  | sample (id : SampleId)
deriving DecidableEq, Repr

end Sys2Proof
end

