-- ==== Sys2Proof/Machine/State.lean ====
section
/-! DEFINITION. The state of the machine as plain data: the interface registers (spec/10_state.md R10), the hidden
state of a running operation (R25, spec/42_frame_decoder.md R131), the four memory spaces (spec/20_memory.md R30), and
the model's own fields for what comes from outside (log 1, log 3, log 12). -/

namespace Sys2Proof.Machine

/-- A byte space: `(offset, byte)` pairs, offsets strictly rising. An offset that is not listed has no value: nothing
has been put there (spec/10_state.md R28: contents "unspecified at reset"; log 5, log 6). -/
abbrev Memory := List Host.Cell

/-- The two operations a host can start (spec/10_state.md R19). -/
inductive OpCode where
  | validate
  | decode
deriving DecidableEq, Repr

/-- The operands of an operation, as latched at its start (spec/10_state.md R19 step 1, R25). -/
structure Operands where
  width : BitVec 16
  height : BitVec 16
  len : BitVec 64
  strideG : BitVec 32
  strideB : BitVec 32
  strideR : BitVec 32
  allocFail : BitVec 1
deriving DecidableEq, Repr

/-- The block cursor `pc = (row, blk)` (spec/10_state.md R20); naturals, since it never wraps (R22). -/
structure Cursor where
  row : Nat
  blk : Nat
deriving DecidableEq, Repr

/-- A block still to be performed, with the ids of its samples still to be written (spec/10_state.md R25,
spec/42_frame_decoder.md R131; the samples one by one: R128, spec/41_block_unpacker.md R109, log 4). -/
structure PendingBlock where
  pos : Cursor
  lanes : List SampleId
deriving DecidableEq, Repr

/-- The three errors (spec/60_exceptions.md R140). They are results of an operation, not stops of the machine. -/
inductive OpError where
  | invalidGeometry
  | insufficientData
  | allocationFailure
deriving DecidableEq, Repr

/-- The result of an operation, `(OK, ERR, CONSUMED)` (spec/10_state.md R19 step 3). -/
inductive OpResult where
  /-- `OK = 1`, `ERR = 0`, and the bytes consumed -/
  | success (consumed : BitVec 64)
  /-- `OK = 0`, the error's code, `CONSUMED = 0` (spec/60_exceptions.md R141) -/
  | failure (e : OpError)
deriving DecidableEq, Repr

/-- How far a running operation is (spec/42_frame_decoder.md R131): the check is still to come; blocks are being
performed; the result is known and to be posted. -/
inductive Stage where
  | check
  | blocks (pc : Cursor) (pending : List PendingBlock)
  | post (r : OpResult)
deriving DecidableEq, Repr

/-- The hidden state of a running operation (spec/10_state.md R25). -/
structure Operation where
  code : OpCode
  ops : Operands
  stage : Stage
deriving DecidableEq, Repr

/-- The input buffer, "a read-only input byte buffer of known size" (spec/20_memory.md R30, R31): the number of its
readable bytes, and what they hold. -/
structure InputBuf where
  size : Nat
  cells : Memory
deriving DecidableEq, Repr

/-- A plane as the collaborator hands it over (spec/20_memory.md R32): the number of its writable slots, and what its
bytes hold. -/
structure PlaneBuf where
  slots : Nat
  cells : Memory
deriving DecidableEq, Repr

/-- What comes from outside the core, one move each (log 1). -/
inductive Event where
  /-- the host's `RegWrite(n, v)` (spec/10_state.md R11); `n = 0` starts an operation and no more (R19 step 1) -/
  | regWrite (n : Nat) (v : BitVec 64)
  /-- the host's `RegRead(n)` (spec/10_state.md R11) -/
  | regRead (n : Nat)
  /-- the host's line `VALIDATE` or `DECODE` (spec/30_encoding.md R60): the command and the wait until `DONE`, the whole
  operation in one step (spec/42_frame_decoder.md R128, log 2) -/
  | command (code : BitVec 2)
  /-- the core moves; while blocks are pending it takes the `n`-th of them (spec/42_frame_decoder.md R131) -/
  | core (n : Nat)
  /-- the core writes one sample, the `m`-th still to be written of the `n`-th pending block: a view finer than the
  *block* step (spec/42_frame_decoder.md R128, log 4) -/
  | lane (n m : Nat)
  /-- reset is applied (spec/70_reset_and_hazards.md R160, R161) -/
  | reset
  /-- the host makes so many bytes of `IN` readable (spec/70_reset_and_hazards.md R163 item 1) -/
  | giveIn (size : Nat)
  /-- the host puts a byte of the input stream into `IN` (spec/70_reset_and_hazards.md R163) -/
  | storeIn (a : Nat) (b : Byte)
  /-- the host takes the input buffer back (spec/70_reset_and_hazards.md R167) -/
  | freeIn
  /-- the collaborator hands over a plane of so many writable slots (spec/70_reset_and_hazards.md R163) -/
  | givePlane (c : Chan) (slots : Nat)
  /-- the host writes a byte of a plane it owns (spec/70_reset_and_hazards.md R167) -/
  | storePlane (c : Chan) (a : Nat) (b : Byte)
  /-- the host reads a byte of a plane back (spec/70_reset_and_hazards.md R171) -/
  | loadPlane (c : Chan) (a : Nat)
deriving DecidableEq, Repr

/-- What the host has read (log 12). -/
inductive Reply where
  /-- the value of register `n`, zero-extended -/
  | reg (n : Nat) (v : BitVec 64)
  /-- the byte at an offset of a plane; `none`: nothing has written it, so nothing is known of it -/
  | plane (c : Chan) (a : Nat) (b : Option Byte)
deriving DecidableEq, Repr

/-- The machine. `CMD` holds nothing and `FORMAT` is a constant (spec/10_state.md R19, R23), so neither is a field. -/
structure State where
  /-- register 1 (spec/10_state.md R12) -/
  width : BitVec 16
  /-- register 2 (spec/10_state.md R13) -/
  height : BitVec 16
  /-- register 3 (spec/10_state.md R14) -/
  len : BitVec 64
  /-- register 4 (spec/10_state.md R15) -/
  strideG : BitVec 32
  /-- register 5 (spec/10_state.md R15) -/
  strideB : BitVec 32
  /-- register 6 (spec/10_state.md R15) -/
  strideR : BitVec 32
  /-- register 7 (spec/10_state.md R16) -/
  allocFail : BitVec 1
  /-- register 8 (spec/10_state.md R17): `ERR` in bits 4:3, `OK`, `DONE`, `BUSY` in bits 2, 1, 0 -/
  status : BitVec 5
  /-- register 9 (spec/10_state.md R18) -/
  consumed : BitVec 64
  /-- the hidden state (spec/10_state.md R25), `none` when no operation runs -/
  run : Option Operation
  /-- space `IN` (spec/20_memory.md R31) -/
  input : InputBuf
  /-- space `PG`, plane 0 (spec/20_memory.md R32) -/
  pg : PlaneBuf
  /-- space `PB`, plane 1 (spec/20_memory.md R32) -/
  pb : PlaneBuf
  /-- space `PR`, plane 2 (spec/20_memory.md R32) -/
  pr : PlaneBuf
  /-- the model's own: what happens next from outside (log 1) -/
  events : List Event
  /-- the model's own: what the host has read, newest first (log 12) -/
  replies : List Reply
  /-- the model's own: counts the core's moves that no event prescribed (log 3) -/
  tick : Nat
deriving DecidableEq, Repr

/-- No step of this machine faults: "There is no bus error, no alignment fault, no access fault, no illegal-operation
fault and no arithmetic fault" (spec/60_exceptions.md R143). The three errors are results (`OpError`). -/
inductive Fault where
deriving DecidableEq, Repr

/-- Why the model declines to give a next state: the situations the spec puts outside itself
(spec/93_implementation_defined.md section 2, treatment `refuse`). All are safe: nothing is claimed of what the
hardware then does. -/
inductive Refusal where
  /-- raised by an arm of `exec` whose instruction has no meaning yet; safe. No arm is left. -/
  | notModelled (mnemonic : String)
  /-- U6, spec/30_encoding.md R62: command code 0 or 3; raised by the write of register 0; safe -/
  | reservedCommand (code : BitVec 2)
  /-- spec/30_encoding.md R63: a sample id that names nothing; raised by the fetch; safe -/
  | noSuchSample (id : SampleId)
  /-- U7: register 11 and above; raised by `RegRead` and `RegWrite`; safe -/
  | noSuchRegister (n : Nat)
  /-- spec/10_state.md R11, `BUS_BINDING` open: a datum wider than its register; raised by `RegWrite`; safe -/
  | datumTooWide (n : Nat)
  /-- U5: a command while an operation runs; raised by `VALIDATE`, `DECODE` and the write of register 0; safe -/
  | commandWhileBusy
  /-- U10: the host touches more than `STATUS` while an operation runs; raised by the host's moves; safe -/
  | hostDuringOperation
  /-- U1: `STRIDE_X < WIDTH` and more than one row; raised by the check of a `DECODE`; safe -/
  | strideBelowWidth (c : Chan)
  /-- U2: a plane without the slots the frame needs; raised by the check of a `DECODE` and by a slot write; safe -/
  | planeTooSmall (c : Chan)
  /-- U4: `IN` holds fewer readable bytes than the latched `LEN` says; raised by the check of a `DECODE`; safe -/
  | inputTooShort (size : Nat)
  /-- spec/20_memory.md R31, spec/10_state.md R28: a byte of `IN` where the host has not put the stream, so that nothing is
  known of it (log 5); raised by the reads of `DECODE`, `UNPACK` and `EXT`; safe -/
  | inputMissing (offset : Nat)
  /-- spec/30_encoding.md R59, spec/42_frame_decoder.md R136: `UNPACK` and `EXT` are performed inside a `DECODE` only;
  raised by them outside one; safe -/
  | noBlockSelected
  /-- U4 on the host's side: the host puts a byte beyond the readable bytes of `IN`; raised by the host's move; safe -/
  | outsideInput (a : Nat)
  /-- U2 on the host's side: the host writes or reads a plane beyond its slots; raised by the host's moves; safe -/
  | outsidePlane (c : Chan) (a : Nat)
deriving DecidableEq, Repr

/-- After reset (spec/10_state.md R28, spec/70_reset_and_hazards.md R160). Memory is "not state of the core" and
unspecified: nothing is listed, no buffer has been handed over (log 5, log 6). The model's own fields are empty (log 1, log 3,
log 12). -/
def State.reset : State where
  width := 0
  height := 0
  len := 0
  strideG := 0
  strideB := 0
  strideR := 0
  allocFail := 0
  status := 0
  consumed := 0
  run := none
  input := ⟨0, []⟩
  pg := ⟨0, []⟩
  pb := ⟨0, []⟩
  pr := ⟨0, []⟩
  events := []
  replies := []
  tick := 0

end Sys2Proof.Machine
end

