-- ==== Sys2Proof/Machine/Flags.lean ====
section
/-! DEFINITION. The fields of `STATUS` and the values the steps of an operation give it (spec/10_state.md R17, R19;
spec/60_exceptions.md R140, R141). `OK` and `ERR` are the only flags of the core. -/

namespace Sys2Proof.Machine

/-- `STATUS` from its fields, `ERR` in bits 4:3, `OK` in bit 2, `DONE` in bit 1, `BUSY` in bit 0
(spec/10_state.md R17). -/
def statusWord (err : BitVec 2) (ok done busy : BitVec 1) : BitVec 5 := err ++ ok ++ done ++ busy

/-- Field `BUSY` (spec/10_state.md R17). -/
def statusBusy (st : BitVec 5) : BitVec 1 := st.extractLsb' 0 1

/-- Field `DONE` (spec/10_state.md R17). -/
def statusDone (st : BitVec 5) : BitVec 1 := st.extractLsb' 1 1

/-- Field `OK` (spec/10_state.md R17). -/
def statusOk (st : BitVec 5) : BitVec 1 := st.extractLsb' 2 1

/-- Field `ERR` (spec/10_state.md R17). -/
def statusErr (st : BitVec 5) : BitVec 2 := st.extractLsb' 3 2

/-- The number of an error (spec/60_exceptions.md R140). -/
def errorCode : OpError → BitVec 2
  | .invalidGeometry => 1
  | .insufficientData => 2
  | .allocationFailure => 3

/-- `STATUS` from the start of an operation to its end: `{ERR=0, OK=0, DONE=0, BUSY=1}` (spec/10_state.md R19
step 1). -/
def busyStatus : BitVec 5 := statusWord 0 0 0 1

/-- `STATUS` as the End step posts it: `{ERR=e, OK=k, DONE=1, BUSY=0}` (spec/10_state.md R19 step 3). -/
def resultStatus : OpResult → BitVec 5
  | .success _ => statusWord 0 1 1 0
  | .failure e => statusWord (errorCode e) 0 1 0

/-- `CONSUMED` as the End step posts it: 0 on every failure (spec/10_state.md R18, spec/60_exceptions.md R141). -/
def resultConsumed : OpResult → BitVec 64
  | .success c => c
  | .failure _ => 0

end Sys2Proof.Machine
end

