-- ==== Sys2Proof/Decode.lean ====
section
/-! DEFINITION. The decoder of the table's words, total and rejecting by name, the encoder, the byte order of a packed
block, and the host's door `decodeTableWord` (spec/30_encoding.md R51, R59, R61 to R63). -/

namespace Sys2Proof

/-- Why a word names no operation. -/
inductive DecodeError where
  /-- command codes 0 and 3 (spec/30_encoding.md R62) -/
  | reservedCommand (code : BitVec 2)
  /-- sample ids 24 to 31 (spec/30_encoding.md R63) -/
  | noSuchSample (id : SampleId)
deriving DecidableEq, Repr

/-- Format `CMD` (spec/30_encoding.md R61). -/
def decodeCommand (code : BitVec 2) : Except DecodeError Instr :=
  match code.toNat with
  | 1 => .ok .validate
  | 2 => .ok .decode
  | _ => .error (.reservedCommand code)

/-- Format `SAMPLE` (spec/30_encoding.md R59): id `8 * plane + pixel`. -/
def decodeSample (id : SampleId) : Except DecodeError Instr :=
  match id.toNat with
  | 0 => .ok .extG0
  | 1 => .ok .extG1
  | 2 => .ok .extG2
  | 3 => .ok .extG3
  | 4 => .ok .extG4
  | 5 => .ok .extG5
  | 6 => .ok .extG6
  | 7 => .ok .extG7
  | 8 => .ok .extB0
  | 9 => .ok .extB1
  | 10 => .ok .extB2
  | 11 => .ok .extB3
  | 12 => .ok .extB4
  | 13 => .ok .extB5
  | 14 => .ok .extB6
  | 15 => .ok .extB7
  | 16 => .ok .extR0
  | 17 => .ok .extR1
  | 18 => .ok .extR2
  | 19 => .ok .extR3
  | 20 => .ok .extR4
  | 21 => .ok .extR5
  | 22 => .ok .extR6
  | 23 => .ok .extR7
  | _ => .error (.noSuchSample id)

/-- The decoder. Every 36-byte value is a valid block (spec/30_encoding.md R51). -/
def decode : TableWord → Except DecodeError Instr
  | .cmd code => decodeCommand code
  | .block bits => .ok (.unpack bits)
  | .sample id => decodeSample id

/-- The encoder: the word of an operation (spec/30_encoding.md R59, R61). -/
def encode : Instr → TableWord
  | .validate => .cmd 1
  | .decode => .cmd 2
  | .unpack block => .block block
  | .extG0 => .sample 0
  | .extG1 => .sample 1
  | .extG2 => .sample 2
  | .extG3 => .sample 3
  | .extG4 => .sample 4
  | .extG5 => .sample 5
  | .extG6 => .sample 6
  | .extG7 => .sample 7
  | .extB0 => .sample 8
  | .extB1 => .sample 9
  | .extB2 => .sample 10
  | .extB3 => .sample 11
  | .extB4 => .sample 12
  | .extB5 => .sample 13
  | .extB6 => .sample 14
  | .extB7 => .sample 15
  | .extR0 => .sample 16
  | .extR1 => .sample 17
  | .extR2 => .sample 18
  | .extR3 => .sample 19
  | .extR4 => .sample 20
  | .extR5 => .sample 21
  | .extR6 => .sample 22
  | .extR7 => .sample 23

/-- Byte `k` of a block in stream order, `S[k]` (spec/30_encoding.md R51). -/
def Block.byteAt (S : Block) (k : Nat) : Byte := S.extractLsb' (8 * k) 8

/-- The bytes of a block as the stream holds them, byte 0 first (spec/30_encoding.md R51). -/
def Block.toBytes (S : Block) : List Byte := (List.range 36).map (Block.byteAt S)

/-- The block whose bytes, in stream order, are those of the list (spec/30_encoding.md R51). -/
def Block.ofBytes : List Byte → Block
  | [] => 0
  | b :: bs => b.setWidth 288 ||| (Block.ofBytes bs <<< 8)

/-- The word that `nbits` bits of value `w` stand for in spec/opcode_table.json. The table numbers its three formats
from 0 apart, so the same number can stand in two of them: a whole byte of value 1 or 2 is read as the command code
the host writes, since a sample id "is not a hardware-visible code". DESIGN CHOICE (log 14): a value wider than its
format is cut to the format's low bits, so that a byte 0x20 to 0xFF is read as the sample id of its low 5 bits, the bits
above having no place in the table's mask; the table and spec/30_encoding.md R63 say nothing of such a value. -/
def tableWord (nbits w : Nat) : TableWord :=
  if nbits = 0 ∨ 8 < nbits then .block (BitVec.ofNat 288 w)
  else if nbits ≤ 2 ∨ (5 < nbits ∧ (w = 1 ∨ w = 2)) then .cmd (BitVec.ofNat 2 w)
  else .sample (BitVec.ofNat 5 w)

/-- The instruction the decoder reads from a word of spec/opcode_table.json, `none` where it refuses. -/
def decodeTableWord (nbits w : Nat) : Option Instr :=
  (decode (tableWord nbits w)).toOption

end Sys2Proof
end

