-- ==== Sys2Proof/Machine/Operands.lean ====
section
/-! DEFINITION. The operand forms: the bytes and nibbles of a block, the two forms of a sample, and the offsets of
blocks and slots (spec/41_block_unpacker.md R80, R81; spec/30_encoding.md R54 to R56; spec/42_frame_decoder.md R122). -/

namespace Sys2Proof.Machine

/-- `FULL(w,b) = S[w*4 + b]` (spec/41_block_unpacker.md R80). -/
def full (S : Block) (w : Fin 9) (b : Fin 4) : Byte := S.byteAt (w.val * 4 + b.val)

/-- The low nibble of a byte, bits 3:0: `& 0x0F` (spec/41_block_unpacker.md R80). -/
def lowNibble (x : Byte) : Nibble := (x &&& 0x0F).setWidth 4

/-- The high nibble of a byte, bits 7:4 moved to bits 3:0: `>> 4`, logical (spec/41_block_unpacker.md R80). -/
def highNibble (x : Byte) : Nibble := (x >>> 4).setWidth 4

/-- `LOW(w,b) = FULL(w,b) & 0x0F` (spec/41_block_unpacker.md R80). -/
def low (S : Block) (w : Fin 9) (b : Fin 4) : Nibble := lowNibble (full S w b)

/-- `HIGH(w,b) = FULL(w,b) >> 4` (spec/41_block_unpacker.md R80). -/
def high (S : Block) (w : Fin 9) (b : Fin 4) : Nibble := highNibble (full S w b)

/-- What a selector takes from a byte, as a 12-bit value, nothing sign-extended (spec/30_encoding.md R53, R54). -/
def selTake : Sel → Byte → Sample
  | .full, x => x.setWidth 12
  | .low, x => (lowNibble x).setWidth 12
  | .high, x => (highNibble x).setWidth 12

/-- The index `k = 4×w + b` of the byte a piece is taken from (spec/30_encoding.md R53, R57). -/
def pieceIndex (p : Piece) : Nat := 4 * p.word.val + p.byte.val

/-- A piece of a sample: what is taken from its byte, shifted left (spec/30_encoding.md R53, R56). -/
def piecePart (p : Piece) (x : Byte) : Sample := selTake p.sel x <<< p.shift

/-- The sample of an entry from its two bytes: low part OR high part (spec/30_encoding.md R54, R55, R56). -/
def entryValue (e : Entry) (x y : Byte) : Sample := piecePart e.lo x ||| piecePart e.hi y

/-- The sample of an entry in a block (spec/41_block_unpacker.md R81). -/
def entrySample (e : Entry) (S : Block) : Sample :=
  entryValue e (S.byteAt (pieceIndex e.lo)) (S.byteAt (pieceIndex e.hi))

/-- Form A, `FULL(w1,b1) | LOW(w2,b2)<<8` (spec/30_encoding.md R54). -/
def formA (c : Chan) (p : Fin 8) (w1 : Fin 9) (b1 : Fin 4) (w2 : Fin 9) (b2 : Fin 4) : Entry :=
  ⟨c, p, ⟨w1, b1, .full, 0⟩, ⟨w2, b2, .low, 8⟩⟩

/-- Form B, `HIGH(w1,b1) | FULL(w2,b2)<<4` (spec/30_encoding.md R55). -/
def formB (c : Chan) (p : Fin 8) (w1 : Fin 9) (b1 : Fin 4) (w2 : Fin 9) (b2 : Fin 4) : Entry :=
  ⟨c, p, ⟨w1, b1, .high, 0⟩, ⟨w2, b2, .full, 4⟩⟩

/-- Plane numbers: G = 0, B = 1, R = 2 (spec/30_encoding.md R59). -/
def planeIndex : Chan → Nat
  | .g => 0
  | .b => 1
  | .r => 2

/-- `id = 8 × plane + pixel` (spec/30_encoding.md R59). -/
def sampleId (c : Chan) (p : Fin 8) : SampleId := BitVec.ofNat 5 (8 * planeIndex c + p.val)

/-- Blocks per line, `width/8`; exact when the width has passed the validator (spec/40_geometry_validator.md R73). -/
def blocksPerLine (width : BitVec 16) : Nat := width.toNat / 8

/-- The stride of a plane, in slots (spec/10_state.md R15). -/
def Operands.stride (o : Operands) : Chan → Nat
  | .g => o.strideG.toNat
  | .b => o.strideB.toNat
  | .r => o.strideR.toNat

/-- `in_off = row × (width/8) × 36 + blk × 36`, in bytes of `IN` (spec/42_frame_decoder.md R122). -/
def inOff (o : Operands) (pc : Cursor) : Nat :=
  pc.row * blocksPerLine o.width * Config.blockBytes + pc.blk * Config.blockBytes

/-- `slot_X = row × stride_X + blk × 8 + p`, in slots of plane `X` (spec/42_frame_decoder.md R122). -/
def slotOf (o : Operands) (c : Chan) (pc : Cursor) (p : Fin 8) : Nat :=
  pc.row * o.stride c + pc.blk * Config.blockPixels + p.val

/-- The required size `R = height × (width/8) × 36`, a natural number that is never reduced
(spec/40_geometry_validator.md R70, R73). -/
def requiredSize (o : Operands) : Nat :=
  o.height.toNat * blocksPerLine o.width * Config.blockBytes

/-- The slots a plane must have: `(height−1) × stride + width` (spec/20_memory.md R32). -/
def neededSlots (o : Operands) (c : Chan) : Nat :=
  (o.height.toNat - 1) * o.stride c + o.width.toNat

/-- The next block in the reference order (spec/10_state.md R21). -/
def Cursor.next (o : Operands) (pc : Cursor) : Cursor :=
  if pc.blk + 1 < blocksPerLine o.width then ⟨pc.row, pc.blk + 1⟩ else ⟨pc.row + 1, 0⟩

end Sys2Proof.Machine
end

