-- ==== Sys2Proof/Machine/Table.lean ====
section
/-! DEFINITION. The extraction table: the 24 entries of spec/41_block_unpacker.md section 2, each as its rule writes
it, and the two orders they are listed in. The table is normative as transcribed and unaudited (log 21). -/

namespace Sys2Proof.Machine

/-- `EXT.G0`: `HIGH(0,2) | FULL(0,1)<<4` (spec/41_block_unpacker.md R84). -/
def entryG0 : Entry := formB .g 0 0 2 0 1

/-- `EXT.G1`: `FULL(1,1) | LOW(1,0)<<8` (spec/41_block_unpacker.md R87). -/
def entryG1 : Entry := formA .g 1 1 1 1 0

/-- `EXT.G2`: `HIGH(2,1) | FULL(2,0)<<4` (spec/41_block_unpacker.md R90). -/
def entryG2 : Entry := formB .g 2 2 1 2 0

/-- `EXT.G3`: `FULL(3,0) | LOW(4,3)<<8` (spec/41_block_unpacker.md R93). -/
def entryG3 : Entry := formA .g 3 3 0 4 3

/-- `EXT.G4`: `HIGH(4,0) | FULL(5,3)<<4` (spec/41_block_unpacker.md R96). -/
def entryG4 : Entry := formB .g 4 4 0 5 3

/-- `EXT.G5`: `FULL(6,3) | LOW(6,2)<<8` (spec/41_block_unpacker.md R99). -/
def entryG5 : Entry := formA .g 5 6 3 6 2

/-- `EXT.G6`: `HIGH(7,3) | FULL(7,2)<<4` (spec/41_block_unpacker.md R102). -/
def entryG6 : Entry := formB .g 6 7 3 7 2

/-- `EXT.G7`: `FULL(8,2) | LOW(8,1)<<8` (spec/41_block_unpacker.md R105). -/
def entryG7 : Entry := formA .g 7 8 2 8 1

/-- `EXT.B0`: `FULL(0,0) | LOW(1,3)<<8` (spec/41_block_unpacker.md R83). -/
def entryB0 : Entry := formA .b 0 0 0 1 3

/-- `EXT.B1`: `HIGH(1,0) | FULL(2,3)<<4` (spec/41_block_unpacker.md R86). -/
def entryB1 : Entry := formB .b 1 1 0 2 3

/-- `EXT.B2`: `FULL(3,3) | LOW(3,2)<<8` (spec/41_block_unpacker.md R89). -/
def entryB2 : Entry := formA .b 2 3 3 3 2

/-- `EXT.B3`: `HIGH(4,3) | FULL(4,2)<<4` (spec/41_block_unpacker.md R92). -/
def entryB3 : Entry := formB .b 3 4 3 4 2

/-- `EXT.B4`: `FULL(5,2) | LOW(5,1)<<8` (spec/41_block_unpacker.md R95). -/
def entryB4 : Entry := formA .b 4 5 2 5 1

/-- `EXT.B5`: `HIGH(6,2) | FULL(6,1)<<4` (spec/41_block_unpacker.md R98). -/
def entryB5 : Entry := formB .b 5 6 2 6 1

/-- `EXT.B6`: `FULL(7,1) | LOW(7,0)<<8` (spec/41_block_unpacker.md R101). -/
def entryB6 : Entry := formA .b 6 7 1 7 0

/-- `EXT.B7`: `HIGH(8,1) | FULL(8,0)<<4` (spec/41_block_unpacker.md R104). -/
def entryB7 : Entry := formB .b 7 8 1 8 0

/-- `EXT.R0`: `FULL(0,3) | LOW(0,2)<<8` (spec/41_block_unpacker.md R85). -/
def entryR0 : Entry := formA .r 0 0 3 0 2

/-- `EXT.R1`: `HIGH(1,3) | FULL(1,2)<<4` (spec/41_block_unpacker.md R88). -/
def entryR1 : Entry := formB .r 1 1 3 1 2

/-- `EXT.R2`: `FULL(2,2) | LOW(2,1)<<8` (spec/41_block_unpacker.md R91). -/
def entryR2 : Entry := formA .r 2 2 2 2 1

/-- `EXT.R3`: `HIGH(3,2) | FULL(3,1)<<4` (spec/41_block_unpacker.md R94). -/
def entryR3 : Entry := formB .r 3 3 2 3 1

/-- `EXT.R4`: `FULL(4,1) | LOW(4,0)<<8` (spec/41_block_unpacker.md R97). -/
def entryR4 : Entry := formA .r 4 4 1 4 0

/-- `EXT.R5`: `HIGH(5,1) | FULL(5,0)<<4` (spec/41_block_unpacker.md R100). -/
def entryR5 : Entry := formB .r 5 5 1 5 0

/-- `EXT.R6`: `FULL(6,0) | LOW(7,3)<<8` (spec/41_block_unpacker.md R103). -/
def entryR6 : Entry := formA .r 6 6 0 7 3

/-- `EXT.R7`: `HIGH(7,0) | FULL(8,3)<<4` (spec/41_block_unpacker.md R106). -/
def entryR7 : Entry := formB .r 7 7 0 8 3

/-- The entry of a sample id, `none` for the ids 24 to 31 (spec/30_encoding.md R57, R63). -/
def entryOf (id : SampleId) : Option Entry :=
  [entryG0, entryG1, entryG2, entryG3, entryG4, entryG5, entryG6, entryG7,
   entryB0, entryB1, entryB2, entryB3, entryB4, entryB5, entryB6, entryB7,
   entryR0, entryR1, entryR2, entryR3, entryR4, entryR5, entryR6, entryR7][id.toNat]?

/-- The 24 extractions in the order `UNPACK` lists them: pixel 0 to 7, within a pixel Blue, Green, Red
(spec/41_block_unpacker.md R82). -/
def unpackOrder : List Entry :=
  [entryB0, entryG0, entryR0, entryB1, entryG1, entryR1, entryB2, entryG2, entryR2, entryB3, entryG3, entryR3,
   entryB4, entryG4, entryR4, entryB5, entryG5, entryR5, entryB6, entryG6, entryR6, entryB7, entryG7, entryR7]

/-- All sample ids, in order (spec/30_encoding.md R59): what is to be written of a block not yet begun. -/
def allLanes : List SampleId := (List.range 24).map (BitVec.ofNat 5)

end Sys2Proof.Machine
end

