-- ==== Sys2Proof/Machine/Ops.lean ====
section
/-! DEFINITION. The named operations over memory and registers: the byte spaces, the planes, `RegRead` and `RegWrite`,
the Start and End of an operation, `raise`, reset, and the steps of a running operation
(spec/10_state.md R11, R19; spec/20_memory.md R34, R37; spec/42_frame_decoder.md R123, R131; spec/60_exceptions.md
R141). -/

namespace Sys2Proof.Machine

/-! ### Byte spaces -/

/-- The byte at an offset; `none`: nothing has been put there. -/
def Memory.read : Memory → Nat → Option Byte
  | [], _ => none
  | (k, v) :: m, a => if k = a then some v else Memory.read m a

/-- Put a byte at an offset; keeps the offsets strictly rising. -/
def Memory.write : Memory → Nat → Byte → Memory
  | [], a, b => [(a, b)]
  | (k, v) :: m, a, b =>
    if a < k then (a, b) :: (k, v) :: m
    else if a = k then (a, b) :: m
    else (k, v) :: Memory.write m a b

/-- The canonical form: offsets strictly rising. An unlisted offset has no value, so no entry can equal it. -/
abbrev Memory.wf (m : Memory) : Prop := m.Pairwise (fun x y => x.1 < y.1)

/-- The canonical form of the input buffer: that of its bytes, all of them inside its size (spec/20_memory.md R31). -/
abbrev InputBuf.wf (p : InputBuf) : Prop := Memory.wf p.cells ∧ ∀ x ∈ p.cells, x.1 < p.size

/-- The canonical form of a plane: that of its bytes, all of them inside its slots (spec/20_memory.md R32). -/
abbrev PlaneBuf.wf (p : PlaneBuf) : Prop := Memory.wf p.cells ∧ ∀ x ∈ p.cells, x.1 < 2 * p.slots

/-- Read `n` bytes from offset `a` on; the error is the first offset that holds nothing. -/
def readBytes (m : Memory) : Nat → Nat → Except Nat (List Byte)
  | _, 0 => .ok []
  | a, n + 1 =>
    match Memory.read m a with
    | none => .error a
    | some b =>
      match readBytes m (a + 1) n with
      | .error e => .error e
      | .ok bs => .ok (b :: bs)

/-- Put bytes from offset `a` on. -/
def writeBytes (m : Memory) : Nat → List Byte → Memory
  | _, [] => m
  | a, b :: bs => writeBytes (Memory.write m a b) (a + 1) bs

/-! ### Planes -/

/-- The buffer of a channel (spec/00_scope.md R9: plane order G, B, R). -/
def State.plane (s : State) : Chan → PlaneBuf
  | .g => s.pg
  | .b => s.pb
  | .r => s.pr

/-- Replace the buffer of a channel. -/
def State.setPlane (s : State) (c : Chan) (p : PlaneBuf) : State :=
  match c with
  | .g => { s with pg := p }
  | .b => { s with pb := p }
  | .r => { s with pr := p }

/-- The byte at an offset of `IN` (spec/20_memory.md R30). -/
def State.inByte (s : State) (a : Nat) : Option Byte := Memory.read s.input.cells a

/-- The byte at an offset of a plane (spec/20_memory.md R30). -/
def State.planeByte (s : State) (c : Chan) (a : Nat) : Option Byte := Memory.read (s.plane c).cells a

/-- Format `SLOT` (spec/30_encoding.md R52): the sample in bits 11:0, bits 15:12 zero. -/
def slotValue (v : Sample) : Slot := v.setWidth 16

/-- The low byte of a slot, at byte offset `2k` (spec/20_memory.md R34). -/
def slotLow (v : Slot) : Byte := v.extractLsb' 0 8

/-- The high byte of a slot, at byte offset `2k+1` (spec/20_memory.md R34). -/
def slotHigh (v : Slot) : Byte := v.extractLsb' 8 8

/-- `MemWrite(P + 2k, 2, v)`, little-endian (spec/00_scope.md R7, spec/20_memory.md R34), with no look at the size. -/
def PlaneBuf.put (p : PlaneBuf) (k : Nat) (v : Slot) : PlaneBuf :=
  ⟨p.slots, Memory.write (Memory.write p.cells (2 * k) (slotLow v)) (2 * k + 1) (slotHigh v)⟩

/-- Store a sample into slot `k` of a plane; a slot the plane does not have is U2
(spec/93_implementation_defined.md). -/
def storeSample (c : Chan) (k : Nat) (v : Sample) (s : State) : Except Refusal State :=
  if k < (s.plane c).slots then .ok (s.setPlane c ((s.plane c).put k (slotValue v)))
  else .error (.planeTooSmall c)

/-! ### The interface registers -/

/-- The width of interface register `n`, `none` for a number above 10 (spec/10_state.md R10). -/
def registerWidth : Nat → Option Nat
  | 0 => some 2
  | 1 => some 16
  | 2 => some 16
  | 3 => some 64
  | 4 => some 32
  | 5 => some 32
  | 6 => some 32
  | 7 => some 1
  | 8 => some 5
  | 9 => some 64
  | 10 => some 16
  | _ => none

/-- The value `RegRead(n)` returns (spec/10_state.md R10, R11): `CMD` reads as 0 (R19), `FORMAT` is a constant (R23),
a register above 10 does not exist (U7). -/
def registerValue (s : State) : Nat → Option (BitVec 64)
  | 0 => some 0
  | 1 => some (s.width.setWidth 64)
  | 2 => some (s.height.setWidth 64)
  | 3 => some s.len
  | 4 => some (s.strideG.setWidth 64)
  | 5 => some (s.strideB.setWidth 64)
  | 6 => some (s.strideR.setWidth 64)
  | 7 => some (s.allocFail.setWidth 64)
  | 8 => some (s.status.setWidth 64)
  | 9 => some s.consumed
  | 10 => some (Config.format.setWidth 64)
  | _ => none

/-- `RegWrite(n, v)` for `n` in 1..7 sets the register; for 8..10 it has no effect (spec/10_state.md R11). Register 0
is not written here: its write starts an operation (R19). -/
def setRegister (s : State) (n : Nat) (v : BitVec 64) : State :=
  match n with
  | 1 => { s with width := v.setWidth 16 }
  | 2 => { s with height := v.setWidth 16 }
  | 3 => { s with len := v }
  | 4 => { s with strideG := v.setWidth 32 }
  | 5 => { s with strideB := v.setWidth 32 }
  | 6 => { s with strideR := v.setWidth 32 }
  | 7 => { s with allocFail := v.setWidth 1 }
  | _ => s

/-! ### Start, End, raise, reset -/

/-- The operands as the registers hold them now (spec/10_state.md R19 step 1). -/
def latch (s : State) : Operands :=
  ⟨s.width, s.height, s.len, s.strideG, s.strideB, s.strideR, s.allocFail⟩

/-- The Start step (spec/10_state.md R19 step 1): operands latched, `STATUS` busy, `CONSUMED` 0. -/
def start (code : OpCode) (s : State) : State :=
  { s with run := some ⟨code, latch s, .check⟩, status := busyStatus, consumed := 0 }

/-- The End step (spec/10_state.md R19 step 3): `STATUS` and `CONSUMED` posted together, the hidden state emptied
(R25). -/
def finish (r : OpResult) (s : State) : State :=
  { s with run := none, status := resultStatus r, consumed := resultConsumed r }

/-- TAKING AN EXCEPTION: `raise E` ends the operation with `OK = 0`, the code of `E`, `CONSUMED = 0`
(spec/60_exceptions.md R141). Nothing is saved and control goes nowhere (R145); there is no return: the core is idle
and takes the next command (R146). -/
def raise (e : OpError) (s : State) : State := finish (.failure e) s

/-- Reset as an event (spec/70_reset_and_hazards.md R160, R161): every register at its reset value, the hidden state
empty, no result posted; memory is not affected (R162), nor is what the model keeps of the outside. -/
def resetCore (s : State) : State :=
  { s with width := 0, height := 0, len := 0, strideG := 0, strideB := 0, strideR := 0, allocFail := 0,
           status := 0, consumed := 0, run := none }

/-! ### A running operation -/

/-- The stage of a running operation replaced. -/
def setStage (op : Operation) (st : Stage) (s : State) : State :=
  { s with run := some ⟨op.code, op.ops, st⟩ }

/-- The running `DECODE`, when its blocks are being performed. -/
def unpacking (s : State) : Option (Operands × Cursor × List PendingBlock) :=
  match s.run with
  | some ⟨.decode, o, .blocks pc pending⟩ => some (o, pc, pending)
  | _ => none

/-- All blocks of a frame in the reference order, row by row, left to right (spec/42_frame_decoder.md R121), nothing
of them written yet. -/
def allBlocks (o : Operands) : List PendingBlock :=
  (List.range o.height.toNat).flatMap fun row =>
    (List.range (blocksPerLine o.width)).map fun blk => ⟨⟨row, blk⟩, allLanes⟩

/-- A block performed: it is no longer pending (spec/42_frame_decoder.md R131 step 3). -/
def blockDone (pos : Cursor) (pending : List PendingBlock) : List PendingBlock :=
  pending.filter fun b => !(b.pos == pos)

/-- A sample of a block written: it is no longer pending, nor is its block when it was the last. -/
def laneDone (pos : Cursor) (id : SampleId) (pending : List PendingBlock) : List PendingBlock :=
  pending.filterMap fun b =>
    if b.pos = pos then
      match b.lanes.filter fun l => !(l == id) with
      | [] => none
      | l :: ls => some ⟨pos, l :: ls⟩
    else some b

/-- The bytes of the block at the cursor, as a word of format `BLOCK`: `S[k] := MemRead(IN + in_off + k, 1)`
(spec/42_frame_decoder.md R120, R123). -/
def fetchBlock (o : Operands) (pc : Cursor) (input : Memory) : Except Refusal Block :=
  match readBytes input (inOff o pc) Config.blockBytes with
  | .error a => .error (.inputMissing a)
  | .ok bs => .ok (Block.ofBytes bs)

end Sys2Proof.Machine
end

