-- ==== Sys2Proof/Machine/Unpack.lean ====
section
/-! DEFINITION. One block and one sample: the meaning of `UNPACK` and the shared operation of the 24 `EXT`
(spec/41_block_unpacker.md R82, R109, R111; spec/42_frame_decoder.md R122, R123, R135). -/

namespace Sys2Proof.Machine

/-- Store the samples of the listed entries, taken from the block `S`, into their slots for the block at `pc`
(spec/41_block_unpacker.md R82). -/
def storeEntries (o : Operands) (pc : Cursor) (S : Block) : List Entry → State → Except Refusal State
  | [], s => .ok s
  | e :: es, s =>
    match storeSample e.chan (slotOf o e.chan pc e.pixel) (entrySample e S) s with
    | .error r => .error r
    | .ok s' => storeEntries o pc S es s'

/-- `UNPACK` of the block `S` at the cursor (spec/41_block_unpacker.md R82, spec/42_frame_decoder.md R123): 24 slots
written, the block no longer pending (R131), the cursor at the next block (spec/10_state.md R21). -/
def execUnpack (S : Block) (s : State) : Host.Outcome State Fault Refusal :=
  match unpacking s with
  | none => .refused .noBlockSelected
  | some (o, pc, pending) =>
    match storeEntries o pc S unpackOrder s with
    | .error r => .refused r
    | .ok s' => .next { s' with run := some ⟨.decode, o, .blocks (pc.next o) (blockDone pc pending)⟩ }

/-- One extraction for the block at the cursor: its two bytes read from `IN`, its sample written to its slot, the
sample no longer pending (spec/20_memory.md R33, spec/41_block_unpacker.md R109, spec/42_frame_decoder.md R135). -/
def extract (e : Entry) (s : State) : Host.Outcome State Fault Refusal :=
  match unpacking s with
  | none => .refused .noBlockSelected
  | some (o, pc, pending) =>
    match s.inByte (inOff o pc + pieceIndex e.lo) with
    | none => .refused (.inputMissing (inOff o pc + pieceIndex e.lo))
    | some x =>
      match s.inByte (inOff o pc + pieceIndex e.hi) with
      | none => .refused (.inputMissing (inOff o pc + pieceIndex e.hi))
      | some y =>
        match storeSample e.chan (slotOf o e.chan pc e.pixel) (entryValue e x y) s with
        | .error r => .refused r
        | .ok s' =>
          .next { s' with run := some ⟨.decode, o, .blocks pc (laneDone pc (sampleId e.chan e.pixel) pending)⟩ }

end Sys2Proof.Machine
end

