-- ==== Sys2Proof/Machine/Extract.lean ====
section
/-! DEFINITION. The 24 sample extractions, one meaning each (spec/41_block_unpacker.md R83 to R106), over the shared
operation `extract` and the entry of the table. -/

namespace Sys2Proof.Machine

/-- `EXT.G0`: `G[0] := (S[2] >> 4) | (S[1] << 4)` (spec/41_block_unpacker.md R84). -/
def execExtG0 (s : State) : Host.Outcome State Fault Refusal := extract entryG0 s

/-- `EXT.G1`: `G[1] := S[5] | ((S[4] & 0x0F) << 8)` (spec/41_block_unpacker.md R87). -/
def execExtG1 (s : State) : Host.Outcome State Fault Refusal := extract entryG1 s

/-- `EXT.G2`: `G[2] := (S[9] >> 4) | (S[8] << 4)` (spec/41_block_unpacker.md R90). -/
def execExtG2 (s : State) : Host.Outcome State Fault Refusal := extract entryG2 s

/-- `EXT.G3`: `G[3] := S[12] | ((S[19] & 0x0F) << 8)` (spec/41_block_unpacker.md R93). -/
def execExtG3 (s : State) : Host.Outcome State Fault Refusal := extract entryG3 s

/-- `EXT.G4`: `G[4] := (S[16] >> 4) | (S[23] << 4)` (spec/41_block_unpacker.md R96). -/
def execExtG4 (s : State) : Host.Outcome State Fault Refusal := extract entryG4 s

/-- `EXT.G5`: `G[5] := S[27] | ((S[26] & 0x0F) << 8)` (spec/41_block_unpacker.md R99). -/
def execExtG5 (s : State) : Host.Outcome State Fault Refusal := extract entryG5 s

/-- `EXT.G6`: `G[6] := (S[31] >> 4) | (S[30] << 4)` (spec/41_block_unpacker.md R102). -/
def execExtG6 (s : State) : Host.Outcome State Fault Refusal := extract entryG6 s

/-- `EXT.G7`: `G[7] := S[34] | ((S[33] & 0x0F) << 8)` (spec/41_block_unpacker.md R105). -/
def execExtG7 (s : State) : Host.Outcome State Fault Refusal := extract entryG7 s

/-- `EXT.B0`: `B[0] := S[0] | ((S[7] & 0x0F) << 8)` (spec/41_block_unpacker.md R83). -/
def execExtB0 (s : State) : Host.Outcome State Fault Refusal := extract entryB0 s

/-- `EXT.B1`: `B[1] := (S[4] >> 4) | (S[11] << 4)` (spec/41_block_unpacker.md R86). -/
def execExtB1 (s : State) : Host.Outcome State Fault Refusal := extract entryB1 s

/-- `EXT.B2`: `B[2] := S[15] | ((S[14] & 0x0F) << 8)` (spec/41_block_unpacker.md R89). -/
def execExtB2 (s : State) : Host.Outcome State Fault Refusal := extract entryB2 s

/-- `EXT.B3`: `B[3] := (S[19] >> 4) | (S[18] << 4)` (spec/41_block_unpacker.md R92). -/
def execExtB3 (s : State) : Host.Outcome State Fault Refusal := extract entryB3 s

/-- `EXT.B4`: `B[4] := S[22] | ((S[21] & 0x0F) << 8)` (spec/41_block_unpacker.md R95). -/
def execExtB4 (s : State) : Host.Outcome State Fault Refusal := extract entryB4 s

/-- `EXT.B5`: `B[5] := (S[26] >> 4) | (S[25] << 4)` (spec/41_block_unpacker.md R98). -/
def execExtB5 (s : State) : Host.Outcome State Fault Refusal := extract entryB5 s

/-- `EXT.B6`: `B[6] := S[29] | ((S[28] & 0x0F) << 8)` (spec/41_block_unpacker.md R101). -/
def execExtB6 (s : State) : Host.Outcome State Fault Refusal := extract entryB6 s

/-- `EXT.B7`: `B[7] := (S[33] >> 4) | (S[32] << 4)` (spec/41_block_unpacker.md R104). -/
def execExtB7 (s : State) : Host.Outcome State Fault Refusal := extract entryB7 s

/-- `EXT.R0`: `R[0] := S[3] | ((S[2] & 0x0F) << 8)` (spec/41_block_unpacker.md R85). -/
def execExtR0 (s : State) : Host.Outcome State Fault Refusal := extract entryR0 s

/-- `EXT.R1`: `R[1] := (S[7] >> 4) | (S[6] << 4)` (spec/41_block_unpacker.md R88). -/
def execExtR1 (s : State) : Host.Outcome State Fault Refusal := extract entryR1 s

/-- `EXT.R2`: `R[2] := S[10] | ((S[9] & 0x0F) << 8)` (spec/41_block_unpacker.md R91). -/
def execExtR2 (s : State) : Host.Outcome State Fault Refusal := extract entryR2 s

/-- `EXT.R3`: `R[3] := (S[14] >> 4) | (S[13] << 4)` (spec/41_block_unpacker.md R94). -/
def execExtR3 (s : State) : Host.Outcome State Fault Refusal := extract entryR3 s

/-- `EXT.R4`: `R[4] := S[17] | ((S[16] & 0x0F) << 8)` (spec/41_block_unpacker.md R97). -/
def execExtR4 (s : State) : Host.Outcome State Fault Refusal := extract entryR4 s

/-- `EXT.R5`: `R[5] := (S[21] >> 4) | (S[20] << 4)` (spec/41_block_unpacker.md R100). -/
def execExtR5 (s : State) : Host.Outcome State Fault Refusal := extract entryR5 s

/-- `EXT.R6`: `R[6] := S[24] | ((S[31] & 0x0F) << 8)` (spec/41_block_unpacker.md R103). -/
def execExtR6 (s : State) : Host.Outcome State Fault Refusal := extract entryR6 s

/-- `EXT.R7`: `R[7] := (S[28] >> 4) | (S[35] << 4)` (spec/41_block_unpacker.md R106). -/
def execExtR7 (s : State) : Host.Outcome State Fault Refusal := extract entryR7 s

end Sys2Proof.Machine
end

