-- ==== Sys2Proof/Machine/Validator.lean ====
section
/-! DEFINITION. The geometry validator, the check of a `DECODE`, and the meaning of `VALIDATE`
(spec/40_geometry_validator.md R70 to R77; spec/42_frame_decoder.md R125, R129; spec/60_exceptions.md R144). -/

namespace Sys2Proof.Machine

/-- `Validate(width, height, len)`: the error, or `none` for a pass (spec/40_geometry_validator.md R70 to R72). -/
def validateGeometry (o : Operands) : Option OpError :=
  if o.width.toNat % Config.blockPixels ≠ 0 then some .invalidGeometry
  else if o.width = 0 ∨ o.height = 0 then some .invalidGeometry
  else if o.len.toNat < requiredSize o then some .insufficientData
  else none

/-- The error of a `DECODE`: the validator's, else `AllocationFailure` when the latched `alloc_fail` is 1
(spec/42_frame_decoder.md R125, spec/60_exceptions.md R144). -/
def decodeError (o : Operands) : Option OpError :=
  match validateGeometry o with
  | some e => some e
  | none => if o.allocFail = 1 then some .allocationFailure else none

/-- The first of the listed planes that breaks a duty of the host (spec/42_frame_decoder.md R129 (b), (c)): a stride
below the width where there is more than one row (U1: for one row the stride is multiplied by 0 only), a plane without
the slots the frame needs (U2). -/
def brokenPlane (o : Operands) (s : State) : List Chan → Option Refusal
  | [] => none
  | c :: cs =>
    if o.stride c < o.width.toNat ∧ 1 < o.height.toNat then some (.strideBelowWidth c)
    else if (s.plane c).slots < neededSlots o c then some (.planeTooSmall c)
    else brokenPlane o s cs

/-- The first of the host's duties a `DECODE` relies on that is broken: `IN` holds fewer readable bytes than the latched
`len` (spec/42_frame_decoder.md R129 (a), spec/20_memory.md R31, U4), or a plane breaks one (R129 (b), (c)). -/
def brokenDuty (o : Operands) (s : State) : Option Refusal :=
  if s.input.size < o.len.toNat then some (.inputTooShort s.input.size) else brokenPlane o s [.g, .b, .r]

/-- What the check of an operation finds (spec/42_frame_decoder.md R131 step 2). -/
inductive CheckOutcome where
  /-- the result is known: a validation, or an error -/
  | result (r : OpResult)
  /-- a `DECODE` whose blocks are now to be performed -/
  | proceed (pending : List PendingBlock)
  /-- a duty of the host is broken -/
  | broken (r : Refusal)
deriving DecidableEq, Repr

/-- The check of a `VALIDATE` (spec/40_geometry_validator.md R74): it consumes nothing, pass or fail. -/
def checkValidate (o : Operands) : OpResult :=
  match validateGeometry o with
  | some e => .failure e
  | none => .success 0

/-- The check of a `DECODE` (spec/42_frame_decoder.md R120, R125, R131 step 2). -/
def checkDecode (o : Operands) (s : State) : CheckOutcome :=
  match decodeError o with
  | some e => .result (.failure e)
  | none =>
    match brokenDuty o s with
    | some r => .broken r
    | none => .proceed (allBlocks o)

/-- The check of a running operation. -/
def checkOperation (op : Operation) (s : State) : CheckOutcome :=
  match op.code with
  | .validate => .result (checkValidate op.ops)
  | .decode => checkDecode op.ops s

/-- The result of a `DECODE` whose blocks are all performed: `CONSUMED = R` (spec/42_frame_decoder.md R126). -/
def decodeSuccess (o : Operands) : OpResult := .success (BitVec.ofNat 64 (requiredSize o))

/-- `VALIDATE`, from its start to its result (spec/40_geometry_validator.md R74, R75). -/
def execValidate (s : State) : Host.Outcome State Fault Refusal :=
  match s.run with
  | some _ => .refused .commandWhileBusy
  | none =>
    match checkValidate (latch s) with
    | .failure e => .next (raise e (start .validate s))
    | .success c => .next (finish (.success c) (start .validate s))

end Sys2Proof.Machine
end

