-- ==== Sys2Proof/Machine/Frame.lean ====
section
/-! DEFINITION. The frame decoder: the meaning of `DECODE` as the whole operation, its blocks in the reference order
(spec/42_frame_decoder.md R120 to R130). The step-by-step view is in Machine/Fetch.lean (log 2). -/

namespace Sys2Proof.Machine

/-- The cursor moved to a block, `pc <- (row, blk)` (spec/42_frame_decoder.md R120). -/
def selectBlock (pos : Cursor) (s : State) : State :=
  match s.run with
  | some ⟨code, o, .blocks _ pending⟩ => { s with run := some ⟨code, o, .blocks pos pending⟩ }
  | _ => s

/-- Perform one block: move the cursor to it, read its 36 bytes, `UNPACK` them (spec/42_frame_decoder.md R120,
R123). -/
def performBlock (o : Operands) (pos : Cursor) (s : State) : Host.Outcome State Fault Refusal :=
  match fetchBlock o pos s.input.cells with
  | .error r => .refused r
  | .ok S => execUnpack S (selectBlock pos s)

/-- Perform the listed blocks one after the other. -/
def performBlocks (o : Operands) : List PendingBlock → State → Host.Outcome State Fault Refusal
  | [], s => .next s
  | b :: bs, s =>
    match performBlock o b.pos s with
    | .next s' => performBlocks o bs s'
    | .fault f => .fault f
    | .refused r => .refused r

/-- `DECODE`, from its start to its result (spec/42_frame_decoder.md R120): validate, look at `alloc_fail`, perform
every block, post `CONSUMED = R`. -/
def execDecode (s : State) : Host.Outcome State Fault Refusal :=
  match s.run with
  | some _ => .refused .commandWhileBusy
  | none =>
    match checkDecode (latch s) s with
    | .result (.failure e) => .next (raise e (start .decode s))
    | .result (.success c) => .next (finish (.success c) (start .decode s))
    | .broken r => .refused r
    | .proceed pending =>
      match performBlocks (latch s) pending
          (setStage ⟨.decode, latch s, .check⟩ (.blocks ⟨0, 0⟩ pending) (start .decode s)) with
      | .next s' => .next (finish (decodeSuccess (latch s)) s')
      | .fault f => .fault f
      | .refused r => .refused r

end Sys2Proof.Machine
end

