-- ==== Sys2Proof/Machine/Dispatch.lean ====
section
/-! DEFINITION. One arm per operation of spec/opcode_table.json. -/

namespace Sys2Proof.Machine

def exec (i : Instr) (s : State) : Host.Outcome State Fault Refusal :=
  match i with
  | .validate => Sys2Proof.Machine.execValidate s
  | .decode => Sys2Proof.Machine.execDecode s
  | .unpack block => Sys2Proof.Machine.execUnpack block s
  | .extG0 => Sys2Proof.Machine.execExtG0 s
  | .extG1 => Sys2Proof.Machine.execExtG1 s
  | .extG2 => Sys2Proof.Machine.execExtG2 s
  | .extG3 => Sys2Proof.Machine.execExtG3 s
  | .extG4 => Sys2Proof.Machine.execExtG4 s
  | .extG5 => Sys2Proof.Machine.execExtG5 s
  | .extG6 => Sys2Proof.Machine.execExtG6 s
  | .extG7 => Sys2Proof.Machine.execExtG7 s
  | .extB0 => Sys2Proof.Machine.execExtB0 s
  | .extB1 => Sys2Proof.Machine.execExtB1 s
  | .extB2 => Sys2Proof.Machine.execExtB2 s
  | .extB3 => Sys2Proof.Machine.execExtB3 s
  | .extB4 => Sys2Proof.Machine.execExtB4 s
  | .extB5 => Sys2Proof.Machine.execExtB5 s
  | .extB6 => Sys2Proof.Machine.execExtB6 s
  | .extB7 => Sys2Proof.Machine.execExtB7 s
  | .extR0 => Sys2Proof.Machine.execExtR0 s
  | .extR1 => Sys2Proof.Machine.execExtR1 s
  | .extR2 => Sys2Proof.Machine.execExtR2 s
  | .extR3 => Sys2Proof.Machine.execExtR3 s
  | .extR4 => Sys2Proof.Machine.execExtR4 s
  | .extR5 => Sys2Proof.Machine.execExtR5 s
  | .extR6 => Sys2Proof.Machine.execExtR6 s
  | .extR7 => Sys2Proof.Machine.execExtR7 s

end Sys2Proof.Machine
end

