-- ==== Sys2Proof/Machine/Fetch.lean ====
section
/-! DEFINITION. What the machine does next: the moves of the host, of reset and of the core's own sequencing, and the
fetch of the word of the operation that runs (spec/10_state.md R11, R19 to R21; spec/42_frame_decoder.md R128, R131;
spec/70_reset_and_hazards.md R160 to R166). -/

namespace Sys2Proof.Machine

/-- What a step does. -/
inductive NextMove where
  /-- the operation of word `w` runs in the state `s` -/
  | perform (w : TableWord) (s : State)
  /-- no operation of the table runs: the move leads to `s` -/
  | settle (s : State)
  /-- the move has no meaning in the spec -/
  | decline (r : Refusal)
deriving DecidableEq, Repr

/-- The pending block that number `n` picks. -/
def pickBlock (n : Nat) (b : PendingBlock) (bs : List PendingBlock) : PendingBlock :=
  (b :: bs).getD (n % (b :: bs).length) b

/-- The sample still to be written that number `m` picks; `none` when there is none. -/
def pickLane (m : Nat) (lanes : List SampleId) : Option SampleId := lanes[m % lanes.length]?

/-- The *block* step (spec/42_frame_decoder.md R131 step 3): the cursor goes to the block, and the word is the block's
36 bytes (`UNPACK`). -/
def fetchWork (o : Operands) (b : PendingBlock) (s : State) : NextMove :=
  match fetchBlock o b.pos s.input.cells with
  | .error r => .decline r
  | .ok S => .perform (.block S) (selectBlock b.pos s)

/-- The core's move (spec/42_frame_decoder.md R131): *check*; *block*, for the pending block that `n` picks; or *end*.
An idle core waits (spec/60_exceptions.md R154). -/
def coreMove (n : Nat) (s : State) : NextMove :=
  match s.run with
  | none => .settle s
  | some op =>
    match op.stage with
    | .check =>
      match checkOperation op s with
      | .result r => .settle (setStage op (.post r) s)
      | .proceed pending => .settle (setStage op (.blocks ⟨0, 0⟩ pending) s)
      | .broken r => .decline r
    | .post r => .settle (finish r s)
    | .blocks _ [] => .settle (finish (decodeSuccess op.ops) s)
    | .blocks _ (b :: bs) => fetchWork op.ops (pickBlock n b bs) s

/-- One sample of a pending block (`EXT`), the cursor at that block: a move finer than R131's *block* step, which
spec/42_frame_decoder.md R128 and spec/41_block_unpacker.md R109 allow (log 4). Only an event asks for it. Where no
sample is pending it is the core's move. -/
def laneMove (n m : Nat) (s : State) : NextMove :=
  match unpacking s with
  | some (_, _, b :: bs) =>
    match pickLane m (pickBlock n b bs).lanes with
    | some id => .perform (.sample id) (selectBlock (pickBlock n b bs).pos s)
    | none => coreMove n s
  | _ => coreMove n s

/-- The Start step of a command code (spec/10_state.md R19 step 1, spec/30_encoding.md R61, R62). -/
def startCommand (code : BitVec 2) (s : State) : NextMove :=
  match code.toNat with
  | 1 => .settle (start .validate s)
  | 2 => .settle (start .decode s)
  | _ => .decline (.reservedCommand code)

/-- `RegWrite(n, v)` (spec/10_state.md R11): no such register (U7), a datum of another width (`BUS_BINDING`), any
write while busy (U5, U10), a command, or a register set. -/
def hostWrite (n : Nat) (v : BitVec 64) (s : State) : NextMove :=
  match registerWidth n with
  | none => .decline (.noSuchRegister n)
  | some w =>
    if 2 ^ w ≤ v.toNat then .decline (.datumTooWide n)
    else if s.run.isSome then .decline (if n = 0 then .commandWhileBusy else .hostDuringOperation)
    else if n = 0 then startCommand (v.setWidth 2) s
    else .settle (setRegister s n v)

/-- `RegRead(n)` (spec/10_state.md R11): the value goes to the host and nothing else changes; while busy `STATUS` may
be read and nothing else (U10). -/
def hostRead (n : Nat) (s : State) : NextMove :=
  match registerValue s n with
  | none => .decline (.noSuchRegister n)
  | some v =>
    if s.run.isSome ∧ n ≠ 8 then .decline .hostDuringOperation
    else .settle { s with replies := .reg n v :: s.replies }

/-- The host makes `size` bytes of `IN` readable, their contents unknown (spec/70_reset_and_hazards.md R163 item 1,
R166). -/
def hostGiveIn (size : Nat) (s : State) : NextMove :=
  if s.run.isSome then .decline .hostDuringOperation else .settle { s with input := ⟨size, []⟩ }

/-- The host puts a byte into `IN`; while busy it may not touch `IN[0 .. LEN−1]`
(spec/70_reset_and_hazards.md R163, R166). -/
def hostStoreIn (a : Nat) (b : Byte) (s : State) : NextMove :=
  if s.run.isSome ∧ a < s.len.toNat then .decline .hostDuringOperation
  else if a < s.input.size then .settle { s with input := ⟨s.input.size, Memory.write s.input.cells a b⟩ }
  else .decline (.outsideInput a)

/-- The host takes the input buffer back (spec/70_reset_and_hazards.md R166, R167). -/
def hostFreeIn (s : State) : NextMove :=
  if s.run.isSome then .decline .hostDuringOperation else .settle { s with input := ⟨0, []⟩ }

/-- The collaborator hands over a plane of `slots` writable slots, its contents unknown
(spec/70_reset_and_hazards.md R163, R166). -/
def hostGivePlane (c : Chan) (slots : Nat) (s : State) : NextMove :=
  if s.run.isSome then .decline .hostDuringOperation else .settle (s.setPlane c ⟨slots, []⟩)

/-- The host writes a byte of a plane (spec/70_reset_and_hazards.md R166, R167). -/
def hostStorePlane (c : Chan) (a : Nat) (b : Byte) (s : State) : NextMove :=
  if s.run.isSome then .decline .hostDuringOperation
  else if a < 2 * (s.plane c).slots then
    .settle (s.setPlane c ⟨(s.plane c).slots, Memory.write (s.plane c).cells a b⟩)
  else .decline (.outsidePlane c a)

/-- The host reads a byte of a plane back (spec/70_reset_and_hazards.md R166, R171). -/
def hostLoadPlane (c : Chan) (a : Nat) (s : State) : NextMove :=
  if s.run.isSome then .decline .hostDuringOperation
  else if a < 2 * (s.plane c).slots then
    .settle { s with replies := .plane c a (s.planeByte c a) :: s.replies }
  else .decline (.outsidePlane c a)

/-- The move of one event (log 1). -/
def eventMove (e : Event) (s : State) : NextMove :=
  match e with
  | .regWrite n v => hostWrite n v s
  | .regRead n => hostRead n s
  | .command code => .perform (.cmd code) s
  | .core n => coreMove n s
  | .lane n m => laneMove n m s
  | .reset => .settle (resetCore s)
  | .giveIn size => hostGiveIn size s
  | .storeIn a b => hostStoreIn a b s
  | .freeIn => hostFreeIn s
  | .givePlane c slots => hostGivePlane c slots s
  | .storePlane c a b => hostStorePlane c a b s
  | .loadPlane c a => hostLoadPlane c a s

/-- What happens next: the first event; without one, a busy core moves, which pending block it takes being free
(log 3), and an idle core waits (spec/60_exceptions.md R154). -/
def nextMove (s : State) : NextMove :=
  match s.events with
  | e :: rest => eventMove e { s with events := rest }
  | [] =>
    if s.run.isSome then coreMove (Config.blockChoice s.tick) { s with tick := s.tick + 1 }
    else .settle s

/-- The refusal of a word that names no operation. -/
def decodeRefusal : DecodeError → Refusal
  | .reservedCommand code => .reservedCommand code
  | .noSuchSample id => .noSuchSample id

/-- The bytes of `IN` from offset 0 on that hold nothing filled with zeros, so that the block of row 0 can be read
(log 15). -/
def fillInput (m : Memory) : Nat → Memory
  | 0 => m
  | n + 1 =>
    match Memory.read (fillInput m n) n with
    | some _ => fillInput m n
    | none => Memory.write (fillInput m n) n 0

/-- An input buffer of at least 36 readable bytes that holds the listed ones (log 15). -/
def widenInput (p : InputBuf) (cells : Memory) : InputBuf := ⟨max p.size 36, cells⟩

/-- A plane with at least 8 slots (log 15). -/
def widenPlane (p : PlaneBuf) : PlaneBuf := ⟨max p.slots 8, p.cells⟩

/-- A running `DECODE` of one block (`width = 8`, `height = 1`, spec/30_encoding.md R60 `UNPACK1`) at that block, of
which the samples `lanes` are still to be written (log 15). -/
def insideBlock (lanes : List SampleId) (s : State) : State :=
  { s with
    status := busyStatus, consumed := 0,
    run := some ⟨.decode, ⟨8, 1, 36, 8, 8, 8, 0⟩, .blocks ⟨0, 0⟩ [⟨⟨0, 0⟩, lanes⟩]⟩,
    pg := widenPlane s.pg, pb := widenPlane s.pb, pr := widenPlane s.pr }

/-- The state with a word where the next step fetches it (log 15): a command code is the host's next line, on an idle
core; a block is the bytes of the one pending block of a running `DECODE`; a sample id is the one sample still to be
written of it. -/
def placeWord (w : TableWord) (s : State) : State :=
  match w with
  | .cmd code =>
    { s with run := none, status := if s.run.isSome then 0 else s.status, events := .command code :: s.events }
  | .block S =>
    insideBlock allLanes
      { s with
        input := widenInput s.input (writeBytes s.input.cells 0 (Block.toBytes S)), events := .core 0 :: s.events }
  | .sample id =>
    insideBlock [id]
      { s with input := widenInput s.input (fillInput s.input.cells 36), events := .lane 0 0 :: s.events }

end Sys2Proof.Machine
end

