-- ==== Sys2Proof/Machine/Step.lean ====
section
/-! DEFINITION. One step of the machine, and the host's door that places a word for the next step. -/

namespace Sys2Proof.Machine

/-- A move carried out: where it is an operation of the table, its word is decoded and the instruction runs. -/
def carryOut (m : NextMove) : Host.Outcome State Fault Refusal :=
  match m with
  | .settle s => .next s
  | .decline r => .refused r
  | .perform w s =>
    match decode w with
    | .ok i => exec i s
    | .error e => .refused (decodeRefusal e)

/-- One step: what comes next is carried out. -/
def step (s : State) : Host.Outcome State Fault Refusal := carryOut (nextMove s)

/-- `s` with the instruction of `nbits` bits of value `w` stored where `step` fetches next (log 15). -/
def State.withFetchWord (s : State) (nbits w : Nat) : State := placeWord (tableWord nbits w) s

end Sys2Proof.Machine
end

