-- ==== Sys2Proof/Safety.lean ====
section
/-! DEFINITION. The invariant of the machine and the terms the claims use: states that can be reached (spec/10_state.md
R17, R18, R25; spec/42_frame_decoder.md R131), runs of the core by itself, and the inverse bit map that a claim about
the table is stated with (spec/30_encoding.md R58). -/

namespace Sys2Proof.Machine

/-- The values `STATUS` can hold while no operation runs (spec/10_state.md R17, spec/95_test_vectors.md part 5). -/
def idleStatuses : List (BitVec 5) := [0x00, 0x06, 0x0A, 0x12, 0x1A]

/-- `STATUS` and `CONSUMED` agree with the hidden state (spec/10_state.md R17, R18): busy, `STATUS` is `BUSY` alone and
`CONSUMED` is 0; idle, `STATUS` is one of its values and `CONSUMED` is 0 unless the last operation succeeded. -/
def State.StatusOk (s : State) : Prop :=
  match s.run with
  | some _ => s.status = busyStatus ∧ s.consumed = 0
  | none => s.status ∈ idleStatuses ∧ (statusOk s.status = 0 → s.consumed = 0)

/-- A pending block is a block of the frame with samples left, each named once (spec/42_frame_decoder.md R131). -/
def PendingBlock.Ok (o : Operands) (b : PendingBlock) : Prop :=
  b.pos.row < o.height.toNat ∧ b.pos.blk < blocksPerLine o.width ∧
    b.lanes ≠ [] ∧ b.lanes.Nodup ∧ ∀ id ∈ b.lanes, id.toNat < 24

/-- The hidden state of a running operation is one the steps of spec/42_frame_decoder.md R131 can have: the operands
are those the registers still hold, blocks are performed for a `DECODE` that passed its check only, and a result that
is to be posted is an error or a passed validation. -/
def Operation.Ok (op : Operation) (s : State) : Prop :=
  op.ops = latch s ∧
    match op.stage with
    | .check => True
    | .post r => checkOperation op s = .result r
    | .blocks pc pending =>
      op.code = .decode ∧ decodeError op.ops = none ∧ brokenDuty op.ops s = none ∧
        pc.row ≤ op.ops.height.toNat ∧ pc.blk < blocksPerLine op.ops.width ∧
        (∀ b ∈ pending, PendingBlock.Ok op.ops b) ∧ pending.Pairwise (fun a b => a.pos ≠ b.pos)

/-- Every memory space is in its canonical form. -/
def State.MemoryOk (s : State) : Prop :=
  InputBuf.wf s.input ∧ PlaneBuf.wf s.pg ∧ PlaneBuf.wf s.pb ∧ PlaneBuf.wf s.pr

/-- The invariant of the machine. -/
def State.Inv (s : State) : Prop :=
  s.MemoryOk ∧ s.StatusOk ∧ ∀ op, s.run = some op → op.Ok s

/-- No operation runs and none is waiting to be ended: the host may start one (spec/10_state.md R11). -/
def State.Idle (s : State) : Prop := s.run = none

/-- The host's duties of spec/42_frame_decoder.md R129 (a), (b), (c) for a `DECODE` with these operands: `IN` holds at
least `len` readable bytes (U4), and every plane has its stride (U1; a stride below the width is admitted for a frame of
one row, log 7) and its slots (U2). -/
def State.DutiesMet (s : State) (o : Operands) : Prop :=
  o.len.toNat ≤ s.input.size ∧
  ∀ c : Chan, (o.width.toNat ≤ o.stride c ∨ o.height.toNat ≤ 1) ∧ neededSlots o c ≤ (s.plane c).slots

/-- What the bytes a `DECODE` reads hold is known: the host has put each of them there (log 5). -/
def State.InputKnown (s : State) (o : Operands) : Prop := ∀ a, a < requiredSize o → ∃ b, s.inByte a = some b

/-- A move of the core while nothing comes from outside: R131's, or one of a single sample (log 4). -/
inductive CoreChoice where
  /-- the move of spec/42_frame_decoder.md R131, the `n`-th pending block taken whole (`UNPACK`) -/
  | block (n : Nat)
  /-- the `m`-th sample still to be written of the `n`-th pending block (`EXT`) -/
  | lane (n m : Nat)
deriving DecidableEq, Repr

/-- The move a choice names. -/
def CoreChoice.move (c : CoreChoice) (s : State) : NextMove :=
  match c with
  | .block n => coreMove n s
  | .lane n m => laneMove n m s

/-- One move of the core, nothing coming from outside. -/
def coreStep (c : CoreChoice) (s : State) : Host.Outcome State Fault Refusal := carryOut (c.move s)

/-- The core moves, choice after choice (spec/42_frame_decoder.md R131; single samples: log 4). -/
def coreRun : List CoreChoice → State → Host.Outcome State Fault Refusal
  | [], s => .next s
  | c :: cs, s =>
    match coreStep c s with
    | .next s' => coreRun cs s'
    | .fault f => .fault f
    | .refused r => .refused r

/-- Operations of the table performed one after the other. -/
def execAll : List Instr → State → Host.Outcome State Fault Refusal
  | [], s => .next s
  | i :: is, s =>
    match exec i s with
    | .next s' => execAll is s'
    | .fault f => .fault f
    | .refused r => .refused r

/-- The number of blocks of a frame (spec/42_frame_decoder.md R131). -/
def blockCount (o : Operands) : Nat := o.height.toNat * blocksPerLine o.width

/-- The sample of a channel and pixel in a block. -/
def blockSample (S : Block) (c : Chan) (p : Fin 8) : Sample :=
  match entryOf (sampleId c p) with
  | some e => entrySample e S
  | none => 0

/-- The block of 36 bytes at an offset of `IN`, where they are all there. -/
def inputBlock (s : State) (off : Nat) : Block :=
  Block.ofBytes ((List.range 36).map fun k => (s.inByte (off + k)).getD 0)

/-- A slot of the frame's footprint: `row × stride_X + i` with `row < height`, `i < width` (spec/20_memory.md R40). -/
def inFootprint (o : Operands) (c : Chan) (k : Nat) : Prop :=
  ∃ row i, row < o.height.toNat ∧ i < o.width.toNat ∧ k = row * o.stride c + i

/-- Where a nibble of a block byte goes: bits `4 * pos + 3` down to `4 * pos` of a sample (spec/30_encoding.md R58). -/
structure NibbleDest where
  chan : Chan
  pixel : Fin 8
  pos : Fin 3
deriving DecidableEq, Repr

/-- The inverse map (spec/30_encoding.md R58): for byte `k`, where its low and its high nibble go. -/
def inverseMap : List (NibbleDest × NibbleDest) :=
  [(⟨.b, 0, 0⟩, ⟨.b, 0, 1⟩), (⟨.g, 0, 1⟩, ⟨.g, 0, 2⟩), (⟨.r, 0, 2⟩, ⟨.g, 0, 0⟩),
   (⟨.r, 0, 0⟩, ⟨.r, 0, 1⟩), (⟨.g, 1, 2⟩, ⟨.b, 1, 0⟩), (⟨.g, 1, 0⟩, ⟨.g, 1, 1⟩),
   (⟨.r, 1, 1⟩, ⟨.r, 1, 2⟩), (⟨.b, 0, 2⟩, ⟨.r, 1, 0⟩), (⟨.g, 2, 1⟩, ⟨.g, 2, 2⟩),
   (⟨.r, 2, 2⟩, ⟨.g, 2, 0⟩), (⟨.r, 2, 0⟩, ⟨.r, 2, 1⟩), (⟨.b, 1, 1⟩, ⟨.b, 1, 2⟩),
   (⟨.g, 3, 0⟩, ⟨.g, 3, 1⟩), (⟨.r, 3, 1⟩, ⟨.r, 3, 2⟩), (⟨.b, 2, 2⟩, ⟨.r, 3, 0⟩),
   (⟨.b, 2, 0⟩, ⟨.b, 2, 1⟩), (⟨.r, 4, 2⟩, ⟨.g, 4, 0⟩), (⟨.r, 4, 0⟩, ⟨.r, 4, 1⟩),
   (⟨.b, 3, 1⟩, ⟨.b, 3, 2⟩), (⟨.g, 3, 2⟩, ⟨.b, 3, 0⟩), (⟨.r, 5, 1⟩, ⟨.r, 5, 2⟩),
   (⟨.b, 4, 2⟩, ⟨.r, 5, 0⟩), (⟨.b, 4, 0⟩, ⟨.b, 4, 1⟩), (⟨.g, 4, 1⟩, ⟨.g, 4, 2⟩),
   (⟨.r, 6, 0⟩, ⟨.r, 6, 1⟩), (⟨.b, 5, 1⟩, ⟨.b, 5, 2⟩), (⟨.g, 5, 2⟩, ⟨.b, 5, 0⟩),
   (⟨.g, 5, 0⟩, ⟨.g, 5, 1⟩), (⟨.b, 6, 2⟩, ⟨.r, 7, 0⟩), (⟨.b, 6, 0⟩, ⟨.b, 6, 1⟩),
   (⟨.g, 6, 1⟩, ⟨.g, 6, 2⟩), (⟨.r, 6, 2⟩, ⟨.g, 6, 0⟩), (⟨.b, 7, 1⟩, ⟨.b, 7, 2⟩),
   (⟨.g, 7, 2⟩, ⟨.b, 7, 0⟩), (⟨.g, 7, 0⟩, ⟨.g, 7, 1⟩), (⟨.r, 7, 1⟩, ⟨.r, 7, 2⟩)]

/-- A nibble of a sample. -/
def nibbleOf (v : Chan → Fin 8 → Sample) (d : NibbleDest) : Nibble :=
  (v d.chan d.pixel).extractLsb' (4 * d.pos.val) 4

/-- The block byte whose nibbles go where `d` says. -/
def packByte (v : Chan → Fin 8 → Sample) (d : NibbleDest × NibbleDest) : Byte :=
  nibbleOf v d.2 ++ nibbleOf v d.1

/-- The block with the given samples, by the inverse map (spec/30_encoding.md R58, spec/41_block_unpacker.md R114).
The hardware has no such operation (spec/00_scope.md R4); a claim about the table is stated with it. -/
def packBlock (v : Chan → Fin 8 → Sample) : Block := Block.ofBytes (inverseMap.map (packByte v))

end Sys2Proof.Machine
end

