-- ==== Sys2Proof/WellFormed.lean ====
section
/-! DEFINITION. Which terms stand for something the hardware has (spec/30_encoding.md R53, R57, R61 to R63). -/

namespace Sys2Proof

/-- A piece of Form A's low part or Form B's high part is a whole byte, the rest are nibbles: only two combinations
of selectors and shifts occur (spec/30_encoding.md R53 to R56). -/
def Entry.isFormA (e : Entry) : Bool :=
  e.lo.sel == .full && e.lo.shift == 0 && e.hi.sel == .low && e.hi.shift == 8

/-- Form B (spec/30_encoding.md R55). -/
def Entry.isFormB (e : Entry) : Bool :=
  e.lo.sel == .high && e.lo.shift == 0 && e.hi.sel == .full && e.hi.shift == 4

/-- "Only two combinations occur" (spec/30_encoding.md R53). -/
def Entry.wf (e : Entry) : Bool := e.isFormA || e.isFormB

/-- A word that names an operation: command codes 0 and 3 are reserved (spec/30_encoding.md R62), sample ids 24 to 31
name nothing (R63), every block is valid (R51). -/
def TableWord.wf : TableWord → Bool
  | .cmd code => code == 1 || code == 2
  | .block _ => true
  | .sample id => decide (id.toNat < 24)

/-- Every term of `Instr` is an operation the core has: the operands stand in registers, and every block value is
valid (spec/30_encoding.md R51), so no operand can be out of range. -/
def Instr.wf : Instr → Bool
  | .validate => true
  | .decode => true
  | .unpack _ => true
  | .extG0 => true
  | .extG1 => true
  | .extG2 => true
  | .extG3 => true
  | .extG4 => true
  | .extG5 => true
  | .extG6 => true
  | .extG7 => true
  | .extB0 => true
  | .extB1 => true
  | .extB2 => true
  | .extB3 => true
  | .extB4 => true
  | .extB5 => true
  | .extB6 => true
  | .extB7 => true
  | .extR0 => true
  | .extR1 => true
  | .extR2 => true
  | .extR3 => true
  | .extR4 => true
  | .extR5 => true
  | .extR6 => true
  | .extR7 => true

end Sys2Proof
end

