-- ==== Sys2Proof/Certificates/Slice0/Obligations.lean ====
section
/-! DEFINITION. The statements for the provers, and the terms only they use. A statement that rests on a choice of the
model says so and names the log entry. -/

namespace Sys2Proof.Machine

/-! ### Terms -/

/-- Registers 1 to 7 are unchanged. -/
def SameOperands (s t : State) : Prop :=
  t.width = s.width ∧ t.height = s.height ∧ t.len = s.len ∧ t.strideG = s.strideG ∧ t.strideB = s.strideB ∧
    t.strideR = s.strideR ∧ t.allocFail = s.allocFail

/-- The model's own fields are unchanged. -/
def SameOutside (s t : State) : Prop := t.events = s.events ∧ t.replies = s.replies ∧ t.tick = s.tick

/-- Every interface register and every field of the model's own is unchanged. -/
def SameInterface (s t : State) : Prop :=
  SameOperands s t ∧ t.status = s.status ∧ t.consumed = s.consumed ∧ SameOutside s t

/-- The four memory spaces are unchanged, byte for byte and in their extent. -/
def SameMemory (s t : State) : Prop :=
  (∀ a, t.inByte a = s.inByte a) ∧ (∀ c a, t.planeByte c a = s.planeByte c a) ∧
    t.input.size = s.input.size ∧ ∀ c, (t.plane c).slots = (s.plane c).slots

/-- Slot `k` of a plane holds the sample `v`: `v[7:0]` at byte `2k`, `v[11:8]` below four zero bits at byte `2k+1`
(spec/20_memory.md R34). -/
def SlotHolds (t : State) (c : Chan) (k : Nat) (v : Sample) : Prop :=
  t.planeByte c (2 * k) = some (v.extractLsb' 0 8) ∧
    t.planeByte c (2 * k + 1) = some ((v.extractLsb' 8 4).setWidth 8)

/-- `t` is `s` with the sample `v` in slot `k` of plane `c`, and nothing else of the registers and of the memory
changed. -/
def WritesOneSlot (s t : State) (c : Chan) (k : Nat) (v : Sample) : Prop :=
  SameInterface s t ∧ t.input = s.input ∧ (∀ c', (t.plane c').slots = (s.plane c').slots) ∧ SlotHolds t c k v ∧
    ∀ c' a, ¬(c' = c ∧ (a = 2 * k ∨ a = 2 * k + 1)) → t.planeByte c' a = s.planeByte c' a

/-- `x | ((y & 0x0F) << 8)` as a 12-bit value (spec/30_encoding.md R54). -/
def fullThenLow (x y : Byte) : Sample := x.setWidth 12 ||| ((y &&& 0x0F).setWidth 12 <<< 8)

/-- `(x >> 4) | (y << 4)` as a 12-bit value (spec/30_encoding.md R55). -/
def highThenFull (x y : Byte) : Sample := (x >>> 4).setWidth 12 ||| (y.setWidth 12 <<< 4)

/-- What the rule of an `EXT` operation says: its sample id is `8 × plane + pixel`; inside a `DECODE`, when the block
bytes `S[k1]` and `S[k2]` are there and the plane has the slot, it completes, writes `f S[k1] S[k2]` to its slot and
nothing else, and is no longer pending. That the samples of a pending block are pending one by one (`laneDone`) is the
model's (log 4). -/
def ExtractsTo (i : Instr) (c : Chan) (p : Fin 8) (k1 k2 : Nat) (f : Byte → Byte → Sample) : Prop :=
  decode (.sample (BitVec.ofNat 5 (8 * planeIndex c + p.val))) = .ok i ∧
  ∀ (s : State) (o : Operands) (pc : Cursor) (pending : List PendingBlock) (x y : Byte),
    s.run = some ⟨.decode, o, .blocks pc pending⟩ →
    s.inByte (inOff o pc + k1) = some x → s.inByte (inOff o pc + k2) = some y →
    slotOf o c pc p < (s.plane c).slots →
    ∃ t, exec i s = .next t ∧ WritesOneSlot s t c (slotOf o c pc p) (f x y) ∧
      t.run = some ⟨.decode, o, .blocks pc (laneDone pc (sampleId c p) pending)⟩

/-- The last column of the table of spec/30_encoding.md R57, by sample id: the first flat bit of the low part, its
number of bits, the first flat bit of the high part. -/
def flatBitTable : List (Nat × Nat × Nat) :=
  [(20, 4, 8), (40, 8, 32), (76, 4, 64), (96, 8, 152), (132, 4, 184), (216, 8, 208), (252, 4, 240), (272, 8, 264),
   (0, 8, 56), (36, 4, 88), (120, 8, 112), (156, 4, 144), (176, 8, 168), (212, 4, 200), (232, 8, 224), (268, 4, 256),
   (24, 8, 16), (60, 4, 48), (80, 8, 72), (116, 4, 104), (136, 8, 128), (172, 4, 160), (192, 8, 248), (228, 4, 280)]

/-- The flat block bit that becomes bit `j` of the sample with id `8 × plane + p` (spec/30_encoding.md R57). -/
def flatBit (c : Chan) (p : Fin 8) (j : Nat) : Nat :=
  match flatBitTable[8 * planeIndex c + p.val]? with
  | some (lo, n, hi) => if j < n then lo + j else hi + (j - n)
  | none => 0

/-- The required size in the spec's own words, `height × (width/8) × 36` (spec/40_geometry_validator.md R70). -/
def frameBytes (s : State) : Nat := s.height.toNat * (s.width.toNat / 8) * 36

/-- The geometry is refused: `width mod 8 ≠ 0`, `width = 0` or `height = 0` (spec/40_geometry_validator.md R70,
R72). -/
def BadGeometry (s : State) : Prop := s.width.toNat % 8 ≠ 0 ∨ s.width = 0 ∨ s.height = 0

/-- `t` holds the frame of `s`, decoded: every slot of the footprint holds the sample of its block, and every other
byte of every plane is as in `s` (spec/20_memory.md R40, spec/42_frame_decoder.md R122 to R124). -/
def HoldsDecodedFrame (s t : State) : Prop :=
  (∀ row blk c p, row < s.height.toNat → blk < s.width.toNat / 8 →
    SlotHolds t c (row * (latch s).stride c + blk * 8 + p.val)
      (blockSample (inputBlock s (row * (s.width.toNat / 8) * 36 + blk * 36)) c p)) ∧
  (∀ c a, ¬ inFootprint (latch s) c (a / 2) → t.planeByte c a = s.planeByte c a) ∧
  (∀ c, (t.plane c).slots = (s.plane c).slots) ∧ t.input = s.input

/-- All 24 extractions. -/
def extInstrs : List Instr := allLanes.filterMap fun id => (decode (.sample id)).toOption

/-- `STATUS` says that no operation runs and that no result is posted, `BUSY = 0` and `DONE = 0`
(spec/10_state.md R17). -/
def Unposted (st : BitVec 5) : Prop := statusBusy st = 0 ∧ statusDone st = 0

/-- The pending block that number `n` names. -/
def pendingAt (n : Nat) (b : PendingBlock) (bs : List PendingBlock) : PendingBlock :=
  (b :: bs).getD (n % (b :: bs).length) b

end Sys2Proof.Machine

open Sys2Proof Sys2Proof.Machine

/-! ### Decoding and encoding -/

/-- The encoder's word of every operation decodes to it, a word that decodes is that operation's word, and the words
that are not well formed (command codes 0 and 3, sample ids 24 to 31) are rejected. -/
def Obligations.DecodeInvertsEncode : Prop :=
  (∀ i : Instr, decode (encode i) = .ok i) ∧
  (∀ (w : TableWord) (i : Instr), decode w = .ok i → encode i = w) ∧
  (∀ w : TableWord, w.wf = true ↔ ∃ i, decode w = .ok i)

/-- The command codes of R61: 1 is `VALIDATE`, 2 is `DECODE`, 0 and 3 select no operation. -/
def Obligations.CommandCodesSelectOperations : Prop :=
  decode (.cmd 1) = .ok .validate ∧ decode (.cmd 2) = .ok .decode ∧
  decode (.cmd 0) = .error (.reservedCommand 0) ∧ decode (.cmd 3) = .error (.reservedCommand 3)

/-- A few words of the table, written out: `decode` on sample ids, and `decodeTableWord` on words of spec/opcode_table.json.
How the table's three formats share one numbering is the model's choice, and the last four clauses rest on it
(log 14). -/
def Obligations.TableWordsDecode : Prop :=
  decode (.sample 0b00000) = .ok .extG0 ∧ decode (.sample 0b00111) = .ok .extG7 ∧
  decode (.sample 0b01000) = .ok .extB0 ∧ decode (.sample 0b10000) = .ok .extR0 ∧
  decode (.sample 0b10111) = .ok .extR7 ∧ decode (.sample 0b11000) = .error (.noSuchSample 24) ∧
  decodeTableWord 8 1 = some .validate ∧ decodeTableWord 8 2 = some .decode ∧
  decodeTableWord 8 0x0B = some .extB3 ∧ decodeTableWord 288 0xFF = some (.unpack 0xFF)

/-- Byte `k` of a block is flat bits `8k .. 8k+7`, the bytes in stream order give the block back, and a block stored
in `IN` at the offset of a cursor is the block fetched there. -/
def Obligations.StoredBlockIsFetched : Prop :=
  (∀ (S : Block) (k i : Nat), k < 36 → i < 8 → (S.byteAt k).getLsbD i = S.getLsbD (8 * k + i)) ∧
  (∀ S : Block, Block.ofBytes (Block.toBytes S) = S) ∧
  ∀ (S : Block) (o : Operands) (pc : Cursor) (m : Memory),
    fetchBlock o pc (writeBytes m (inOff o pc) (Block.toBytes S)) = .ok S

/-- The word of every operation, placed for the next step, is what the next step fetches, and the step runs exactly
that operation (log 15 says how a word is placed). -/
def Obligations.PlacedInstructionRuns : Prop :=
  ∀ (i : Instr) (s : State), ∃ s', nextMove (placeWord (encode i) s) = .perform (encode i) s' ∧
    step (placeWord (encode i) s) = exec i s' ∧ s'.events = s.events

/-- A step runs the decoded instruction: for the host's command line, on the state without that event; for a whole
block of a `DECODE`, the core's *block* step (R131), and for one sample of it, with the cursor at the chosen block. That
the events of the state say what moves next, and that one sample can be a step, are the model's choices (log 1, log 2,
log 4). -/
def Obligations.StepRunsDecodedInstruction : Prop :=
  (∀ (s s' : State) (w : TableWord) (i : Instr), nextMove s = .perform w s' → decode w = .ok i → step s = exec i s') ∧
  (∀ (s : State) (rest : List Event) (code : BitVec 2) (i : Instr),
    s.events = .command code :: rest → decode (.cmd code) = .ok i → step s = exec i { s with events := rest }) ∧
  (∀ (s : State) (rest : List Event) (o : Operands) (pc : Cursor) (b : PendingBlock) (bs : List PendingBlock) (n : Nat),
    s.events = .core n :: rest → s.run = some ⟨.decode, o, .blocks pc (b :: bs)⟩ →
    (∀ k, k < 36 → ∃ x, s.inByte (inOff o (pendingAt n b bs).pos + k) = some x) →
    step s = exec (.unpack (inputBlock s (inOff o (pendingAt n b bs).pos)))
      { s with events := rest, run := some ⟨.decode, o, .blocks (pendingAt n b bs).pos (b :: bs)⟩ }) ∧
  (∀ (s : State) (rest : List Event) (o : Operands) (pc : Cursor) (b : PendingBlock) (bs : List PendingBlock)
      (n m : Nat) (id : SampleId) (i : Instr),
    s.events = .lane n m :: rest → s.run = some ⟨.decode, o, .blocks pc (b :: bs)⟩ →
    (pendingAt n b bs).lanes[m % (pendingAt n b bs).lanes.length]? = some id → decode (.sample id) = .ok i →
    step s = exec i
      { s with events := rest, run := some ⟨.decode, o, .blocks (pendingAt n b bs).pos (b :: bs)⟩ })

/-! ### The block unpacker -/

/-- The eight Green extractions: id, completion, value, slot and frame. The last clause of each, that the sample alone is
taken off the pending ones, is the model's reading (log 4). -/
def Obligations.GreenExtractions : Prop :=
  ExtractsTo .extG0 .g 0 2 1 highThenFull ∧
  ExtractsTo .extG1 .g 1 5 4 fullThenLow ∧
  ExtractsTo .extG2 .g 2 9 8 highThenFull ∧
  ExtractsTo .extG3 .g 3 12 19 fullThenLow ∧
  ExtractsTo .extG4 .g 4 16 23 highThenFull ∧
  ExtractsTo .extG5 .g 5 27 26 fullThenLow ∧
  ExtractsTo .extG6 .g 6 31 30 highThenFull ∧
  ExtractsTo .extG7 .g 7 34 33 fullThenLow

/-- The eight Blue extractions: id, completion, value, slot and frame. The last clause of each, that the sample alone is
taken off the pending ones, is the model's reading (log 4). -/
def Obligations.BlueExtractions : Prop :=
  ExtractsTo .extB0 .b 0 0 7 fullThenLow ∧
  ExtractsTo .extB1 .b 1 4 11 highThenFull ∧
  ExtractsTo .extB2 .b 2 15 14 fullThenLow ∧
  ExtractsTo .extB3 .b 3 19 18 highThenFull ∧
  ExtractsTo .extB4 .b 4 22 21 fullThenLow ∧
  ExtractsTo .extB5 .b 5 26 25 highThenFull ∧
  ExtractsTo .extB6 .b 6 29 28 fullThenLow ∧
  ExtractsTo .extB7 .b 7 33 32 highThenFull

/-- The eight Red extractions: id, completion, value, slot and frame. The last clause of each, that the sample alone is
taken off the pending ones, is the model's reading (log 4). -/
def Obligations.RedExtractions : Prop :=
  ExtractsTo .extR0 .r 0 3 2 fullThenLow ∧
  ExtractsTo .extR1 .r 1 7 6 highThenFull ∧
  ExtractsTo .extR2 .r 2 10 9 fullThenLow ∧
  ExtractsTo .extR3 .r 3 14 13 highThenFull ∧
  ExtractsTo .extR4 .r 4 17 16 fullThenLow ∧
  ExtractsTo .extR5 .r 5 21 20 highThenFull ∧
  ExtractsTo .extR6 .r 6 24 31 fullThenLow ∧
  ExtractsTo .extR7 .r 7 28 35 highThenFull

/-- Where no `DECODE` is performing its blocks (an idle core, a running `VALIDATE`, a `DECODE` before its check or with its
result still to be posted) there is no block, and the extractions and `UNPACK` are refused by name (the model's choice,
log 17). -/
def Obligations.BlockWorkNeedsDecode : Prop :=
  ∀ (s : State) (S : Block), (∀ o pc pending, s.run ≠ some ⟨.decode, o, .blocks pc pending⟩) →
    exec (.unpack S) s = .refused .noBlockSelected ∧
    ∀ (id : SampleId) (i : Instr), decode (.sample id) = .ok i → exec i s = .refused .noBlockSelected

/-- `UNPACK` completes whenever the planes have its slots; it writes the 24 samples of the block to slots
`slot_X(row, blk, 0..7)` and no other byte, changes no register, takes the block off the pending ones and moves the
cursor on. -/
def Obligations.UnpackWritesItsBlock : Prop :=
  ∀ (S : Block) (s : State) (o : Operands) (pc : Cursor) (pending : List PendingBlock),
    s.run = some ⟨.decode, o, .blocks pc pending⟩ → (∀ c p, slotOf o c pc p < (s.plane c).slots) →
    ∃ t, exec (.unpack S) s = .next t ∧
      t.run = some ⟨.decode, o, .blocks (pc.next o) (blockDone pc pending)⟩ ∧
      SameInterface s t ∧ t.input = s.input ∧ (∀ c, (t.plane c).slots = (s.plane c).slots) ∧
      (∀ c p, SlotHolds t c (slotOf o c pc p) (blockSample S c p)) ∧
      ∀ c a, (∀ p : Fin 8, a ≠ 2 * slotOf o c pc p ∧ a ≠ 2 * slotOf o c pc p + 1) → t.planeByte c a = s.planeByte c a

/-- The 24 extractions of a block, performed in any order, leave the planes as `UNPACK` of the block does. -/
def Obligations.LanesInAnyOrderMakeUnpack : Prop :=
  ∀ (s : State) (o : Operands) (pc : Cursor) (pending : List PendingBlock) (order : List Instr),
    s.MemoryOk → s.run = some ⟨.decode, o, .blocks pc pending⟩ →
    (∀ k, k < 36 → ∃ x, s.inByte (inOff o pc + k) = some x) → (∀ c p, slotOf o c pc p < (s.plane c).slots) →
    order.Perm extInstrs →
    ∃ t u, execAll order s = .next t ∧ exec (.unpack (inputBlock s (inOff o pc))) s = .next u ∧
      ∀ c, t.plane c = u.plane c

/-- Bit `j` of every sample is the block bit the table of R57 names. -/
def Obligations.SampleBitsFollowForwardMap : Prop :=
  ∀ (S : Block) (c : Chan) (p : Fin 8) (j : Nat), j < 12 →
    (blockSample S c p).getLsbD j = S.getLsbD (flatBit c p j)

/-- Every nibble of every block byte goes where the table of R58 says. -/
def Obligations.BlockNibblesFollowInverseMap : Prop :=
  ∀ (S : Block) (k : Nat) (d : NibbleDest × NibbleDest), inverseMap[k]? = some d →
    lowNibble (S.byteAt k) = nibbleOf (blockSample S) d.1 ∧ highNibble (S.byteAt k) = nibbleOf (blockSample S) d.2

/-- Packing the samples of a block gives the block back, and a block packed from any 24 samples has them: the table is
a bijection. -/
def Obligations.PackAndUnpackAreInverse : Prop :=
  (∀ S : Block, packBlock (blockSample S) = S) ∧
  ∀ (v : Chan → Fin 8 → Sample) (c : Chan) (p : Fin 8), blockSample (packBlock v) c p = v c p

/-- A change of one block bit changes exactly one bit of one sample. -/
def Obligations.OneBlockBitOneSampleBit : Prop :=
  ∀ (S : Block) (f : Nat), f < 288 → ∃ c p j, j < 12 ∧ flatBit c p j = f ∧
    (blockSample (S ^^^ (1#288 <<< f)) c p) = blockSample S c p ^^^ (1#12 <<< j) ∧
    ∀ c' p', (c' ≠ c ∨ p' ≠ p) → blockSample (S ^^^ (1#288 <<< f)) c' p' = blockSample S c' p'

/-- The helpers of R80, on the block bytes, and how a byte is made of its nibbles. -/
def Obligations.HelpersReadBlockBytes : Prop :=
  ∀ (S : Block) (w : Fin 9) (b : Fin 4),
    full S w b = S.byteAt (w.val * 4 + b.val) ∧ (low S w b).toNat = (full S w b).toNat % 16 ∧
    (high S w b).toNat = (full S w b).toNat / 16 ∧
    full S w b = (low S w b).setWidth 8 ||| ((high S w b).setWidth 8 <<< 4)

/-! ### The geometry validator -/

/-- `VALIDATE` completes on every idle core: its result is posted, `CONSUMED` is 0, nothing else changes. -/
def Obligations.ValidatePostsVerdict : Prop :=
  ∀ s : State, s.Idle →
    (BadGeometry s → exec .validate s = .next { s with status := statusWord 1 0 1 0, consumed := 0 }) ∧
    (¬BadGeometry s → s.len.toNat < frameBytes s →
      exec .validate s = .next { s with status := statusWord 2 0 1 0, consumed := 0 }) ∧
    (¬BadGeometry s → frameBytes s ≤ s.len.toNat →
      exec .validate s = .next { s with status := statusWord 0 1 1 0, consumed := 0 })

/-- For all operands the required size is `height × (width/8) × 36`, never exceeds 19,324,698,660, so fits 35 bits, and
is exactly what the End step of a successful `DECODE` posts in `CONSUMED`. -/
def Obligations.RequiredSizeFitsItsRegister : Prop :=
  ∀ o : Operands, requiredSize o = o.height.toNat * (o.width.toNat / 8) * 36 ∧ requiredSize o ≤ 19324698660 ∧
    19324698660 < 2 ^ 35 ∧ (resultConsumed (decodeSuccess o)).toNat = requiredSize o ∧
    ∀ s : State, (finish (decodeSuccess o) s).consumed.toNat = o.height.toNat * (o.width.toNat / 8) * 36

/-- A `VALIDATE` before a `DECODE` changes nothing of what the `DECODE` does. -/
def Obligations.ValidateLeavesDecodeAsItWas : Prop :=
  ∀ s t : State, s.Idle → exec .validate s = .next t → SameOperands s t ∧ SameMemory s t ∧ exec .decode t = exec .decode s

/-! ### The frame decoder -/

/-- `DECODE` reports the first error that applies, in the order `InvalidGeometry`, `InsufficientData`,
`AllocationFailure`, consumes nothing and changes nothing else. -/
def Obligations.DecodeReportsFirstError : Prop :=
  ∀ s : State, s.Idle →
    (BadGeometry s → exec .decode s = .next { s with status := statusWord 1 0 1 0, consumed := 0 }) ∧
    (¬BadGeometry s → s.len.toNat < frameBytes s →
      exec .decode s = .next { s with status := statusWord 2 0 1 0, consumed := 0 }) ∧
    (¬BadGeometry s → frameBytes s ≤ s.len.toNat → s.allocFail = 1 →
      exec .decode s = .next { s with status := statusWord 3 0 1 0, consumed := 0 })

/-- `DECODE` of a valid frame, with the host's duties met (R129; for one row any stride is admitted, log 7) and its input
bytes put there (log 5), completes: every slot of the footprint holds its sample, no other byte of a plane changes, `IN`
and the operand registers are as before, `OK = 1`, `CONSUMED = R`. -/
def Obligations.DecodeWritesTheFrame : Prop :=
  ∀ s : State, s.Idle → ¬BadGeometry s → frameBytes s ≤ s.len.toNat → s.allocFail = 0 →
    s.DutiesMet (latch s) → s.InputKnown (latch s) →
    ∃ t, exec .decode s = .next t ∧ t.Idle ∧ t.status = statusWord 0 1 1 0 ∧
      t.consumed = BitVec.ofNat 64 (frameBytes s) ∧ SameOperands s t ∧ SameOutside s t ∧ HoldsDecodedFrame s t

/-- A `DECODE` that has no error to report completes exactly when the host has met its duties and its input bytes are
known, and what is refused names what is missing. That it is refused, and not run with some value, is the model's choice
among the treatments of U1, U2, U4 (log 6, log 7), and of input bytes nobody has put there (log 5). -/
def Obligations.DecodeRunsExactlyWhenDutiesMet : Prop :=
  ∀ s : State, s.Idle → ¬BadGeometry s → frameBytes s ≤ s.len.toNat → s.allocFail = 0 →
    ((∃ t, exec .decode s = .next t) ↔ s.DutiesMet (latch s) ∧ s.InputKnown (latch s)) ∧
    ∀ r, exec .decode s = .refused r →
      (r = .inputTooShort s.input.size ∧ s.input.size < s.len.toNat) ∨
      (∃ c, r = .strideBelowWidth c ∧ (latch s).stride c < s.width.toNat ∧ 1 < s.height.toNat) ∨
      (∃ c, r = .planeTooSmall c ∧ (s.plane c).slots < neededSlots (latch s) c) ∨
      (∃ a, r = .inputMissing a ∧ a < frameBytes s ∧ s.inByte a = none)

/-- After an operation that ended with `OK = 0` the registers 1 to 7 and every byte of every space are what they
were. -/
def Obligations.NoWriteOnError : Prop :=
  ∀ (s t : State) (i : Instr), i = .validate ∨ i = .decode → exec i s = .next t → statusOk t.status = 0 →
    SameOperands s t ∧ SameMemory s t ∧ t.consumed = 0 ∧ SameOutside s t

/-- A command while an operation runs is refused (U5, log 9). -/
def Obligations.CommandWhileBusyRefused : Prop :=
  ∀ s : State, ¬s.Idle →
    exec .validate s = .refused .commandWhileBusy ∧ exec .decode s = .refused .commandWhileBusy

/-- The result of an operation and the planes after it do not depend on `STATUS`, `CONSUMED` or the model's own fields
before it. -/
def Obligations.OperationsAreStateless : Prop :=
  ∀ (s s' t : State) (i : Instr), i = .validate ∨ i = .decode → s.Idle → s'.Idle → SameOperands s s' →
    s'.input = s.input → (∀ c, s'.plane c = s.plane c) → exec i s = .next t →
    ∃ t', exec i s' = .next t' ∧ t'.status = t.status ∧ t'.consumed = t.consumed ∧ ∀ c, t'.plane c = t.plane c

/-- What the input bytes at offsets `≥ R` hold, and whether anything is known of it (log 5), has no effect on a `DECODE`,
nor has the size of `IN` above `LEN`. -/
def Obligations.DecodeIgnoresExcessInput : Prop :=
  ∀ (s t : State) (p : InputBuf), (∀ a, a < frameBytes s → Memory.read p.cells a = s.inByte a) →
    s.len.toNat ≤ p.size → exec .decode s = .next t →
    exec .decode { s with input := p } = .next { t with input := p }

/-- Which slots a `DECODE` writes, and its result, do not depend on the values of the input bytes. -/
def Obligations.DecodeFootprintIgnoresInputValues : Prop :=
  ∀ (s t : State) (m : Memory), (∀ a, (Memory.read m a).isSome = (s.inByte a).isSome) → exec .decode s = .next t →
    ∃ t', exec .decode { s with input := ⟨s.input.size, m⟩ } = .next t' ∧ t'.status = t.status ∧ t'.consumed = t.consumed ∧
      ∀ c, (t'.plane c).cells.map Prod.fst = (t.plane c).cells.map Prod.fst

/-- Decoding the same input again leaves the machine as it is. -/
def Obligations.DecodeAgainChangesNothing : Prop :=
  ∀ s t : State, s.MemoryOk → exec .decode s = .next t → exec .decode t = .next t

/-- The slots of different blocks, channels apart, are different when the stride is at least the width. -/
def Obligations.SlotsOfBlocksAreDisjoint : Prop :=
  ∀ (o : Operands) (c : Chan) (pc pc' : Cursor) (p p' : Fin 8),
    o.width.toNat % 8 = 0 → o.width.toNat ≤ o.stride c → pc.blk < o.width.toNat / 8 → pc'.blk < o.width.toNat / 8 →
    slotOf o c pc p = slotOf o c pc' p' → pc = pc' ∧ p = p'

/-- The cursors' ranges: the input offset stays inside the required size, the slot offset below 2^48. -/
def Obligations.CursorOffsetsStayInRange : Prop :=
  ∀ (o : Operands) (c : Chan) (pc : Cursor), pc.row < o.height.toNat → pc.blk < o.width.toNat / 8 →
    inOff o pc + 35 < o.height.toNat * (o.width.toNat / 8) * 36 ∧
    o.height.toNat * (o.width.toNat / 8) * 36 ≤ 19324698660 ∧ inOff o pc % 36 = 0 ∧
    slotOf o c pc 7 < 65535 * 2 ^ 32 + 65528 ∧ 65535 * 2 ^ 32 + 65528 < 2 ^ 48

/-! ### The step-by-step view -/

/-- The Start step: a `RegWrite(0, op)` on an idle core latches the operands, sets `BUSY` alone and clears `CONSUMED`;
codes 0 and 3 are refused (U6, log 9). -/
def Obligations.CommandWriteStartsOperation : Prop :=
  ∀ (s : State) (rest : List Event) (v : BitVec 64), s.events = .regWrite 0 v :: rest → s.Idle →
    (v = 1 → step s = .next { s with events := rest, run := some ⟨.validate, latch s, .check⟩, status := 1, consumed := 0 }) ∧
    (v = 2 → step s = .next { s with events := rest, run := some ⟨.decode, latch s, .check⟩, status := 1, consumed := 0 }) ∧
    (v = 0 ∨ v = 3 → ∃ code, step s = .refused (.reservedCommand code))

/-- The End step posts `STATUS` and `CONSUMED` together and empties the hidden state: when no block is pending, and
when the check has found the result. -/
def Obligations.EndStepPostsResult : Prop :=
  ∀ (s : State) (code : OpCode) (o : Operands) (c : CoreChoice),
    (∀ e, s.run = some ⟨code, o, .post (.failure e)⟩ →
      coreStep c s = .next { s with run := none, status := statusWord (errorCode e) 0 1 0, consumed := 0 }) ∧
    (∀ n, s.run = some ⟨code, o, .post (.success n)⟩ →
      coreStep c s = .next { s with run := none, status := statusWord 0 1 1 0, consumed := n }) ∧
    (∀ pc, s.run = some ⟨code, o, .blocks pc []⟩ →
      coreStep c s = .next { s with run := none, status := statusWord 0 1 1 0,
                                    consumed := BitVec.ofNat 64 (o.height.toNat * (o.width.toNat / 8) * 36) })

/-- The check of a running `DECODE` (R131 step 2): an error is to be posted, else every block of the frame is pending,
with all its samples still to be written (log 4), in the reference order, and nothing else changes. -/
def Obligations.CheckStepSetsPendingBlocks : Prop :=
  ∀ (s : State) (o : Operands) (c : CoreChoice), s.run = some ⟨.decode, o, .check⟩ →
    (∀ e, decodeError o = some e → coreStep c s = .next { s with run := some ⟨.decode, o, .post (.failure e)⟩ }) ∧
    (decodeError o = none → s.DutiesMet o →
      ∃ pending, coreStep c s = .next { s with run := some ⟨.decode, o, .blocks ⟨0, 0⟩ pending⟩ } ∧
        (∀ b ∈ pending, b.lanes = allLanes) ∧
        pending.length = o.height.toNat * (o.width.toNat / 8) ∧
        ∀ row blk, row < o.height.toNat → blk < o.width.toNat / 8 →
          (pending.map PendingBlock.pos)[row * (o.width.toNat / 8) + blk]? = some ⟨row, blk⟩)

/-- From any start the core reaches the End step, in any order of the block work, and what it leaves is what the whole
operation leaves: registers, result and every plane. By the moves of R131, blocks taken whole, it takes at most
`height × width/8 + 2` moves after the Start step. Moves of single samples are the model's finer view (log 4); where they
are mixed in, it takes at most `24 × height × width/8 + 2`. -/
def Obligations.AnyOrderReachesWholeOperation : Prop :=
  ∀ (s t : State) (choices : List CoreChoice), s.MemoryOk → s.Idle →
    (exec .validate s = .next t → 2 ≤ choices.length → coreRun choices (start .validate s) = .next t) ∧
    (exec .decode s = .next t →
      (24 * blockCount (latch s) + 2 ≤ choices.length ∨
        (blockCount (latch s) + 2 ≤ choices.length ∧ ∀ c ∈ choices, ∃ n, c = .block n)) →
      coreRun choices (start .decode s) = .next t)

/-- Once the blocks of a `DECODE` are being performed nothing can fail but for want of knowledge: in a state that meets the
invariant, its input bytes known (log 5), every move of the core, whole block or single sample (log 4), answers a
state, whatever block it takes. -/
def Obligations.OnceBegunNothingFails : Prop :=
  ∀ (s : State) (o : Operands) (pc : Cursor) (pending : List PendingBlock) (c : CoreChoice),
    s.Inv → s.run = some ⟨.decode, o, .blocks pc pending⟩ → s.InputKnown o → ∃ t, coreStep c s = .next t

/-- A started `DECODE`, left alone, whichever blocks its own free choices take (log 3), reaches the state the whole
operation gives, but for the counter of those choices, within the `height × width/8 + 3` steps of R131. -/
def Obligations.StartedDecodeEnds : Prop :=
  ∀ s t : State, s.MemoryOk → s.Idle → s.events = [.regWrite 0 2] → exec .decode { s with events := [] } = .next t →
    ∃ k n, k ≤ s.height.toNat * (s.width.toNat / 8) + 3 ∧ Host.Core.run Sys2Proof.core k s = .next { t with tick := n }

/-- A reset that cuts a `DECODE`, after any number of its moves in any order, single samples among them (log 4), leaves
every slot of every plane either as it was or as the whole operation would have left it, `IN` unchanged, and no
result. -/
def Obligations.CutDecodeLeavesOldOrFinalSlots : Prop :=
  ∀ (s t u : State) (choices : List CoreChoice), s.MemoryOk → s.Idle → exec .decode s = .next t →
    coreRun choices (start .decode s) = .next u →
    (resetCore u).status = 0 ∧ (resetCore u).Idle ∧ (resetCore u).input = s.input ∧
    ∀ c k,
      ((resetCore u).planeByte c (2 * k) = s.planeByte c (2 * k) ∧
        (resetCore u).planeByte c (2 * k + 1) = s.planeByte c (2 * k + 1)) ∨
      ((resetCore u).planeByte c (2 * k) = t.planeByte c (2 * k) ∧
        (resetCore u).planeByte c (2 * k + 1) = t.planeByte c (2 * k + 1))

/-- Without an event an idle core waits (R154; that the events are a field of the state is the model's, log 1). -/
def Obligations.IdleCoreWaits : Prop :=
  ∀ s : State, s.Idle → s.events = [] → step s = .next s

/-! ### The host's moves and reset -/

/-- `RegWrite(n, v)` on an idle core sets registers 1 to 7 and has no effect on 8 to 10. -/
def Obligations.RegWriteSetsOperandRegisters : Prop :=
  ∀ (s : State) (rest : List Event) (n : Nat) (v : BitVec 64), s.events = .regWrite n v :: rest → s.Idle →
    (n = 1 → v.toNat < 2 ^ 16 → step s = .next { s with events := rest, width := v.setWidth 16 }) ∧
    (n = 2 → v.toNat < 2 ^ 16 → step s = .next { s with events := rest, height := v.setWidth 16 }) ∧
    (n = 3 → step s = .next { s with events := rest, len := v }) ∧
    (n = 4 → v.toNat < 2 ^ 32 → step s = .next { s with events := rest, strideG := v.setWidth 32 }) ∧
    (n = 5 → v.toNat < 2 ^ 32 → step s = .next { s with events := rest, strideB := v.setWidth 32 }) ∧
    (n = 6 → v.toNat < 2 ^ 32 → step s = .next { s with events := rest, strideR := v.setWidth 32 }) ∧
    (n = 7 → v.toNat < 2 → step s = .next { s with events := rest, allocFail := v.setWidth 1 }) ∧
    (n = 8 → v.toNat < 2 ^ 5 → step s = .next { s with events := rest }) ∧
    (n = 9 → step s = .next { s with events := rest }) ∧
    (n = 10 → v.toNat < 2 ^ 16 → step s = .next { s with events := rest })

/-- `RegRead(n)` on an idle core returns the current value of register `n` and changes nothing: `CMD` reads as 0,
`FORMAT` as 0x3E0C. That the value goes to `replies` is the model's (log 12). -/
def Obligations.RegReadReturnsRegister : Prop :=
  ∀ (s : State) (rest : List Event) (n : Nat) (v : BitVec 64), s.events = .regRead n :: rest → s.Idle →
    [0, s.width.setWidth 64, s.height.setWidth 64, s.len, s.strideG.setWidth 64, s.strideB.setWidth 64,
      s.strideR.setWidth 64, s.allocFail.setWidth 64, s.status.setWidth 64, s.consumed, 0x3E0C][n]? = some v →
    step s = .next { s with events := rest, replies := .reg n v :: s.replies }

/-- While an operation runs the host may poll `STATUS`, and reads `BUSY` alone. -/
def Obligations.PollReadsBusy : Prop :=
  ∀ (s : State) (rest : List Event), s.Inv → ¬s.Idle → s.events = .regRead 8 :: rest →
    step s = .next { s with events := rest, replies := .reg 8 1 :: s.replies }

/-- What the host may not do is refused: registers that do not exist (U7), data wider than a register (log 10), and,
while an operation runs, anything but the poll (U10): writing a register, reading another register, writing
`IN[0 .. LEN−1]`, touching a plane. That they are refused is the model's choice (log 9, log 10, log 11). -/
def Obligations.HostBreachesAreRefused : Prop :=
  ∀ (s : State) (rest : List Event) (n a : Nat) (v : BitVec 64) (c : Chan) (b : Byte),
    (11 ≤ n → s.events = .regWrite n v :: rest ∨ s.events = .regRead n :: rest → step s = .refused (.noSuchRegister n)) ∧
    (∀ w, registerWidth n = some w → 2 ^ w ≤ v.toNat → s.events = .regWrite n v :: rest →
      step s = .refused (.datumTooWide n)) ∧
    (¬s.Idle →
      (∀ w, registerWidth n = some w → v.toNat < 2 ^ w → n ≠ 0 → s.events = .regWrite n v :: rest →
        step s = .refused .hostDuringOperation) ∧
      (v.toNat < 4 → s.events = .regWrite 0 v :: rest → step s = .refused .commandWhileBusy) ∧
      (n ≤ 10 → n ≠ 8 → s.events = .regRead n :: rest → step s = .refused .hostDuringOperation) ∧
      (a < s.len.toNat → s.events = .storeIn a b :: rest → step s = .refused .hostDuringOperation) ∧
      (s.events = .giveIn n :: rest ∨ s.events = .freeIn :: rest ∨ s.events = .givePlane c n :: rest ∨ s.events = .storePlane c a b :: rest ∨
          s.events = .loadPlane c a :: rest → step s = .refused .hostDuringOperation))

/-- The host's memory moves on an idle core: a byte put into `IN`, a byte put into a plane, a byte of a plane read
back, each inside its buffer, refused by name outside it; no other byte and no register changes. The moves, and the
refusals `outsideInput` and `outsidePlane`, are the model's form of R163, R167 and R171 (log 1, log 5, log 6,
log 12). -/
def Obligations.HostMemoryMoves : Prop :=
  ∀ (s : State) (rest : List Event) (a : Nat) (b : Byte) (c : Chan), s.Idle →
    (s.events = .storeIn a b :: rest → a < s.input.size →
      ∃ t, step s = .next t ∧ t.inByte a = some b ∧ (∀ a', a' ≠ a → t.inByte a' = s.inByte a') ∧
        t.input.size = s.input.size ∧ (∀ c', t.plane c' = s.plane c') ∧ SameOperands s t ∧ t.status = s.status ∧
        t.consumed = s.consumed ∧ t.run = none ∧ t.events = rest ∧ t.replies = s.replies ∧ t.tick = s.tick) ∧
    (s.events = .storeIn a b :: rest → s.input.size ≤ a → step s = .refused (.outsideInput a)) ∧
    (s.events = .storePlane c a b :: rest → a < 2 * (s.plane c).slots →
      ∃ t, step s = .next t ∧ t.planeByte c a = some b ∧
        (∀ c' a', (c' ≠ c ∨ a' ≠ a) → t.planeByte c' a' = s.planeByte c' a') ∧ t.input = s.input ∧
        (∀ c', (t.plane c').slots = (s.plane c').slots) ∧ SameOperands s t ∧ t.status = s.status ∧
        t.consumed = s.consumed ∧ t.run = none ∧ t.events = rest ∧ t.replies = s.replies ∧ t.tick = s.tick) ∧
    (s.events = .loadPlane c a :: rest → a < 2 * (s.plane c).slots →
      step s = .next { s with events := rest, replies := .plane c a (s.planeByte c a) :: s.replies }) ∧
    (s.events = .storePlane c a b :: rest ∨ s.events = .loadPlane c a :: rest → 2 * (s.plane c).slots ≤ a →
      step s = .refused (.outsidePlane c a))

/-- The moves that hand over or take back a whole buffer on an idle core: `giveIn` and `givePlane` set its extent and
nothing is known of its bytes, `freeIn` leaves no readable byte; the other buffers and every register are unchanged. The
moves are the model's form of R163 and R167 (log 1, log 5, log 6). -/
def Obligations.HostBufferMoves : Prop :=
  ∀ (s : State) (rest : List Event) (n : Nat) (c : Chan), s.Idle →
    (s.events = .giveIn n :: rest →
      ∃ t, step s = .next t ∧ t.input.size = n ∧ (∀ a, t.inByte a = none) ∧ (∀ c', t.plane c' = s.plane c') ∧
        SameOperands s t ∧ t.status = s.status ∧ t.consumed = s.consumed ∧ t.run = none ∧ t.events = rest ∧
        t.replies = s.replies ∧ t.tick = s.tick) ∧
    (s.events = .freeIn :: rest →
      ∃ t, step s = .next t ∧ t.input.size = 0 ∧ (∀ a, t.inByte a = none) ∧ (∀ c', t.plane c' = s.plane c') ∧
        SameOperands s t ∧ t.status = s.status ∧ t.consumed = s.consumed ∧ t.run = none ∧ t.events = rest ∧
        t.replies = s.replies ∧ t.tick = s.tick) ∧
    (s.events = .givePlane c n :: rest →
      ∃ t, step s = .next t ∧ (t.plane c).slots = n ∧ (∀ a, t.planeByte c a = none) ∧
        (∀ c', c' ≠ c → t.plane c' = s.plane c') ∧ t.input = s.input ∧ SameOperands s t ∧ t.status = s.status ∧
        t.consumed = s.consumed ∧ t.run = none ∧ t.events = rest ∧ t.replies = s.replies ∧ t.tick = s.tick)

/-- While an operation runs the host may put a byte into `IN` at `LEN` or above, inside the buffer: that byte changes and
nothing else does, the hidden state and the planes included. R166 forbids the offsets below `LEN` only; that the others
are allowed is the model's reading (log 11). -/
def Obligations.StoreBeyondLenWhileBusy : Prop :=
  ∀ (s : State) (rest : List Event) (a : Nat) (b : Byte), ¬s.Idle → s.events = .storeIn a b :: rest →
    s.len.toNat ≤ a → a < s.input.size →
    ∃ t, step s = .next t ∧ t.inByte a = some b ∧ (∀ a', a' ≠ a → t.inByte a' = s.inByte a') ∧
      t.input.size = s.input.size ∧ (∀ c, t.plane c = s.plane c) ∧ t.run = s.run ∧ SameOperands s t ∧
      t.status = s.status ∧ t.consumed = s.consumed ∧ t.events = rest ∧ t.replies = s.replies ∧ t.tick = s.tick

/-- The state after reset (R28), and what a `DECODE` started straight after it answers. -/
def Obligations.ResetState : Prop :=
  State.reset.width = 0 ∧ State.reset.height = 0 ∧ State.reset.len = 0 ∧ State.reset.strideG = 0 ∧
  State.reset.strideB = 0 ∧ State.reset.strideR = 0 ∧ State.reset.allocFail = 0 ∧ State.reset.status = 0 ∧
  State.reset.consumed = 0 ∧ State.reset.run = none ∧ registerValue State.reset 10 = some 0x3E0C ∧
  exec .decode State.reset = .next { State.reset with status := statusWord 1 0 1 0 }

/-- Reset at any moment: every register and the hidden state as after reset, memory and the outside as they are, no
result posted. -/
def Obligations.ResetEventRestoresRegisters : Prop :=
  ∀ (s : State) (rest : List Event), s.events = .reset :: rest →
    step s = .next { State.reset with
      input := s.input, pg := s.pg, pb := s.pb, pr := s.pr, events := rest, replies := s.replies, tick := s.tick }

/-! ### The machine -/

/-- The invariant holds after reset. -/
def Obligations.ResetMeetsInvariant : Prop := State.reset.Inv

/-- Every step keeps the invariant. -/
def Obligations.StepKeepsInvariant : Prop := ∀ s t : State, s.Inv → step s = .next t → t.Inv

/-- `STATUS` of every state a run from an invariant state reaches is one of the six values the spec lists, `BUSY` is
set exactly while an operation runs, `BUSY = 1` implies `DONE = 0`, `OK = 0` and `ERR = 0`, `DONE = 1` implies `OK = 1`
and `ERR = 0`, or `OK = 0` and `ERR` in 1..3; and `CONSUMED` is 0 while `BUSY = 1`, after a failure, and where no result
is posted (R18). -/
def Obligations.ReachableStatusIsLegal : Prop :=
  ∀ (k : Nat) (s t : State), s.Inv → Host.Core.run Sys2Proof.core k s = .next t →
    t.status ∈ [0x00, 0x01, 0x06, 0x0A, 0x12, 0x1A] ∧
    (statusBusy t.status = 1 ↔ ¬t.Idle) ∧
    (statusBusy t.status = 1 → statusDone t.status = 0 ∧ statusOk t.status = 0 ∧ statusErr t.status = 0) ∧
    (statusDone t.status = 1 →
      (statusOk t.status = 1 ∧ statusErr t.status = 0) ∨ (statusOk t.status = 0 ∧ statusErr t.status ≠ 0)) ∧
    (statusBusy t.status = 1 → t.consumed = 0) ∧
    (statusDone t.status = 1 → statusOk t.status = 0 → t.consumed = 0) ∧
    (Unposted t.status → t.consumed = 0)

/-- `DONE = 0` and `BUSY = 0` only between reset and the first command (R17): reset leaves them so; a command that answers
a state ends that, whether written to register 0 or performed whole; and a state where an operation runs or a result is
posted is followed by such states only, as long as no reset is to come. That commands and resets are listed in the
state's events is the model's (log 1, log 2). -/
def Obligations.UnpostedOnlyFromResetToCommand : Prop :=
  (∀ (s : State) (rest : List Event), s.events = .reset :: rest → ∃ t, step s = .next t ∧ Unposted t.status) ∧
  (∀ (s t : State) (rest : List Event) (code : BitVec 2) (v : BitVec 64),
    s.events = .command code :: rest ∨ s.events = .regWrite 0 v :: rest → step s = .next t → ¬Unposted t.status) ∧
  ∀ (k : Nat) (s t : State), .reset ∉ s.events → ¬Unposted s.status →
    Host.Core.run Sys2Proof.core k s = .next t → ¬Unposted t.status
end

