-- ==== Sys2Proof/Laws/Memory.lean ====
section
/-! SUPPORT. The laws of the byte spaces: a read after a write, the canonical form kept by every operation, and equal
reads make equal memories. -/

namespace Sys2Proof.Machine

@[simp] theorem Memory.read_nil (a : Nat) : Memory.read [] a = none := rfl

theorem Memory.read_cons (k : Nat) (v : Byte) (m : Memory) (a : Nat) :
    Memory.read ((k, v) :: m) a = if k = a then some v else Memory.read m a := rfl

/-- A read after a write: the written byte at its offset, every other offset as before. -/
theorem Memory.read_write (m : Memory) (a : Nat) (b : Byte) (a' : Nat) :
    Memory.read (Memory.write m a b) a' = if a' = a then some b else Memory.read m a' := by
  have hc : ∀ n : Memory, Memory.read ((a, b) :: n) a' = if a' = a then some b else Memory.read n a' := fun n => by
    rw [Memory.read_cons]; simp only [eq_comm]
  induction m with
  | nil => exact hc []
  | cons x m ih =>
    obtain ⟨k, v⟩ := x
    simp only [Memory.write]
    split
    · exact hc _
    · split
      · rename_i hak
        subst hak
        rw [hc, Memory.read_cons]
        by_cases h : a' = a
        · rw [if_pos h, if_pos h]
        · rw [if_neg h, if_neg h, if_neg (Ne.symm h)]
      · rename_i hak
        rw [Memory.read_cons, Memory.read_cons, ih]
        by_cases h : k = a'
        · rw [if_pos h, if_pos h, if_neg (by omega)]
        · rw [if_neg h, if_neg h]

@[simp] theorem Memory.read_write_same (m : Memory) (a : Nat) (b : Byte) :
    Memory.read (Memory.write m a b) a = some b := by simp [Memory.read_write]

/-- The entries of a memory after a write come from the write or were there. -/
theorem Memory.mem_write {m : Memory} {a : Nat} {b : Byte} {x : Host.Cell} (h : x ∈ Memory.write m a b) :
    x = (a, b) ∨ x ∈ m := by
  induction m with
  | nil => simpa [Memory.write] using h
  | cons y m ih =>
    obtain ⟨k, v⟩ := y
    simp only [Memory.write] at h
    split at h
    · simpa using h
    · split at h
      · simp only [List.mem_cons] at h ⊢; tauto
      · simp only [List.mem_cons] at h ⊢
        rcases h with h | h
        · tauto
        · rcases ih h with h | h <;> tauto

/-- A write keeps the canonical form. -/
theorem Memory.wf_write {m : Memory} (h : Memory.wf m) (a : Nat) (b : Byte) : Memory.wf (Memory.write m a b) := by
  induction m with
  | nil => simp [Memory.write]
  | cons y m ih =>
    obtain ⟨k, v⟩ := y
    have hm : Memory.wf m := (List.pairwise_cons.mp h).2
    have hk : ∀ x ∈ m, k < x.1 := fun x hx => (List.pairwise_cons.mp h).1 x hx
    simp only [Memory.write]
    split
    · rename_i hak
      refine List.pairwise_cons.mpr ⟨?_, h⟩
      intro x hx
      rcases List.mem_cons.mp hx with rfl | hx
      · exact hak
      · exact hak.trans (hk x hx)
    · split
      · rename_i hak; subst hak; exact List.pairwise_cons.mpr ⟨hk, hm⟩
      · refine List.pairwise_cons.mpr ⟨?_, ih hm⟩
        intro x hx
        rcases Memory.mem_write hx with rfl | hx
        · show k < a; omega
        · exact hk x hx

/-- An offset below every listed one holds nothing. -/
theorem Memory.read_eq_none_of_lt {m : Memory} {a : Nat} (h : ∀ x ∈ m, a < x.1) : Memory.read m a = none := by
  induction m with
  | nil => rfl
  | cons y m ih =>
    obtain ⟨k, v⟩ := y
    have hk : a < k := h (k, v) (by simp)
    simp only [Memory.read, if_neg (Nat.ne_of_gt hk)]
    exact ih fun x hx => h x (by simp [hx])

/-- Memories in canonical form that read the same are the same. -/
theorem Memory.ext_of_wf : ∀ {m n : Memory}, Memory.wf m → Memory.wf n →
    (∀ a, Memory.read m a = Memory.read n a) → m = n
  | [], [], _, _, _ => rfl
  | [], (k, v) :: n, _, _, h => by have := h k; simp [Memory.read] at this
  | (k, v) :: m, [], _, _, h => by have := h k; simp [Memory.read] at this
  | (k, v) :: m, (l, w) :: n, hm, hn, h => by
    have hm' := List.pairwise_cons.mp hm
    have hn' := List.pairwise_cons.mp hn
    have hkl : k = l := by
      rcases Nat.lt_trichotomy k l with hlt | heq | hgt
      · have := h k
        rw [Memory.read_cons, if_pos rfl, Memory.read_cons, if_neg (by omega),
          Memory.read_eq_none_of_lt fun x hx => hlt.trans (hn'.1 x hx)] at this
        simp at this
      · exact heq
      · have := h l
        rw [Memory.read_cons l w, if_pos rfl, Memory.read_cons, if_neg (by omega),
          Memory.read_eq_none_of_lt fun x hx => hgt.trans (hm'.1 x hx)] at this
        simp at this
    subst hkl
    have hv : v = w := by have := h k; simpa [Memory.read] using this
    subst hv
    have hmn : m = n := by
      refine Memory.ext_of_wf hm'.2 hn'.2 fun a => ?_
      by_cases ha : k = a
      · subst ha
        rw [Memory.read_eq_none_of_lt fun x hx => hm'.1 x hx, Memory.read_eq_none_of_lt fun x hx => hn'.1 x hx]
      · have := h a; simpa [Memory.read, ha] using this
    rw [hmn]

/-- The offsets listed after a write depend on the offsets listed before it only. -/
theorem Memory.keys_write {m n : Memory} (h : m.map Prod.fst = n.map Prod.fst) (a : Nat) (b b' : Byte) :
    (Memory.write m a b).map Prod.fst = (Memory.write n a b').map Prod.fst := by
  induction m generalizing n with
  | nil => cases n with
    | nil => rfl
    | cons y n => simp at h
  | cons x m ih =>
    cases n with
    | nil => simp at h
    | cons y n =>
      obtain ⟨k, v⟩ := x
      obtain ⟨l, w⟩ := y
      simp only [List.map_cons, List.cons.injEq] at h
      obtain ⟨rfl, h⟩ := h
      simp only [Memory.write]
      split
      · simp [h]
      · split
        · simp [h]
        · simp [ih h]

/-- Writing bytes from an offset on keeps the canonical form. -/
theorem writeBytes_wf (bs : List Byte) : ∀ {m : Memory} (a : Nat), Memory.wf m → Memory.wf (writeBytes m a bs) := by
  induction bs with
  | nil => intro m a h; exact h
  | cons b bs ih => intro m a h; exact ih _ (Memory.wf_write h a b)

/-- A read after bytes were written from offset `a` on. -/
theorem read_writeBytes (bs : List Byte) : ∀ (m : Memory) (a a' : Nat),
    Memory.read (writeBytes m a bs) a' =
      if h : a ≤ a' ∧ a' < a + bs.length then some (bs[a' - a]'(by omega)) else Memory.read m a' := by
  induction bs with
  | nil => intro m a a'; simp only [writeBytes]; rw [dif_neg (by simp only [List.length_nil]; omega)]
  | cons b bs ih =>
    intro m a a'
    simp only [writeBytes, ih, Memory.read_write, List.length_cons]
    by_cases h1 : a + 1 ≤ a' ∧ a' < a + 1 + bs.length
    · rw [dif_pos h1, dif_pos (by omega)]
      obtain ⟨j, rfl⟩ : ∃ j, a' = a + 1 + j := ⟨a' - (a + 1), by omega⟩
      simp [show a + 1 + j - a = j + 1 by omega]
    · rw [dif_neg h1]
      by_cases h2 : a' = a
      · subst h2; simp
      · rw [if_neg h2, dif_neg (by omega)]

/-- `readBytes` answers the bytes when they are all there. -/
theorem readBytes_ok (m : Memory) : ∀ (n a : Nat) (f : Nat → Byte),
    (∀ k, k < n → Memory.read m (a + k) = some (f k)) → readBytes m a n = .ok ((List.range n).map f)
  | 0, _, _, _ => rfl
  | n + 1, a, f, h => by
    have h0 : Memory.read m a = some (f 0) := by simpa using h 0 (by omega)
    have ih := readBytes_ok m n (a + 1) (fun k => f (k + 1)) fun k hk => by
      have := h (k + 1) (by omega); rwa [show a + (k + 1) = a + 1 + k by omega] at this
    simp only [readBytes, h0, ih, List.range_succ_eq_map, List.map_cons, List.map_map, Function.comp_def]

/-- `readBytes` fails at an offset of its range that holds nothing. -/
theorem readBytes_error (m : Memory) : ∀ (n a e : Nat), readBytes m a n = .error e →
    Memory.read m e = none ∧ a ≤ e ∧ e < a + n
  | 0, _, _, h => by simp [readBytes] at h
  | n + 1, a, e, h => by
    simp only [readBytes] at h
    split at h
    · rename_i hn; cases h; exact ⟨hn, le_rfl, by omega⟩
    · split at h
      · rename_i he
        cases h
        have := readBytes_error m n (a + 1) _ he
        exact ⟨this.1, by omega, by omega⟩
      · cases h

/-- `readBytes` answers only when every byte is there. -/
theorem readBytes_there (m : Memory) : ∀ (n a : Nat) (bs : List Byte), readBytes m a n = .ok bs →
    ∀ k, k < n → ∃ b, Memory.read m (a + k) = some b
  | 0, _, _, _, _, hk => by omega
  | n + 1, a, bs, h, k, hk => by
    simp only [readBytes] at h
    split at h
    · cases h
    · rename_i b hb
      split at h
      · cases h
      · rename_i bs' hbs
        cases k with
        | zero => exact ⟨b, by simpa using hb⟩
        | succ k =>
          obtain ⟨x, hx⟩ := readBytes_there m n (a + 1) bs' hbs k (by omega)
          exact ⟨x, by rwa [show a + (k + 1) = a + 1 + k by omega]⟩

/-- A byte put into a readable offset keeps the canonical form of the input buffer. -/
theorem InputBuf.wf_store {p : InputBuf} (h : InputBuf.wf p) {a : Nat} (ha : a < p.size) (b : Byte) :
    InputBuf.wf ⟨p.size, Memory.write p.cells a b⟩ := by
  refine ⟨Memory.wf_write h.1 a b, fun x hx => ?_⟩
  rcases Memory.mem_write hx with rfl | hx
  · exact ha
  · exact h.2 x hx

/-! ### Planes -/

@[simp] theorem PlaneBuf.put_slots (p : PlaneBuf) (k : Nat) (v : Slot) : (p.put k v).slots = p.slots := rfl

/-- A read of a plane after a slot was put. -/
theorem PlaneBuf.read_put (p : PlaneBuf) (k : Nat) (v : Slot) (a : Nat) :
    Memory.read (p.put k v).cells a =
      if a = 2 * k + 1 then some (slotHigh v) else if a = 2 * k then some (slotLow v) else Memory.read p.cells a := by
  simp only [PlaneBuf.put, Memory.read_write]

/-- A slot the plane has keeps its canonical form. -/
theorem PlaneBuf.wf_put {p : PlaneBuf} (h : PlaneBuf.wf p) {k : Nat} (hk : k < p.slots) (v : Slot) :
    PlaneBuf.wf (p.put k v) := by
  refine ⟨Memory.wf_write (Memory.wf_write h.1 _ _) _ _, ?_⟩
  intro x hx
  rcases Memory.mem_write hx with rfl | hx
  · show 2 * k + 1 < 2 * p.slots; omega
  · rcases Memory.mem_write hx with rfl | hx
    · show 2 * k < 2 * p.slots; omega
    · exact h.2 x hx

/-- Planes in canonical form with the same slots that read the same are the same. -/
theorem PlaneBuf.ext_of_wf {p q : PlaneBuf} (hp : PlaneBuf.wf p) (hq : PlaneBuf.wf q) (hs : p.slots = q.slots)
    (h : ∀ a, Memory.read p.cells a = Memory.read q.cells a) : p = q := by
  have := Memory.ext_of_wf hp.1 hq.1 h
  cases p; cases q; simp_all

end Sys2Proof.Machine
end

