-- ==== Sys2Proof/Laws/State.lean ====
section
/-! SUPPORT. One lemma per field per update of the state. -/

namespace Sys2Proof.Machine

/-! ### start -/

@[simp] theorem start_width (code : OpCode) (s : State) : (start code s).width = s.width := rfl
@[simp] theorem start_height (code : OpCode) (s : State) : (start code s).height = s.height := rfl
@[simp] theorem start_len (code : OpCode) (s : State) : (start code s).len = s.len := rfl
@[simp] theorem start_strideG (code : OpCode) (s : State) : (start code s).strideG = s.strideG := rfl
@[simp] theorem start_strideB (code : OpCode) (s : State) : (start code s).strideB = s.strideB := rfl
@[simp] theorem start_strideR (code : OpCode) (s : State) : (start code s).strideR = s.strideR := rfl
@[simp] theorem start_allocFail (code : OpCode) (s : State) : (start code s).allocFail = s.allocFail := rfl
@[simp] theorem start_status (code : OpCode) (s : State) : (start code s).status = busyStatus := rfl
@[simp] theorem start_consumed (code : OpCode) (s : State) : (start code s).consumed = 0 := rfl
@[simp] theorem start_run (code : OpCode) (s : State) : (start code s).run = some ⟨code, latch s, .check⟩ := rfl
@[simp] theorem start_input (code : OpCode) (s : State) : (start code s).input = s.input := rfl
@[simp] theorem start_pg (code : OpCode) (s : State) : (start code s).pg = s.pg := rfl
@[simp] theorem start_pb (code : OpCode) (s : State) : (start code s).pb = s.pb := rfl
@[simp] theorem start_pr (code : OpCode) (s : State) : (start code s).pr = s.pr := rfl
@[simp] theorem start_events (code : OpCode) (s : State) : (start code s).events = s.events := rfl
@[simp] theorem start_replies (code : OpCode) (s : State) : (start code s).replies = s.replies := rfl
@[simp] theorem start_tick (code : OpCode) (s : State) : (start code s).tick = s.tick := rfl

/-! ### finish -/

@[simp] theorem finish_width (r : OpResult) (s : State) : (finish r s).width = s.width := rfl
@[simp] theorem finish_height (r : OpResult) (s : State) : (finish r s).height = s.height := rfl
@[simp] theorem finish_len (r : OpResult) (s : State) : (finish r s).len = s.len := rfl
@[simp] theorem finish_strideG (r : OpResult) (s : State) : (finish r s).strideG = s.strideG := rfl
@[simp] theorem finish_strideB (r : OpResult) (s : State) : (finish r s).strideB = s.strideB := rfl
@[simp] theorem finish_strideR (r : OpResult) (s : State) : (finish r s).strideR = s.strideR := rfl
@[simp] theorem finish_allocFail (r : OpResult) (s : State) : (finish r s).allocFail = s.allocFail := rfl
@[simp] theorem finish_status (r : OpResult) (s : State) : (finish r s).status = resultStatus r := rfl
@[simp] theorem finish_consumed (r : OpResult) (s : State) : (finish r s).consumed = resultConsumed r := rfl
@[simp] theorem finish_run (r : OpResult) (s : State) : (finish r s).run = none := rfl
@[simp] theorem finish_input (r : OpResult) (s : State) : (finish r s).input = s.input := rfl
@[simp] theorem finish_pg (r : OpResult) (s : State) : (finish r s).pg = s.pg := rfl
@[simp] theorem finish_pb (r : OpResult) (s : State) : (finish r s).pb = s.pb := rfl
@[simp] theorem finish_pr (r : OpResult) (s : State) : (finish r s).pr = s.pr := rfl
@[simp] theorem finish_events (r : OpResult) (s : State) : (finish r s).events = s.events := rfl
@[simp] theorem finish_replies (r : OpResult) (s : State) : (finish r s).replies = s.replies := rfl
@[simp] theorem finish_tick (r : OpResult) (s : State) : (finish r s).tick = s.tick := rfl

/-! ### raise -/

@[simp] theorem raise_width (e : OpError) (s : State) : (raise e s).width = s.width := rfl
@[simp] theorem raise_height (e : OpError) (s : State) : (raise e s).height = s.height := rfl
@[simp] theorem raise_len (e : OpError) (s : State) : (raise e s).len = s.len := rfl
@[simp] theorem raise_strideG (e : OpError) (s : State) : (raise e s).strideG = s.strideG := rfl
@[simp] theorem raise_strideB (e : OpError) (s : State) : (raise e s).strideB = s.strideB := rfl
@[simp] theorem raise_strideR (e : OpError) (s : State) : (raise e s).strideR = s.strideR := rfl
@[simp] theorem raise_allocFail (e : OpError) (s : State) : (raise e s).allocFail = s.allocFail := rfl
@[simp] theorem raise_status (e : OpError) (s : State) : (raise e s).status = statusWord (errorCode e) 0 1 0 := rfl
@[simp] theorem raise_consumed (e : OpError) (s : State) : (raise e s).consumed = 0 := rfl
@[simp] theorem raise_run (e : OpError) (s : State) : (raise e s).run = none := rfl
@[simp] theorem raise_input (e : OpError) (s : State) : (raise e s).input = s.input := rfl
@[simp] theorem raise_pg (e : OpError) (s : State) : (raise e s).pg = s.pg := rfl
@[simp] theorem raise_pb (e : OpError) (s : State) : (raise e s).pb = s.pb := rfl
@[simp] theorem raise_pr (e : OpError) (s : State) : (raise e s).pr = s.pr := rfl
@[simp] theorem raise_events (e : OpError) (s : State) : (raise e s).events = s.events := rfl
@[simp] theorem raise_replies (e : OpError) (s : State) : (raise e s).replies = s.replies := rfl
@[simp] theorem raise_tick (e : OpError) (s : State) : (raise e s).tick = s.tick := rfl

/-! ### resetCore -/

@[simp] theorem resetCore_width (s : State) : (resetCore s).width = 0 := rfl
@[simp] theorem resetCore_height (s : State) : (resetCore s).height = 0 := rfl
@[simp] theorem resetCore_len (s : State) : (resetCore s).len = 0 := rfl
@[simp] theorem resetCore_strideG (s : State) : (resetCore s).strideG = 0 := rfl
@[simp] theorem resetCore_strideB (s : State) : (resetCore s).strideB = 0 := rfl
@[simp] theorem resetCore_strideR (s : State) : (resetCore s).strideR = 0 := rfl
@[simp] theorem resetCore_allocFail (s : State) : (resetCore s).allocFail = 0 := rfl
@[simp] theorem resetCore_status (s : State) : (resetCore s).status = 0 := rfl
@[simp] theorem resetCore_consumed (s : State) : (resetCore s).consumed = 0 := rfl
@[simp] theorem resetCore_run (s : State) : (resetCore s).run = none := rfl
@[simp] theorem resetCore_input (s : State) : (resetCore s).input = s.input := rfl
@[simp] theorem resetCore_pg (s : State) : (resetCore s).pg = s.pg := rfl
@[simp] theorem resetCore_pb (s : State) : (resetCore s).pb = s.pb := rfl
@[simp] theorem resetCore_pr (s : State) : (resetCore s).pr = s.pr := rfl
@[simp] theorem resetCore_events (s : State) : (resetCore s).events = s.events := rfl
@[simp] theorem resetCore_replies (s : State) : (resetCore s).replies = s.replies := rfl
@[simp] theorem resetCore_tick (s : State) : (resetCore s).tick = s.tick := rfl

/-! ### setStage -/

@[simp] theorem setStage_width (op : Operation) (st : Stage) (s : State) : (setStage op st s).width = s.width := rfl
@[simp] theorem setStage_height (op : Operation) (st : Stage) (s : State) : (setStage op st s).height = s.height := rfl
@[simp] theorem setStage_len (op : Operation) (st : Stage) (s : State) : (setStage op st s).len = s.len := rfl
@[simp] theorem setStage_strideG (op : Operation) (st : Stage) (s : State) : (setStage op st s).strideG = s.strideG := rfl
@[simp] theorem setStage_strideB (op : Operation) (st : Stage) (s : State) : (setStage op st s).strideB = s.strideB := rfl
@[simp] theorem setStage_strideR (op : Operation) (st : Stage) (s : State) : (setStage op st s).strideR = s.strideR := rfl
@[simp] theorem setStage_allocFail (op : Operation) (st : Stage) (s : State) : (setStage op st s).allocFail = s.allocFail := rfl
@[simp] theorem setStage_status (op : Operation) (st : Stage) (s : State) : (setStage op st s).status = s.status := rfl
@[simp] theorem setStage_consumed (op : Operation) (st : Stage) (s : State) : (setStage op st s).consumed = s.consumed := rfl
@[simp] theorem setStage_run (op : Operation) (st : Stage) (s : State) : (setStage op st s).run = some ⟨op.code, op.ops, st⟩ := rfl
@[simp] theorem setStage_input (op : Operation) (st : Stage) (s : State) : (setStage op st s).input = s.input := rfl
@[simp] theorem setStage_pg (op : Operation) (st : Stage) (s : State) : (setStage op st s).pg = s.pg := rfl
@[simp] theorem setStage_pb (op : Operation) (st : Stage) (s : State) : (setStage op st s).pb = s.pb := rfl
@[simp] theorem setStage_pr (op : Operation) (st : Stage) (s : State) : (setStage op st s).pr = s.pr := rfl
@[simp] theorem setStage_events (op : Operation) (st : Stage) (s : State) : (setStage op st s).events = s.events := rfl
@[simp] theorem setStage_replies (op : Operation) (st : Stage) (s : State) : (setStage op st s).replies = s.replies := rfl
@[simp] theorem setStage_tick (op : Operation) (st : Stage) (s : State) : (setStage op st s).tick = s.tick := rfl

/-! ### setPlane and plane -/

@[simp] theorem setPlane_width (s : State) (c : Chan) (p : PlaneBuf) : (s.setPlane c p).width = s.width := by cases c <;> rfl
@[simp] theorem setPlane_height (s : State) (c : Chan) (p : PlaneBuf) : (s.setPlane c p).height = s.height := by cases c <;> rfl
@[simp] theorem setPlane_len (s : State) (c : Chan) (p : PlaneBuf) : (s.setPlane c p).len = s.len := by cases c <;> rfl
@[simp] theorem setPlane_strideG (s : State) (c : Chan) (p : PlaneBuf) : (s.setPlane c p).strideG = s.strideG := by cases c <;> rfl
@[simp] theorem setPlane_strideB (s : State) (c : Chan) (p : PlaneBuf) : (s.setPlane c p).strideB = s.strideB := by cases c <;> rfl
@[simp] theorem setPlane_strideR (s : State) (c : Chan) (p : PlaneBuf) : (s.setPlane c p).strideR = s.strideR := by cases c <;> rfl
@[simp] theorem setPlane_allocFail (s : State) (c : Chan) (p : PlaneBuf) : (s.setPlane c p).allocFail = s.allocFail := by cases c <;> rfl
@[simp] theorem setPlane_status (s : State) (c : Chan) (p : PlaneBuf) : (s.setPlane c p).status = s.status := by cases c <;> rfl
@[simp] theorem setPlane_consumed (s : State) (c : Chan) (p : PlaneBuf) : (s.setPlane c p).consumed = s.consumed := by cases c <;> rfl
@[simp] theorem setPlane_run (s : State) (c : Chan) (p : PlaneBuf) : (s.setPlane c p).run = s.run := by cases c <;> rfl
@[simp] theorem setPlane_input (s : State) (c : Chan) (p : PlaneBuf) : (s.setPlane c p).input = s.input := by cases c <;> rfl
@[simp] theorem setPlane_events (s : State) (c : Chan) (p : PlaneBuf) : (s.setPlane c p).events = s.events := by cases c <;> rfl
@[simp] theorem setPlane_replies (s : State) (c : Chan) (p : PlaneBuf) : (s.setPlane c p).replies = s.replies := by cases c <;> rfl
@[simp] theorem setPlane_tick (s : State) (c : Chan) (p : PlaneBuf) : (s.setPlane c p).tick = s.tick := by cases c <;> rfl

@[simp] theorem setPlane_plane (s : State) (c c' : Chan) (p : PlaneBuf) :
    (s.setPlane c p).plane c' = if c' = c then p else s.plane c' := by cases c <;> cases c' <;> rfl

@[simp] theorem setPlane_plane_self (s : State) (c : Chan) : s.setPlane c (s.plane c) = s := by cases c <;> rfl

@[simp] theorem start_plane (code : OpCode) (s : State) (c : Chan) : (start code s).plane c = s.plane c := by cases c <;> rfl
@[simp] theorem finish_plane (r : OpResult) (s : State) (c : Chan) : (finish r s).plane c = s.plane c := by cases c <;> rfl
@[simp] theorem raise_plane (e : OpError) (s : State) (c : Chan) : (raise e s).plane c = s.plane c := by cases c <;> rfl
@[simp] theorem resetCore_plane (s : State) (c : Chan) : (resetCore s).plane c = s.plane c := by cases c <;> rfl
@[simp] theorem setStage_plane (op : Operation) (st : Stage) (s : State) (c : Chan) : (setStage op st s).plane c = s.plane c := by cases c <;> rfl

/-- Two states are equal when their planes, read by channel, and all other fields are. -/
theorem State.ext_plane (s t : State) (hp : ∀ c, s.plane c = t.plane c) (hi : s.input = t.input) (hr : s.run = t.run)
    (h1 : s.width = t.width) (h2 : s.height = t.height) (h3 : s.len = t.len) (h4 : s.strideG = t.strideG)
    (h5 : s.strideB = t.strideB) (h6 : s.strideR = t.strideR) (h7 : s.allocFail = t.allocFail)
    (h8 : s.status = t.status) (h9 : s.consumed = t.consumed) (he : s.events = t.events)
    (hq : s.replies = t.replies) (ht : s.tick = t.tick) : s = t := by
  have hg : s.pg = t.pg := hp .g
  have hb : s.pb = t.pb := hp .b
  have hr' : s.pr = t.pr := hp .r
  cases s; cases t; simp_all

@[simp] theorem latch_start (code : OpCode) (s : State) : latch (start code s) = latch s := rfl
@[simp] theorem latch_finish (r : OpResult) (s : State) : latch (finish r s) = latch s := rfl
@[simp] theorem latch_setStage (op : Operation) (st : Stage) (s : State) : latch (setStage op st s) = latch s := rfl
@[simp] theorem latch_setPlane (s : State) (c : Chan) (p : PlaneBuf) : latch (s.setPlane c p) = latch s := by
  cases c <;> rfl

/-! ### withRun -/

/-- The hidden state replaced: the form the laws name `{ s with run := r }` by. -/
def State.withRun (s : State) (r : Option Operation) : State := { s with run := r }

@[simp] theorem withRun_width (r : Option Operation) (s : State) : (s.withRun r).width = s.width := rfl
@[simp] theorem withRun_height (r : Option Operation) (s : State) : (s.withRun r).height = s.height := rfl
@[simp] theorem withRun_len (r : Option Operation) (s : State) : (s.withRun r).len = s.len := rfl
@[simp] theorem withRun_strideG (r : Option Operation) (s : State) : (s.withRun r).strideG = s.strideG := rfl
@[simp] theorem withRun_strideB (r : Option Operation) (s : State) : (s.withRun r).strideB = s.strideB := rfl
@[simp] theorem withRun_strideR (r : Option Operation) (s : State) : (s.withRun r).strideR = s.strideR := rfl
@[simp] theorem withRun_allocFail (r : Option Operation) (s : State) : (s.withRun r).allocFail = s.allocFail := rfl
@[simp] theorem withRun_status (r : Option Operation) (s : State) : (s.withRun r).status = s.status := rfl
@[simp] theorem withRun_consumed (r : Option Operation) (s : State) : (s.withRun r).consumed = s.consumed := rfl
@[simp] theorem withRun_input (r : Option Operation) (s : State) : (s.withRun r).input = s.input := rfl
@[simp] theorem withRun_pg (r : Option Operation) (s : State) : (s.withRun r).pg = s.pg := rfl
@[simp] theorem withRun_pb (r : Option Operation) (s : State) : (s.withRun r).pb = s.pb := rfl
@[simp] theorem withRun_pr (r : Option Operation) (s : State) : (s.withRun r).pr = s.pr := rfl
@[simp] theorem withRun_events (r : Option Operation) (s : State) : (s.withRun r).events = s.events := rfl
@[simp] theorem withRun_replies (r : Option Operation) (s : State) : (s.withRun r).replies = s.replies := rfl
@[simp] theorem withRun_tick (r : Option Operation) (s : State) : (s.withRun r).tick = s.tick := rfl
@[simp] theorem withRun_run (r : Option Operation) (s : State) : (s.withRun r).run = r := rfl
@[simp] theorem withRun_withRun (r r' : Option Operation) (s : State) : (s.withRun r).withRun r' = s.withRun r' := rfl
@[simp] theorem withRun_self (s : State) : s.withRun s.run = s := rfl
@[simp] theorem withRun_latch (r : Option Operation) (s : State) : latch (s.withRun r) = latch s := rfl
@[simp] theorem withRun_inByte (r : Option Operation) (s : State) (a : Nat) : (s.withRun r).inByte a = s.inByte a := rfl
@[simp] theorem withRun_plane (r : Option Operation) (s : State) (c : Chan) : (s.withRun r).plane c = s.plane c := by
  cases c <;> rfl
@[simp] theorem withRun_planeByte (r : Option Operation) (s : State) (c : Chan) (a : Nat) :
    (s.withRun r).planeByte c a = s.planeByte c a := by cases c <;> rfl
@[simp] theorem withRun_setPlane (r : Option Operation) (s : State) (c : Chan) (p : PlaneBuf) :
    (s.withRun r).setPlane c p = (s.setPlane c p).withRun r := by cases c <;> rfl
theorem setStage_eq_withRun (op : Operation) (st : Stage) (s : State) :
    setStage op st s = s.withRun (some ⟨op.code, op.ops, st⟩) := rfl

end Sys2Proof.Machine
end

