-- ==== Sys2Proof/Laws/Ops.lean ====
section
/-! SUPPORT. What the shared operations do, said once: a sample stored, a list of samples stored, a block fetched,
`UNPACK`, an extraction, the check of a `DECODE`, a block performed. Stores are put in one form, `putAll`, whose
effect depends on the set of the stores only. -/

namespace Sys2Proof.Machine

/-! ### Stores of samples -/

/-- One store: plane, slot, sample. -/
abbrev SlotWrite := Chan × Nat × Sample

/-- A sample stored into a slot. -/
def putSlot (s : State) (w : SlotWrite) : State := s.setPlane w.1 ((s.plane w.1).put w.2.1 (slotValue w.2.2))

/-- Samples stored one after the other. -/
def putAll (s : State) (ws : List SlotWrite) : State := ws.foldl putSlot s

/-- No two stores of the list put different samples into one slot. -/
def Consistent (ws : List SlotWrite) : Prop :=
  ∀ c k v v', (c, k, v) ∈ ws → (c, k, v') ∈ ws → v = v'

/-- The slots of all stores exist. -/
def Fits (s : State) (ws : List SlotWrite) : Prop := ∀ w ∈ ws, w.2.1 < (s.plane w.1).slots

@[simp] theorem putAll_nil (s : State) : putAll s [] = s := rfl

@[simp] theorem putAll_cons (s : State) (w : SlotWrite) (ws : List SlotWrite) :
    putAll s (w :: ws) = putAll (putSlot s w) ws := rfl

theorem putAll_append (s : State) (ws vs : List SlotWrite) : putAll s (ws ++ vs) = putAll (putAll s ws) vs := by
  simp [putAll]

theorem putAll_concat (s : State) (ws : List SlotWrite) (w : SlotWrite) :
    putAll s (ws ++ [w]) = putSlot (putAll s ws) w := by simp [putAll]

/-- `t` differs from `s` in the bytes of the planes only. -/
structure OnlyPlaneBytes (s t : State) : Prop where
  width : t.width = s.width
  height : t.height = s.height
  len : t.len = s.len
  strideG : t.strideG = s.strideG
  strideB : t.strideB = s.strideB
  strideR : t.strideR = s.strideR
  allocFail : t.allocFail = s.allocFail
  status : t.status = s.status
  consumed : t.consumed = s.consumed
  run : t.run = s.run
  input : t.input = s.input
  events : t.events = s.events
  replies : t.replies = s.replies
  tick : t.tick = s.tick
  slots : ∀ c, (t.plane c).slots = (s.plane c).slots

theorem OnlyPlaneBytes.refl (s : State) : OnlyPlaneBytes s s := by constructor <;> simp

theorem OnlyPlaneBytes.trans {s t u : State} (h : OnlyPlaneBytes s t) (g : OnlyPlaneBytes t u) :
    OnlyPlaneBytes s u := by
  constructor <;> simp only [g.width, g.height, g.len, g.strideG, g.strideB, g.strideR, g.allocFail, g.status,
    g.consumed, g.run, g.input, g.events, g.replies, g.tick, g.slots, h.width, h.height, h.len, h.strideG, h.strideB,
    h.strideR, h.allocFail, h.status, h.consumed, h.run, h.input, h.events, h.replies, h.tick, h.slots, implies_true]

theorem putSlot_onlyPlaneBytes (s : State) (w : SlotWrite) : OnlyPlaneBytes s (putSlot s w) := by
  constructor <;> simp [putSlot]
  intro c; split <;> simp_all

theorem putAll_onlyPlaneBytes (ws : List SlotWrite) : ∀ s : State, OnlyPlaneBytes s (putAll s ws) := by
  induction ws with
  | nil => exact OnlyPlaneBytes.refl
  | cons w ws ih => exact fun s => (putSlot_onlyPlaneBytes s w).trans (ih _)

/-- Stores touch planes only, so the hidden state can be replaced before or after them. -/
theorem putAll_withRun (ws : List SlotWrite) : ∀ (s : State) (r : Option Operation),
    putAll (s.withRun r) ws = (putAll s ws).withRun r := by
  induction ws with
  | nil => intros; rfl
  | cons w ws ih =>
    intro s r
    rw [putAll_cons, putAll_cons, ← ih]
    obtain ⟨c, k, v⟩ := w
    cases c <;> rfl

/-- A byte after one store. -/
theorem planeByte_putSlot (s : State) (w : SlotWrite) (c : Chan) (a : Nat) :
    (putSlot s w).planeByte c a =
      if c = w.1 ∧ a = 2 * w.2.1 + 1 then some (slotHigh (slotValue w.2.2))
      else if c = w.1 ∧ a = 2 * w.2.1 then some (slotLow (slotValue w.2.2)) else s.planeByte c a := by
  simp only [State.planeByte, putSlot, setPlane_plane]
  by_cases h : c = w.1
  · subst h; simp [PlaneBuf.read_put]
  · simp [h]

/-- A byte that no store of the list touches. -/
theorem planeByte_putAll_other (ws : List SlotWrite) (c : Chan) (a : Nat) : ∀ (s : State),
    (∀ w ∈ ws, w.1 = c → a ≠ 2 * w.2.1 ∧ a ≠ 2 * w.2.1 + 1) → (putAll s ws).planeByte c a = s.planeByte c a := by
  induction ws with
  | nil => intros; rfl
  | cons w ws ih =>
    intro s h
    rw [putAll_cons, ih _ fun x hx => h x (List.mem_cons_of_mem _ hx), planeByte_putSlot]
    have := h w (by simp)
    split
    · simp_all
    · split
      · simp_all
      · rfl

/-- The two bytes of a slot that a store of a consistent list names. -/
theorem planeByte_putAll_mem (ws : List SlotWrite) (c : Chan) (k : Nat) (v : Sample) : ∀ (s : State),
    Consistent ws → (c, k, v) ∈ ws →
    (putAll s ws).planeByte c (2 * k) = some (slotLow (slotValue v)) ∧
      (putAll s ws).planeByte c (2 * k + 1) = some (slotHigh (slotValue v)) := by
  induction ws with
  | nil => intro s _ h; simp at h
  | cons w ws ih =>
    intro s hc h
    have hc' : Consistent ws := fun c k v v' h h' =>
      hc c k v v' (List.mem_cons_of_mem _ h) (List.mem_cons_of_mem _ h')
    by_cases hm : (c, k, v) ∈ ws
    · exact ih _ hc' hm
    · have hw : w = (c, k, v) := by rcases List.mem_cons.mp h with h | h <;> [exact h.symm; exact absurd h hm]
      subst hw
      have hother : ∀ x ∈ ws, x.1 = c → x.2.1 ≠ k := by
        rintro ⟨c', k', v'⟩ hx rfl hk
        dsimp only at hk
        subst hk
        have : v = v' := hc c' k' v v' (by simp) (List.mem_cons_of_mem _ hx)
        exact hm (this ▸ hx)
      constructor
      · rw [putAll_cons, planeByte_putAll_other, planeByte_putSlot]
        · simp
        · intro x hx hcx; have := hother x hx hcx; constructor <;> omega
      · rw [putAll_cons, planeByte_putAll_other, planeByte_putSlot]
        · simp
        · intro x hx hcx; have := hother x hx hcx; constructor <;> omega

/-- The planes of a state are in canonical form. -/
def PlanesOk (s : State) : Prop := ∀ c, PlaneBuf.wf (s.plane c)

theorem putSlot_planesOk {s : State} (h : PlanesOk s) {w : SlotWrite} (hw : w.2.1 < (s.plane w.1).slots) :
    PlanesOk (putSlot s w) := by
  intro c
  simp only [putSlot, setPlane_plane]
  split
  · exact PlaneBuf.wf_put (h _) hw _
  · exact h c

theorem putAll_planesOk (ws : List SlotWrite) : ∀ {s : State}, PlanesOk s → Fits s ws → PlanesOk (putAll s ws) := by
  induction ws with
  | nil => exact fun h _ => h
  | cons w ws ih =>
    intro s h hf
    refine ih (putSlot_planesOk h (hf w (by simp))) fun x hx => ?_
    rw [(putSlot_onlyPlaneBytes s w).slots]
    exact hf x (List.mem_cons_of_mem _ hx)

/-- Two consistent lists of the same stores leave the same planes, whatever their order. -/
theorem putAll_plane_congr {s : State} {ws vs : List SlotWrite} (hs : PlanesOk s) (hf : Fits s ws)
    (hc : Consistent ws) (h : ∀ w, w ∈ ws ↔ w ∈ vs) (c : Chan) : (putAll s ws).plane c = (putAll s vs).plane c := by
  have hfv : Fits s vs := fun w hw => hf w ((h w).mpr hw)
  have hcv : Consistent vs := fun c k v v' g g' => hc c k v v' ((h _).mpr g) ((h _).mpr g')
  refine PlaneBuf.ext_of_wf (putAll_planesOk ws hs hf c) (putAll_planesOk vs hs hfv c)
    (by rw [(putAll_onlyPlaneBytes ws s).slots, (putAll_onlyPlaneBytes vs s).slots]) fun a => ?_
  show (putAll s ws).planeByte c a = (putAll s vs).planeByte c a
  by_cases hk : ∃ v, (c, a / 2, v) ∈ ws
  · obtain ⟨v, hv⟩ := hk
    have h1 := planeByte_putAll_mem ws c (a / 2) v s hc hv
    have h2 := planeByte_putAll_mem vs c (a / 2) v s hcv ((h _).mp hv)
    rcases Nat.mod_two_eq_zero_or_one a with ha | ha
    · rw [show a = 2 * (a / 2) by omega, h1.1, h2.1]
    · rw [show a = 2 * (a / 2) + 1 by omega, h1.2, h2.2]
  · rw [planeByte_putAll_other, planeByte_putAll_other]
    · rintro ⟨c', k, v⟩ hw rfl
      constructor <;> rintro rfl <;> exact hk ⟨v, by
        have := (h _).mpr hw
        first
          | rwa [show 2 * k / 2 = k by omega]
          | rwa [show (2 * k + 1) / 2 = k by omega]⟩
    · rintro ⟨c', k, v⟩ hw rfl
      constructor <;> rintro rfl <;> exact hk ⟨v, by
        first
          | rwa [show 2 * k / 2 = k by omega]
          | rwa [show (2 * k + 1) / 2 = k by omega]⟩

/-! ### The store of a sample, of the samples of a block -/

/-- What `storeSample` does. -/
theorem storeSample_eq (c : Chan) (k : Nat) (v : Sample) (s : State) :
    storeSample c k v s = if k < (s.plane c).slots then .ok (putSlot s (c, k, v)) else .error (.planeTooSmall c) := rfl

/-- The store an entry of a block makes. -/
def entryWrite (o : Operands) (pc : Cursor) (S : Block) (e : Entry) : SlotWrite :=
  (e.chan, slotOf o e.chan pc e.pixel, entrySample e S)

/-- What `storeEntries` does when the slots are there. -/
theorem storeEntries_ok (o : Operands) (pc : Cursor) (S : Block) (es : List Entry) : ∀ s : State,
    Fits s (es.map (entryWrite o pc S)) → storeEntries o pc S es s = .ok (putAll s (es.map (entryWrite o pc S))) := by
  induction es with
  | nil => intros; rfl
  | cons e es ih =>
    intro s h
    have he := h (entryWrite o pc S e) (by simp)
    simp only [entryWrite] at he
    simp only [storeEntries, storeSample_eq, if_pos he, List.map_cons, putAll_cons]
    refine ih _ fun w hw => ?_
    rw [(putSlot_onlyPlaneBytes s _).slots]
    exact h w (by simp [List.mem_map] at hw ⊢; tauto)

/-- When `storeEntries` answers a state, the slots were there, and that is the state. -/
theorem storeEntries_inv {o : Operands} {pc : Cursor} {S : Block} {es : List Entry} : ∀ {s t : State},
    storeEntries o pc S es s = .ok t →
    Fits s (es.map (entryWrite o pc S)) ∧ t = putAll s (es.map (entryWrite o pc S)) := by
  induction es with
  | nil => intro s t h; simp only [storeEntries, Except.ok.injEq] at h; subst h; exact ⟨by simp [Fits], rfl⟩
  | cons e es ih =>
    intro s t h
    simp only [storeEntries, storeSample_eq] at h
    split at h
    · cases h
    · rename_i s' hs'
      split at hs'
      · rename_i hk
        cases hs'
        obtain ⟨hf, rfl⟩ := ih h
        refine ⟨fun w hw => ?_, rfl⟩
        simp only [List.map_cons, List.mem_cons] at hw
        rcases hw with rfl | hw
        · exact hk
        · have := hf w hw
          rwa [(putSlot_onlyPlaneBytes s _).slots] at this
      · cases hs'

/-- `storeEntries` refuses only for a plane without a slot of the block. -/
theorem storeEntries_error {o : Operands} {pc : Cursor} {S : Block} {es : List Entry} {r : Refusal} : ∀ {s : State},
    storeEntries o pc S es s = .error r →
    ∃ e ∈ es, r = .planeTooSmall e.chan ∧ (s.plane e.chan).slots ≤ slotOf o e.chan pc e.pixel := by
  induction es with
  | nil => intro s h; simp [storeEntries] at h
  | cons e es ih =>
    intro s h
    simp only [storeEntries, storeSample_eq] at h
    split at h
    · rename_i r' hs'
      cases h
      split at hs'
      · cases hs'
      · rename_i hk; cases hs'; exact ⟨e, by simp, rfl, by omega⟩
    · rename_i s' hs'
      split at hs'
      · cases hs'
        obtain ⟨e', he', hr, hk⟩ := ih h
        rw [(putSlot_onlyPlaneBytes s _).slots] at hk
        exact ⟨e', by simp [he'], hr, hk⟩
      · cases hs'

/-! ### Fetching a block -/

/-- The 36 bytes at the offset of a cursor are there. -/
def BlockThere (o : Operands) (pc : Cursor) (s : State) : Prop :=
  ∀ k, k < 36 → ∃ b, s.inByte (inOff o pc + k) = some b

/-- The block fetched is made of the 36 bytes at the cursor's offset. -/
theorem fetchBlock_ok {o : Operands} {pc : Cursor} {s : State} (h : BlockThere o pc s) :
    fetchBlock o pc s.input.cells = .ok (Block.ofBytes ((List.range 36).map fun k => (s.inByte (inOff o pc + k)).getD 0)) := by
  have := readBytes_ok s.input.cells 36 (inOff o pc) (fun k => (s.inByte (inOff o pc + k)).getD 0) fun k hk => by
    obtain ⟨b, hb⟩ := h k hk
    simp only [State.inByte] at hb ⊢
    simp [hb]
  simp only [fetchBlock, Config.blockBytes, this]

/-- When a block is fetched its bytes are there. -/
theorem fetchBlock_there {o : Operands} {pc : Cursor} {s : State} {S : Block} (h : fetchBlock o pc s.input.cells = .ok S) :
    BlockThere o pc s := by
  simp only [fetchBlock, Config.blockBytes] at h
  split at h
  · cases h
  · rename_i bs hbs
    exact readBytes_there s.input.cells 36 (inOff o pc) bs hbs

/-- A fetch is refused only for a byte of the block that is not there. -/
theorem fetchBlock_error {o : Operands} {pc : Cursor} {s : State} {r : Refusal} (h : fetchBlock o pc s.input.cells = .error r) :
    ∃ a, r = .inputMissing a ∧ s.inByte a = none ∧ inOff o pc ≤ a ∧ a < inOff o pc + 36 := by
  simp only [fetchBlock, Config.blockBytes] at h
  split at h
  · rename_i a ha
    cases h
    have := readBytes_error s.input.cells 36 (inOff o pc) a ha
    exact ⟨a, rfl, this⟩
  · cases h

/-! ### UNPACK and EXT -/

theorem unpacking_eq_some {s : State} {o : Operands} {pc : Cursor} {pending : List PendingBlock} :
    unpacking s = some (o, pc, pending) ↔ s.run = some ⟨.decode, o, .blocks pc pending⟩ := by
  rcases hr : s.run with _ | ⟨code, o', st⟩
  · simp [unpacking, hr]
  · cases code <;> cases st <;> simp [unpacking, hr]

/-- The 24 stores of a block. -/
def blockWrites (o : Operands) (pc : Cursor) (S : Block) : List SlotWrite := unpackOrder.map (entryWrite o pc S)

/-- What `UNPACK` does when the slots of the block are there. -/
theorem execUnpack_ok {S : Block} {s : State} {o : Operands} {pc : Cursor} {pending : List PendingBlock}
    (h : s.run = some ⟨.decode, o, .blocks pc pending⟩) (hf : Fits s (blockWrites o pc S)) :
    execUnpack S s =
      .next ((putAll s (blockWrites o pc S)).withRun
        (some ⟨.decode, o, .blocks (pc.next o) (blockDone pc pending)⟩)) := by
  simp only [execUnpack, unpacking_eq_some.mpr h, storeEntries_ok o pc S unpackOrder s hf]
  rfl

/-- When `UNPACK` answers a state, a block was selected, its slots were there, and that is the state. -/
theorem execUnpack_inv {S : Block} {s t : State} (h : execUnpack S s = .next t) :
    ∃ o pc pending, s.run = some ⟨.decode, o, .blocks pc pending⟩ ∧ Fits s (blockWrites o pc S) ∧
      t = (putAll s (blockWrites o pc S)).withRun
        (some ⟨.decode, o, .blocks (pc.next o) (blockDone pc pending)⟩) := by
  simp only [execUnpack] at h
  split at h
  · cases h
  · rename_i o pc pending hu
    split at h
    · cases h
    · rename_i s' hs'
      obtain ⟨hf, rfl⟩ := storeEntries_inv hs'
      simp only [Host.Outcome.next.injEq] at h
      exact ⟨o, pc, pending, unpacking_eq_some.mp hu, hf, h.symm⟩

/-- What an extraction does when its two bytes and its slot are there. -/
theorem extract_ok {e : Entry} {s : State} {o : Operands} {pc : Cursor} {pending : List PendingBlock} {x y : Byte}
    (h : s.run = some ⟨.decode, o, .blocks pc pending⟩)
    (hx : s.inByte (inOff o pc + pieceIndex e.lo) = some x) (hy : s.inByte (inOff o pc + pieceIndex e.hi) = some y)
    (hk : slotOf o e.chan pc e.pixel < (s.plane e.chan).slots) :
    extract e s =
      .next ((putSlot s (e.chan, slotOf o e.chan pc e.pixel, entryValue e x y)).withRun
        (some ⟨.decode, o, .blocks pc (laneDone pc (sampleId e.chan e.pixel) pending)⟩)) := by
  simp only [extract, unpacking_eq_some.mpr h, hx, hy, storeSample_eq, if_pos hk]
  rfl

/-- When an extraction answers a state, a block was selected, its bytes and its slot were there, and that is the
state. -/
theorem extract_inv {e : Entry} {s t : State} (h : extract e s = .next t) :
    ∃ o pc pending x y, s.run = some ⟨.decode, o, .blocks pc pending⟩ ∧
      s.inByte (inOff o pc + pieceIndex e.lo) = some x ∧ s.inByte (inOff o pc + pieceIndex e.hi) = some y ∧
      slotOf o e.chan pc e.pixel < (s.plane e.chan).slots ∧
      t = (putSlot s (e.chan, slotOf o e.chan pc e.pixel, entryValue e x y)).withRun
        (some ⟨.decode, o, .blocks pc (laneDone pc (sampleId e.chan e.pixel) pending)⟩) := by
  simp only [extract] at h
  split at h
  · cases h
  · rename_i o pc pending hu
    split at h
    · cases h
    · rename_i x hx
      split at h
      · cases h
      · rename_i y hy
        split at h
        · cases h
        · rename_i s' hs'
          rw [storeSample_eq] at hs'
          split at hs'
          · rename_i hk
            cases hs'
            simp only [Host.Outcome.next.injEq] at h
            exact ⟨o, pc, pending, x, y, unpacking_eq_some.mp hu, hx, hy, hk, h.symm⟩
          · cases hs'

/-! ### The check of a DECODE -/

/-- No listed plane breaks a duty exactly when each has its stride and its slots. -/
theorem brokenPlane_eq_none (o : Operands) (s : State) (cs : List Chan) :
    brokenPlane o s cs = none ↔
      ∀ c ∈ cs, (o.width.toNat ≤ o.stride c ∨ o.height.toNat ≤ 1) ∧ neededSlots o c ≤ (s.plane c).slots := by
  induction cs with
  | nil => simp [brokenPlane]
  | cons c cs ih =>
    simp only [brokenPlane, List.forall_mem_cons]
    split
    · simp; omega
    · split
      · simp; omega
      · rw [ih]
        constructor
        · intro h; exact ⟨⟨by omega, by omega⟩, h⟩
        · intro h; exact h.2

/-- The refusal of a plane that breaks a duty names it. -/
theorem brokenPlane_eq_some {o : Operands} {s : State} {cs : List Chan} {r : Refusal} (h : brokenPlane o s cs = some r) :
    (∃ c ∈ cs, r = .strideBelowWidth c ∧ o.stride c < o.width.toNat ∧ 1 < o.height.toNat) ∨
      ∃ c ∈ cs, r = .planeTooSmall c ∧ (s.plane c).slots < neededSlots o c := by
  induction cs with
  | nil => simp [brokenPlane] at h
  | cons c cs ih =>
    simp only [brokenPlane] at h
    split at h
    · rename_i hc; cases h; exact .inl ⟨c, by simp, rfl, hc⟩
    · split at h
      · rename_i hc; cases h; exact .inr ⟨c, by simp, rfl, hc⟩
      · rcases ih h with ⟨d, hd, g⟩ | ⟨d, hd, g⟩
        · exact .inl ⟨d, by simp [hd], g⟩
        · exact .inr ⟨d, by simp [hd], g⟩

/-- No duty of the host is broken exactly when `IN` has its readable bytes and every plane its stride and its slots. -/
theorem brokenDuty_eq_none (o : Operands) (s : State) :
    brokenDuty o s = none ↔ o.len.toNat ≤ s.input.size ∧
      ∀ c : Chan, (o.width.toNat ≤ o.stride c ∨ o.height.toNat ≤ 1) ∧ neededSlots o c ≤ (s.plane c).slots := by
  simp only [brokenDuty]
  split
  · simp; omega
  · rw [brokenPlane_eq_none]
    constructor
    · intro h; exact ⟨by omega, fun c => h c (by cases c <;> simp)⟩
    · intro h c _; exact h.2 c

/-- The refusal of a broken duty names it. -/
theorem brokenDuty_eq_some {o : Operands} {s : State} {r : Refusal} (h : brokenDuty o s = some r) :
    (r = .inputTooShort s.input.size ∧ s.input.size < o.len.toNat) ∨
      (∃ c, r = .strideBelowWidth c ∧ o.stride c < o.width.toNat ∧ 1 < o.height.toNat) ∨
      ∃ c, r = .planeTooSmall c ∧ (s.plane c).slots < neededSlots o c := by
  simp only [brokenDuty] at h
  split at h
  · rename_i hl; cases h; exact .inl ⟨rfl, hl⟩
  · rcases brokenPlane_eq_some h with ⟨c, _, g⟩ | ⟨c, _, g⟩
    · exact .inr (.inl ⟨c, g⟩)
    · exact .inr (.inr ⟨c, g⟩)

/-- The check of the duties looks at the extent of the four spaces only. -/
theorem brokenDuty_congr {o : Operands} {s t : State} (hi : t.input.size = s.input.size)
    (h : ∀ c, (t.plane c).slots = (s.plane c).slots) : brokenDuty o t = brokenDuty o s := by
  simp only [brokenDuty, brokenPlane, hi, h]

/-- The blocks of a frame, in the reference order: as many as the frame has, all of its positions, each once, nothing
of them written. -/
theorem mem_allBlocks {o : Operands} {b : PendingBlock} :
    b ∈ allBlocks o ↔ b.pos.row < o.height.toNat ∧ b.pos.blk < blocksPerLine o.width ∧ b.lanes = allLanes := by
  obtain ⟨⟨row, blk⟩, lanes⟩ := b
  simp only [allBlocks, List.mem_flatMap, List.mem_map, List.mem_range, PendingBlock.mk.injEq, Cursor.mk.injEq]
  constructor
  · rintro ⟨r, hr, b, hb, ⟨rfl, rfl⟩, rfl⟩; exact ⟨hr, hb, rfl⟩
  · rintro ⟨hr, hb, rfl⟩; exact ⟨row, hr, blk, hb, ⟨rfl, rfl⟩, rfl⟩

theorem length_allBlocks (o : Operands) : (allBlocks o).length = o.height.toNat * blocksPerLine o.width := by
  simp [allBlocks]

theorem allBlocks_pairwise (o : Operands) : (allBlocks o).Pairwise fun a b => a.pos ≠ b.pos := by
  simp only [allBlocks]
  rw [List.pairwise_flatMap]
  constructor
  · intro r _
    rw [List.pairwise_map]
    exact List.nodup_range.imp fun h => by simp [h]
  · exact List.nodup_range.imp fun h x hx y hy => by
      simp only [List.mem_map, List.mem_range] at hx hy
      obtain ⟨_, _, rfl⟩ := hx
      obtain ⟨_, _, rfl⟩ := hy
      simp [h]

/-! ### A block performed -/

theorem selectBlock_eq {pos pc : Cursor} {s : State} {code : OpCode} {o : Operands} {pending : List PendingBlock}
    (h : s.run = some ⟨code, o, .blocks pc pending⟩) :
    selectBlock pos s = s.withRun (some ⟨code, o, .blocks pos pending⟩) := by
  simp only [selectBlock, h, State.withRun]

/-- What performing a block does when its bytes and its slots are there. -/
theorem performBlock_ok {o : Operands} {pos pc : Cursor} {s : State} {pending : List PendingBlock} {S : Block}
    (h : s.run = some ⟨.decode, o, .blocks pc pending⟩) (hS : fetchBlock o pos s.input.cells = .ok S)
    (hf : Fits s (blockWrites o pos S)) :
    performBlock o pos s =
      .next ((putAll s (blockWrites o pos S)).withRun
        (some ⟨.decode, o, .blocks (pos.next o) (blockDone pos pending)⟩)) := by
  simp only [performBlock, hS, selectBlock_eq h]
  rw [execUnpack_ok (withRun_run _ _) fun w hw => by rw [withRun_plane]; exact hf w hw, putAll_withRun,
    withRun_withRun]

end Sys2Proof.Machine
end

