-- ==== Sys2Proof/Laws/Table.lean ====
section
/-! SUPPORT. Facts about the bytes of a block and the extraction table: the bits of a block made of bytes, the two
bytes of a slot, the table's order and ids, the stores of a block by channel and pixel. -/

namespace Sys2Proof

/-- Bit `8k + i` of a block made of bytes is bit `i` of byte `k`. -/
theorem ofBytes_bit : ∀ (bs : List Byte) (k i : Nat), bs.length ≤ 36 → i < 8 →
    (Block.ofBytes bs).getLsbD (8 * k + i) = (bs.getD k 0).getLsbD i
  | [], k, i, _, _ => by simp [Block.ofBytes]
  | b :: bs, k, i, hl, hi => by
    simp only [Block.ofBytes, BitVec.getLsbD_or, BitVec.getLsbD_setWidth, BitVec.getLsbD_shiftLeft]
    simp only [List.length_cons] at hl
    cases k with
    | zero => simp [hi, show i < 288 by omega]
    | succ k =>
      rw [BitVec.getLsbD_of_ge b _ (by omega), show 8 * (k + 1) + i - 8 = 8 * k + i by omega,
        ofBytes_bit bs k i (by omega) hi]
      simp only [show ¬8 * (k + 1) + i < 8 by omega, decide_false, Bool.and_false, Bool.not_false, Bool.and_true,
        Bool.false_or, List.getD_cons_succ]
      by_cases hk : k < bs.length
      · simp [show 8 * (k + 1) + i < 288 by omega]
      · simp [List.getElem?_eq_none (Nat.le_of_not_lt hk)]

/-- Byte `k` of a block made of bytes is byte `k` of the list. -/
theorem byteAt_ofBytes (bs : List Byte) (hl : bs.length ≤ 36) (k : Nat) :
    (Block.ofBytes bs).byteAt k = bs.getD k 0 := by
  apply BitVec.eq_of_getLsbD_eq
  intro i hi
  rw [← ofBytes_bit bs k i hl hi]
  simp [Block.byteAt, hi]

@[simp] theorem toBytes_length (S : Block) : (Block.toBytes S).length = 36 := by simp [Block.toBytes]

end Sys2Proof

namespace Sys2Proof.Machine

/-- Bytes written are read back. -/
theorem readBytes_writeBytes (m : Memory) (a : Nat) (bs : List Byte) :
    readBytes (writeBytes m a bs) a bs.length = .ok bs := by
  rw [readBytes_ok (writeBytes m a bs) bs.length a fun k => bs.getD k 0]
  · congr 1
    exact List.ext_getElem (by simp) fun i h1 h2 => by simp [h2]
  · intro k hk
    rw [read_writeBytes, dif_pos (by omega)]
    simp [hk]

/-- The low byte of a stored sample. -/
theorem slotLow_slotValue (v : Sample) : slotLow (slotValue v) = v.extractLsb' 0 8 := by
  apply BitVec.eq_of_getLsbD_eq
  intro i hi
  simp [slotLow, slotValue, hi]
  omega

/-- The high byte of a stored sample. -/
theorem slotHigh_slotValue (v : Sample) : slotHigh (slotValue v) = (v.extractLsb' 8 4).setWidth 8 := by
  apply BitVec.eq_of_getLsbD_eq
  intro i hi
  simp only [slotHigh, slotValue, BitVec.getLsbD_extractLsb', BitVec.getLsbD_setWidth, hi, decide_true, Bool.true_and]
  rcases Nat.lt_or_ge i 4 with h | h
  · simp [h]; intro; omega
  · rw [BitVec.getLsbD_of_ge _ _ (by omega)]; simp [show ¬i < 4 by omega]

/-- The value of a Form A entry (spec/30_encoding.md R54). -/
theorem entryValue_formA (c : Chan) (p : Fin 8) (w1 w2 : Fin 9) (b1 b2 : Fin 4) (x y : Byte) :
    entryValue (formA c p w1 b1 w2 b2) x y = x.setWidth 12 ||| ((lowNibble y).setWidth 12 <<< 8) := by
  simp [entryValue, formA, piecePart, selTake]

/-- The value of a Form B entry (spec/30_encoding.md R55). -/
theorem entryValue_formB (c : Chan) (p : Fin 8) (w1 w2 : Fin 9) (b1 b2 : Fin 4) (x y : Byte) :
    entryValue (formB c p w1 b1 w2 b2) x y = (highNibble x).setWidth 12 ||| (y.setWidth 12 <<< 4) := by
  simp [entryValue, formB, piecePart, selTake]

/-- An entry reads bytes of its block. -/
theorem pieceIndex_lt (p : Piece) : pieceIndex p < 36 := by
  simp only [pieceIndex]; omega

/-- Every channel and pixel has its entry among those `UNPACK` performs. -/
theorem unpackOrder_complete (c : Chan) (p : Fin 8) :
    ∃ e ∈ unpackOrder, e.chan = c ∧ e.pixel = p ∧ entryOf (sampleId c p) = some e := by
  have : ∀ p : Fin 8, ∀ c ∈ [Chan.g, .b, .r],
      ∃ e ∈ unpackOrder, e.chan = c ∧ e.pixel = p ∧ entryOf (sampleId c p) = some e := by decide +kernel
  exact this p c (by cases c <;> simp)

/-- An entry `UNPACK` performs is the entry of its sample id. -/
theorem unpackOrder_entryOf : ∀ e ∈ unpackOrder, entryOf (sampleId e.chan e.pixel) = some e := by decide +kernel

/-- The sample of an entry `UNPACK` performs. -/
theorem blockSample_entry {e : Entry} (he : e ∈ unpackOrder) (S : Block) :
    blockSample S e.chan e.pixel = entrySample e S := by
  simp only [blockSample, unpackOrder_entryOf e he]

/-- The stores of a block, by channel and pixel. -/
theorem mem_blockWrites {o : Operands} {pc : Cursor} {S : Block} {c : Chan} {k : Nat} {v : Sample} :
    (c, k, v) ∈ blockWrites o pc S ↔ ∃ p, k = slotOf o c pc p ∧ v = blockSample S c p := by
  simp only [blockWrites, List.mem_map, entryWrite, Prod.mk.injEq]
  constructor
  · rintro ⟨e, he, rfl, rfl, rfl⟩
    exact ⟨e.pixel, rfl, (blockSample_entry he S).symm⟩
  · rintro ⟨p, rfl, rfl⟩
    obtain ⟨e, he, rfl, rfl, _⟩ := unpackOrder_complete c p
    exact ⟨e, he, rfl, rfl, (blockSample_entry he S).symm⟩

/-- The slots of the pixels of one block differ. -/
theorem slotOf_pixel_inj {o : Operands} {c : Chan} {pc : Cursor} {p p' : Fin 8}
    (h : slotOf o c pc p = slotOf o c pc p') : p = p' := by
  simp only [slotOf] at h; ext; omega

/-- The stores of one block agree. -/
theorem blockWrites_consistent (o : Operands) (pc : Cursor) (S : Block) : Consistent (blockWrites o pc S) := by
  intro c k v v' h h'
  obtain ⟨p, rfl, rfl⟩ := mem_blockWrites.mp h
  obtain ⟨p', hk, rfl⟩ := mem_blockWrites.mp h'
  rw [slotOf_pixel_inj hk]

/-- The stores of a block fit when its slots are there. -/
theorem fits_blockWrites {s : State} {o : Operands} {pc : Cursor} {S : Block}
    (h : ∀ c p, slotOf o c pc p < (s.plane c).slots) : Fits s (blockWrites o pc S) := by
  intro w hw
  have hw' : (w.1, w.2.1, w.2.2) ∈ blockWrites o pc S := hw
  obtain ⟨p, hk, _⟩ := mem_blockWrites.mp hw'
  rw [hk]
  exact h w.1 p

/-- The slots of a block are there when its stores fit. -/
theorem slots_of_fits {s : State} {o : Operands} {pc : Cursor} {S : Block} (h : Fits s (blockWrites o pc S))
    (c : Chan) (p : Fin 8) : slotOf o c pc p < (s.plane c).slots :=
  h (c, slotOf o c pc p, blockSample S c p) (mem_blockWrites.mpr ⟨p, rfl, rfl⟩)

/-- The block at an offset depends on `IN` only. -/
theorem inputBlock_congr {s t : State} (h : t.input = s.input) (off : Nat) : inputBlock t off = inputBlock s off := by
  simp only [inputBlock, State.inByte, h]

/-- The block fetched at a cursor is the block of the 36 bytes there. -/
theorem fetchBlock_inputBlock {o : Operands} {pc : Cursor} {s : State} (h : BlockThere o pc s) :
    fetchBlock o pc s.input.cells = .ok (inputBlock s (inOff o pc)) := fetchBlock_ok h

/-- An entry's sample in the block of `IN` is its value from its two bytes of `IN`. -/
theorem entrySample_inputBlock {s : State} {off : Nat} {e : Entry} {x y : Byte}
    (hx : s.inByte (off + pieceIndex e.lo) = some x) (hy : s.inByte (off + pieceIndex e.hi) = some y) :
    entrySample e (inputBlock s off) = entryValue e x y := by
  have h1 := pieceIndex_lt e.lo
  have h2 := pieceIndex_lt e.hi
  simp only [entrySample, inputBlock]
  rw [byteAt_ofBytes _ (by simp), byteAt_ofBytes _ (by simp)]
  simp [h1, h2, hx, hy]

/-- `exec` of an extraction whose sample id is `id` performs the entry of that id. -/
theorem exec_sample {id : SampleId} {i : Instr} (h : decode (.sample id) = .ok i) :
    ∃ e ∈ unpackOrder, entryOf id = some e ∧ sampleId e.chan e.pixel = id ∧ ∀ s, exec i s = extract e s := by
  obtain ⟨n, rfl⟩ : ∃ n : Fin 32, id = BitVec.ofFin n := ⟨id.toFin, rfl⟩
  fin_cases n <;> first
    | (cases h; exact ⟨_, by decide, rfl, rfl, fun _ => rfl⟩)
    | cases h

/-- `exec` of `UNPACK`. -/
theorem exec_unpack (S : Block) (s : State) : exec (.unpack S) s = execUnpack S s := by rw [exec]

/-- A state's planes are in canonical form when its memory is. -/
theorem planesOk_of_memoryOk {s : State} (h : s.MemoryOk) : PlanesOk s := by
  intro c; cases c; exacts [h.2.1, h.2.2.1, h.2.2.2]

/-- Memory after reset is in canonical form. -/
theorem reset_memoryOk : State.reset.MemoryOk := by
  refine ⟨⟨List.Pairwise.nil, ?_⟩, ⟨List.Pairwise.nil, ?_⟩, ⟨List.Pairwise.nil, ?_⟩, ⟨List.Pairwise.nil, ?_⟩⟩ <;>
    · intro x hx; cases hx

end Sys2Proof.Machine
end

