-- ==== Sys2Proof/Laws/Frame.lean ====
section
/-! SUPPORT. What performing a list of blocks does, said once: the stores of its blocks, in a frame whose bytes and
slots are there; and what it tells when it answers or refuses. -/

namespace Sys2Proof.Machine

/-- The stores of the listed blocks, taken from the `IN` of `s`. -/
def frameWrites (o : Operands) (s : State) (bs : List PendingBlock) : List SlotWrite :=
  bs.flatMap fun b => blockWrites o b.pos (inputBlock s (inOff o b.pos))

@[simp] theorem frameWrites_nil (o : Operands) (s : State) : frameWrites o s [] = [] := rfl

theorem frameWrites_cons (o : Operands) (s : State) (b : PendingBlock) (bs : List PendingBlock) :
    frameWrites o s (b :: bs) = blockWrites o b.pos (inputBlock s (inOff o b.pos)) ++ frameWrites o s bs := rfl

/-- The stores depend on `IN` only. -/
theorem frameWrites_congr {s t : State} (h : t.input = s.input) (o : Operands) (bs : List PendingBlock) :
    frameWrites o t bs = frameWrites o s bs := by
  simp only [frameWrites, inputBlock_congr h]

/-- A store of the frame is the store of a channel and pixel of one of its blocks. -/
theorem mem_frameWrites {o : Operands} {s : State} {bs : List PendingBlock} {c : Chan} {k : Nat} {v : Sample} :
    (c, k, v) ∈ frameWrites o s bs ↔
      ∃ b ∈ bs, ∃ p, k = slotOf o c b.pos p ∧ v = blockSample (inputBlock s (inOff o b.pos)) c p := by
  simp only [frameWrites, List.mem_flatMap, mem_blockWrites]

/-- The bytes of a block there in one state are there in every state with the same `IN`. -/
theorem BlockThere.congr {o : Operands} {pc : Cursor} {s t : State} (h : BlockThere o pc s) (hi : t.input = s.input) :
    BlockThere o pc t := by
  intro k hk
  obtain ⟨b, hb⟩ := h k hk
  exact ⟨b, by simp only [State.inByte] at hb ⊢; rw [hi]; exact hb⟩

/-- What performing a list of blocks does when their bytes and slots are there. -/
theorem performBlocks_ok {o : Operands} (bs : List PendingBlock) : ∀ {s : State} {pc : Cursor}
    {pending : List PendingBlock}, s.run = some ⟨.decode, o, .blocks pc pending⟩ →
    (∀ b ∈ bs, BlockThere o b.pos s) → (∀ b ∈ bs, ∀ c p, slotOf o c b.pos p < (s.plane c).slots) →
    ∃ pc' pending', performBlocks o bs s =
      .next ((putAll s (frameWrites o s bs)).withRun (some ⟨.decode, o, .blocks pc' pending'⟩)) := by
  induction bs with
  | nil =>
    intro s pc pending h _ _
    exact ⟨pc, pending, by rw [← h]; rfl⟩
  | cons b bs ih =>
    intro s pc pending h ht hs
    have hop := putAll_onlyPlaneBytes (blockWrites o b.pos (inputBlock s (inOff o b.pos))) s
    have h1 := performBlock_ok h (fetchBlock_inputBlock (ht b (by simp)))
      (fits_blockWrites (hs b (by simp)))
    obtain ⟨pc', pending', h2⟩ := ih (s := (putAll s (blockWrites o b.pos (inputBlock s (inOff o b.pos)))).withRun
        (some ⟨.decode, o, .blocks (b.pos.next o) (blockDone b.pos pending)⟩)) (withRun_run _ _)
      (fun b' hb' => (ht b' (by simp [hb'])).congr (by rw [withRun_input, hop.input]))
      (fun b' hb' c p => by rw [withRun_plane, hop.slots]; exact hs b' (by simp [hb']) c p)
    refine ⟨pc', pending', ?_⟩
    simp only [performBlocks, h1]
    rw [h2, putAll_withRun, withRun_withRun, frameWrites_cons, putAll_append,
      frameWrites_congr (s := s) (by rw [withRun_input, hop.input])]

/-- When performing a list of blocks answers a state, their bytes and slots were there; when it refuses, the refusal
names a byte of one of them or a plane without a slot of one of them. -/
theorem performBlocks_inv {o : Operands} (bs : List PendingBlock) : ∀ {s : State} {pc : Cursor}
    {pending : List PendingBlock}, s.run = some ⟨.decode, o, .blocks pc pending⟩ →
    (∃ t, performBlocks o bs s = .next t ∧ (∀ b ∈ bs, BlockThere o b.pos s) ∧
      ∀ b ∈ bs, ∀ c p, slotOf o c b.pos p < (s.plane c).slots) ∨
    (∃ a, performBlocks o bs s = .refused (.inputMissing a) ∧ s.inByte a = none ∧
      ∃ b ∈ bs, inOff o b.pos ≤ a ∧ a < inOff o b.pos + 36) ∨
    ∃ c, performBlocks o bs s = .refused (.planeTooSmall c) ∧
      ∃ b ∈ bs, ∃ p, (s.plane c).slots ≤ slotOf o c b.pos p := by
  induction bs with
  | nil => intro s pc pending _; exact .inl ⟨s, rfl, by simp, by simp⟩
  | cons b bs ih =>
    intro s pc pending h
    rcases hf : fetchBlock o b.pos s.input.cells with r | S
    · obtain ⟨a, rfl, ha, hb⟩ := fetchBlock_error hf
      exact .inr (.inl ⟨a, by simp only [performBlocks, performBlock, hf], ha, b, by simp, hb⟩)
    · have ht := fetchBlock_there hf
      by_cases hs : ∀ c p, slotOf o c b.pos p < (s.plane c).slots
      · have h1 := performBlock_ok h hf (fits_blockWrites hs)
        have hop := putAll_onlyPlaneBytes (blockWrites o b.pos S) s
        have hin : ((putAll s (blockWrites o b.pos S)).withRun
            (some ⟨.decode, o, .blocks (b.pos.next o) (blockDone b.pos pending)⟩)).input = s.input := by
          rw [withRun_input, hop.input]
        simp only [performBlocks, h1]
        rcases ih (s := (putAll s (blockWrites o b.pos S)).withRun
          (some ⟨.decode, o, .blocks (b.pos.next o) (blockDone b.pos pending)⟩)) (withRun_run _ _) with
          ⟨t, h2, h3, h4⟩ | ⟨a, h2, h3, b', hb', h4⟩ | ⟨c, h2, b', hb', p, h3⟩
        · refine .inl ⟨t, h2, ?_, ?_⟩
          · intro b' hb'
            rcases List.mem_cons.mp hb' with rfl | hb'
            · exact ht
            · exact (h3 b' hb').congr hin.symm
          · intro b' hb' c p
            rcases List.mem_cons.mp hb' with rfl | hb'
            · exact hs c p
            · have := h4 b' hb' c p
              rwa [withRun_plane, hop.slots] at this
        · refine .inr (.inl ⟨a, h2, ?_, b', by simp [hb'], h4⟩)
          rwa [withRun_inByte, State.inByte, hop.input] at h3
        · refine .inr (.inr ⟨c, h2, b', by simp [hb'], p, ?_⟩)
          rwa [withRun_plane, hop.slots] at h3
      · have hno : performBlock o b.pos s ≠ .next s ∧ ∃ e ∈ unpackOrder, performBlock o b.pos s =
            .refused (.planeTooSmall e.chan) ∧ (s.plane e.chan).slots ≤ slotOf o e.chan b.pos e.pixel := by
          have hr : ∃ r, storeEntries o b.pos S unpackOrder (selectBlock b.pos s) = .error r := by
            rcases hst : storeEntries o b.pos S unpackOrder (selectBlock b.pos s) with r | t
            · exact ⟨r, rfl⟩
            · refine absurd (fun c p => ?_) hs
              have := slots_of_fits (storeEntries_inv hst).1 c p
              rwa [selectBlock_eq h, withRun_plane] at this
          obtain ⟨r, hr⟩ := hr
          obtain ⟨e, he, rfl, hk⟩ := storeEntries_error hr
          have hp : performBlock o b.pos s = .refused (.planeTooSmall e.chan) := by
            have hu : unpacking (selectBlock b.pos s) = some (o, b.pos, pending) := by
              rw [unpacking_eq_some, selectBlock_eq h, withRun_run]
            simp only [performBlock, hf, execUnpack, hu, hr]
          rw [selectBlock_eq h, withRun_plane] at hk
          exact ⟨by rw [hp]; simp, e, he, hp, hk⟩
        obtain ⟨-, e, -, h1, h2⟩ := hno
        exact .inr (.inr ⟨e.chan, by simp only [performBlocks, h1], b, by simp, e.pixel, h2⟩)

end Sys2Proof.Machine
end

