-- ==== Sys2Proof/Laws/Fetch.lean ====
section
/-! SUPPORT. What comes next, said once per case; pending work taken off; the operations on the hidden state beside
stores. -/

namespace Sys2Proof.Machine

/-! ### What comes next -/

theorem nextMove_event {s : State} {e : Event} {rest : List Event} (h : s.events = e :: rest) :
    nextMove s = eventMove e { s with events := rest } := by simp only [nextMove, h]

theorem nextMove_free {s : State} (h : s.events = []) (hr : s.run ≠ none) :
    nextMove s = coreMove (Config.blockChoice s.tick) { s with tick := s.tick + 1 } := by
  obtain ⟨op, ho⟩ := Option.ne_none_iff_exists'.mp hr
  simp only [nextMove, h, ho]
  rfl

/-- A core whose check is done performs the block its choice picks; one with nothing pending ends. -/
theorem coreMove_blocks {s : State} {code : OpCode} {o : Operands} {pc : Cursor} {pending : List PendingBlock}
    (n : Nat) (h : s.run = some ⟨code, o, .blocks pc pending⟩) :
    coreMove n s =
      match pending with
      | [] => .settle (finish (decodeSuccess o) s)
      | b :: bs => fetchWork o (pickBlock n b bs) s := by
  cases pending <;> simp only [coreMove, h]

/-- The move of one sample: that sample where one is pending, else the core's move. -/
theorem laneMove_cases (n m : Nat) (s : State) :
    (∃ o pc b bs id, s.run = some ⟨.decode, o, .blocks pc (b :: bs)⟩ ∧ id ∈ (pickBlock n b bs).lanes ∧
      laneMove n m s = .perform (.sample id) (selectBlock (pickBlock n b bs).pos s)) ∨
    laneMove n m s = coreMove n s := by
  rcases hu : unpacking s with _ | ⟨o, pc, _ | ⟨b, bs⟩⟩
  · exact .inr (by simp only [laneMove, hu])
  · exact .inr (by simp only [laneMove, hu])
  · rcases hl : pickLane m (pickBlock n b bs).lanes with _ | id
    · exact .inr (by simp only [laneMove, hu, hl])
    · exact .inl ⟨o, pc, b, bs, id, unpacking_eq_some.mp hu, List.mem_of_getElem? hl, by simp only [laneMove, hu, hl]⟩

/-- The block a number picks is one of the pending ones. -/
theorem pickBlock_mem (n : Nat) (b : PendingBlock) (bs : List PendingBlock) : pickBlock n b bs ∈ b :: bs := by
  rw [pickBlock, List.getD_eq_getElem _ _ (Nat.mod_lt n (by simp))]
  exact List.getElem_mem _

/-- The sample a number picks is one of those still to be written; there is one where any is. -/
theorem pickLane_mem {m : Nat} {lanes : List SampleId} {id : SampleId} (h : pickLane m lanes = some id) :
    id ∈ lanes := List.mem_of_getElem? h

theorem pickLane_isSome (m : Nat) {lanes : List SampleId} (h : lanes ≠ []) : ∃ id, pickLane m lanes = some id :=
  ⟨_, List.getElem?_eq_getElem (Nat.mod_lt m (List.length_pos_iff.mpr h))⟩

/-! ### Pending work -/

theorem mem_blockDone {pos : Cursor} {pending : List PendingBlock} {b : PendingBlock} :
    b ∈ blockDone pos pending ↔ b ∈ pending ∧ b.pos ≠ pos := by simp [blockDone]

theorem mem_laneDone {pos : Cursor} {id : SampleId} {pending : List PendingBlock} {b : PendingBlock} :
    b ∈ laneDone pos id pending ↔ (b ∈ pending ∧ b.pos ≠ pos) ∨
      (b.pos = pos ∧ ∃ b' ∈ pending, b'.pos = pos ∧ b.lanes = b'.lanes.filter (fun l => !(l == id)) ∧ b.lanes ≠ []) := by
  simp only [laneDone, List.mem_filterMap]
  constructor
  · rintro ⟨b', hb', h⟩
    split at h
    · rename_i hp
      split at h
      · cases h
      · rename_i l ls hl
        cases h
        exact .inr ⟨rfl, b', hb', hp, hl.symm, by simp⟩
    · rename_i hp
      cases h
      exact .inl ⟨hb', hp⟩
  · rintro (⟨h1, h2⟩ | ⟨h1, b', hb', h2, h3, h4⟩)
    · exact ⟨b, h1, if_neg h2⟩
    · refine ⟨b', hb', ?_⟩
      rw [if_pos h2, ← h3]
      obtain ⟨p, l⟩ := b
      cases l with
      | nil => simp at h4
      | cons l ls => cases h1; rfl

/-! ### Stores beside the hidden state -/

/-- The End step and stores can be taken in either order. -/
theorem finish_putAll (r : OpResult) (ws : List SlotWrite) : ∀ s : State,
    finish r (putAll s ws) = putAll (finish r s) ws := by
  induction ws with
  | nil => intros; rfl
  | cons w ws ih =>
    intro s
    rw [putAll_cons, putAll_cons, ih]
    congr 1
    obtain ⟨c, k, v⟩ := w
    cases c <;> rfl

/-- The planes after stores depend on the planes before them only. -/
theorem putAll_plane_of_plane (ws : List SlotWrite) : ∀ s t : State, (∀ c, t.plane c = s.plane c) →
    ∀ c, (putAll t ws).plane c = (putAll s ws).plane c := by
  induction ws with
  | nil => intro s t h c; exact h c
  | cons w ws ih =>
    intro s t h c
    refine ih _ _ (fun c => ?_) c
    simp only [putSlot, setPlane_plane, h]

/-! ### The frame -/

/-- The slots of a block of the frame are among those a plane must have. -/
theorem slotOf_lt_neededSlots {o : Operands} {c : Chan} {pc : Cursor} {p : Fin 8} (hr : pc.row < o.height.toNat)
    (hb : pc.blk < blocksPerLine o.width) : slotOf o c pc p < neededSlots o c := by
  simp only [slotOf, neededSlots, blocksPerLine, Config.blockPixels] at *
  have : pc.row * o.stride c ≤ (o.height.toNat - 1) * o.stride c := Nat.mul_le_mul_right _ (by omega)
  omega

/-- The bytes of a block of the frame are below the required size. -/
theorem inOff_le_requiredSize {o : Operands} {pc : Cursor} (hr : pc.row < o.height.toNat)
    (hb : pc.blk < blocksPerLine o.width) : inOff o pc + 36 ≤ requiredSize o := by
  simp only [inOff, requiredSize, Config.blockBytes] at *
  have h1 : (pc.row + 1) * blocksPerLine o.width ≤ o.height.toNat * blocksPerLine o.width := Nat.mul_le_mul_right _ hr
  rw [Nat.add_mul] at h1
  omega

end Sys2Proof.Machine
end

