-- ==== Sys2Proof/Laws/PerInstr.lean ====
section
/-! SUPPORT. The statements made per instruction, one lemma per constructor of `Instr`. -/

namespace Sys2Proof.Laws.EncodedWordIsWellFormed

/-- A well-formed operation encodes to a well-formed word. -/
def Statement (i : Instr) : Prop := i.wf = true → (encode i).wf = true

theorem validate : Statement .validate := fun _ => rfl
theorem decode : Statement .decode := fun _ => rfl
theorem unpack (block : Block) : Statement (.unpack block) := fun _ => rfl
theorem extG0 : Statement .extG0 := fun _ => rfl
theorem extG1 : Statement .extG1 := fun _ => rfl
theorem extG2 : Statement .extG2 := fun _ => rfl
theorem extG3 : Statement .extG3 := fun _ => rfl
theorem extG4 : Statement .extG4 := fun _ => rfl
theorem extG5 : Statement .extG5 := fun _ => rfl
theorem extG6 : Statement .extG6 := fun _ => rfl
theorem extG7 : Statement .extG7 := fun _ => rfl
theorem extB0 : Statement .extB0 := fun _ => rfl
theorem extB1 : Statement .extB1 := fun _ => rfl
theorem extB2 : Statement .extB2 := fun _ => rfl
theorem extB3 : Statement .extB3 := fun _ => rfl
theorem extB4 : Statement .extB4 := fun _ => rfl
theorem extB5 : Statement .extB5 := fun _ => rfl
theorem extB6 : Statement .extB6 := fun _ => rfl
theorem extB7 : Statement .extB7 := fun _ => rfl
theorem extR0 : Statement .extR0 := fun _ => rfl
theorem extR1 : Statement .extR1 := fun _ => rfl
theorem extR2 : Statement .extR2 := fun _ => rfl
theorem extR3 : Statement .extR3 := fun _ => rfl
theorem extR4 : Statement .extR4 := fun _ => rfl
theorem extR5 : Statement .extR5 := fun _ => rfl
theorem extR6 : Statement .extR6 := fun _ => rfl
theorem extR7 : Statement .extR7 := fun _ => rfl

end Sys2Proof.Laws.EncodedWordIsWellFormed
end

