-- ==== Sys2Proof/Tests/Slice0.lean ====
section
/-! SUPPORT. The model's own tests, each one step on a small state, with the values of spec/95_test_vectors.md and of the
rules' examples; the smoke tests of WellFormed; the decoding of every constructor; and for every statement with
hypotheses a concrete case that meets them (`witness_<statement>`). -/

namespace Sys2Proof.Machine.Tests

open Sys2Proof Sys2Proof.Machine

/-! ### Helpers -/

/-- Byte `k` of block T1 (spec/95_test_vectors.md part 3): `(37 × k + 11) mod 256`. -/
def t1Byte (k : Nat) : Byte := BitVec.ofNat 8 (37 * k + 11)

/-- Block T1. -/
def t1 : Block := Block.ofBytes ((List.range 36).map t1Byte)

/-- An idle core set up for the block T1 as a frame of 8 × 1. -/
def small : State :=
  { State.reset with
    width := 8, height := 1, len := 36, strideG := 8, strideB := 8, strideR := 8,
    input := ⟨36, (List.range 36).map fun k => (k, t1Byte k)⟩,
    pg := ⟨8, []⟩, pb := ⟨8, []⟩, pr := ⟨8, []⟩ }

/-- The same core inside its `DECODE`, at its one block. -/
def inBlock : State :=
  { small with
    status := 1, consumed := 0,
    run := some ⟨.decode, latch small, .blocks ⟨0, 0⟩ [⟨⟨0, 0⟩, allLanes⟩]⟩ }

/-- The state an outcome leads to. -/
def after : Host.Outcome State Fault Refusal → Option State
  | .next s => some s
  | _ => none

/-- Why an outcome is refused. -/
def refusal : Host.Outcome State Fault Refusal → Option Refusal
  | .refused r => some r
  | _ => none

/-- The 16-bit little-endian value of slot `k` of a plane after an outcome. -/
def slotAfter (out : Host.Outcome State Fault Refusal) (c : Chan) (k : Nat) : Option Nat :=
  match out with
  | .next s =>
    match s.planeByte c (2 * k), s.planeByte c (2 * k + 1) with
    | some lo, some hi => some (lo.toNat + 256 * hi.toNat)
    | _, _ => none
  | _ => none

/-- The slots of one row of 8 of a plane after an outcome. -/
def rowAfter (out : Host.Outcome State Fault Refusal) (c : Chan) : List (Option Nat) :=
  (List.range 8).map (slotAfter out c)

/-- `STATUS` and `CONSUMED` after an outcome. -/
def resultAfter (out : Host.Outcome State Fault Refusal) : Option (Nat × Nat) :=
  (after out).map fun s => (s.status.toNat, s.consumed.toNat)

/-! ### WellFormed -/

theorem test_wf_command_zero : (TableWord.cmd 0).wf = false := by decide
theorem test_wf_command_three : (TableWord.cmd 3).wf = false := by decide
theorem test_wf_sample_24 : (TableWord.sample 24).wf = false := by decide
theorem test_wf_sample_31 : (TableWord.sample 31).wf = false := by decide
theorem test_wf_words : (TableWord.cmd 1).wf = true ∧ (TableWord.cmd 2).wf = true ∧ (TableWord.sample 23).wf = true ∧
    (TableWord.block 0).wf = true := by decide
theorem test_wf_entry_low_shift_four :
    (⟨.g, 0, ⟨0, 2, .high, 0⟩, ⟨0, 1, .low, 4⟩⟩ : Entry).wf = false := by decide
theorem test_wf_entry_two_nibbles :
    (⟨.g, 0, ⟨0, 2, .low, 0⟩, ⟨0, 1, .high, 4⟩⟩ : Entry).wf = false := by decide
theorem test_wf_entry_full_shift_eight :
    (⟨.b, 0, ⟨0, 0, .full, 0⟩, ⟨1, 3, .full, 8⟩⟩ : Entry).wf = false := by decide
theorem test_wf_table : ∀ e ∈ unpackOrder, e.wf = true := by decide

/-! ### Decoding, each word written out from spec/30_encoding.md R59, R61 -/

theorem test_decode_commands : decode (.cmd 0b01) = .ok .validate ∧ decode (.cmd 0b10) = .ok .decode :=
  ⟨rfl, rfl⟩
theorem test_decode_reserved_commands :
    decode (.cmd 0b00) = .error (.reservedCommand 0) ∧ decode (.cmd 0b11) = .error (.reservedCommand 3) := ⟨rfl, rfl⟩
theorem test_decode_reserved_samples :
    decode (.sample 0b11000) = .error (.noSuchSample 24) ∧ decode (.sample 0b11111) = .error (.noSuchSample 31) :=
  ⟨rfl, rfl⟩
theorem test_decode_block : decode (.block t1) = .ok (.unpack t1) := rfl
theorem test_decode_green :
    decode (.sample 0b00000) = .ok .extG0 ∧
    decode (.sample 0b00001) = .ok .extG1 ∧
    decode (.sample 0b00010) = .ok .extG2 ∧
    decode (.sample 0b00011) = .ok .extG3 ∧
    decode (.sample 0b00100) = .ok .extG4 ∧
    decode (.sample 0b00101) = .ok .extG5 ∧
    decode (.sample 0b00110) = .ok .extG6 ∧
    decode (.sample 0b00111) = .ok .extG7 :=
  ⟨rfl, rfl, rfl, rfl, rfl, rfl, rfl, rfl⟩
theorem test_decode_blue :
    decode (.sample 0b01000) = .ok .extB0 ∧
    decode (.sample 0b01001) = .ok .extB1 ∧
    decode (.sample 0b01010) = .ok .extB2 ∧
    decode (.sample 0b01011) = .ok .extB3 ∧
    decode (.sample 0b01100) = .ok .extB4 ∧
    decode (.sample 0b01101) = .ok .extB5 ∧
    decode (.sample 0b01110) = .ok .extB6 ∧
    decode (.sample 0b01111) = .ok .extB7 :=
  ⟨rfl, rfl, rfl, rfl, rfl, rfl, rfl, rfl⟩
theorem test_decode_red :
    decode (.sample 0b10000) = .ok .extR0 ∧
    decode (.sample 0b10001) = .ok .extR1 ∧
    decode (.sample 0b10010) = .ok .extR2 ∧
    decode (.sample 0b10011) = .ok .extR3 ∧
    decode (.sample 0b10100) = .ok .extR4 ∧
    decode (.sample 0b10101) = .ok .extR5 ∧
    decode (.sample 0b10110) = .ok .extR6 ∧
    decode (.sample 0b10111) = .ok .extR7 :=
  ⟨rfl, rfl, rfl, rfl, rfl, rfl, rfl, rfl⟩

/-- Byte 0 of a block is bits 7:0 of its word, byte 35 bits 287:280 (spec/30_encoding.md R51). -/
theorem test_block_bytes : Block.byteAt t1 0 = 0x0B ∧ Block.byteAt t1 7 = 0x0E ∧ Block.byteAt t1 35 = 0x1A := by
  decide +kernel
theorem test_table_word_commands :
    decodeTableWord 8 1 = some .validate ∧ decodeTableWord 8 2 = some .decode ∧ decodeTableWord 8 0 = some .extG0 :=
  ⟨rfl, rfl, rfl⟩
theorem test_table_word_samples :
    decodeTableWord 8 0b00011 = some .extG3 ∧ decodeTableWord 8 0b10111 = some .extR7 ∧
    decodeTableWord 8 0b11000 = none := ⟨rfl, rfl, rfl⟩
theorem test_table_word_block : decodeTableWord 288 0xFF0B = some (.unpack 0xFF0B) ∧
    decodeTableWord 0 0 = some (.unpack 0) := ⟨rfl, rfl⟩

/-! ### The extractions: the examples of R83 to R106 on block T1 -/

theorem test_extG0 : slotAfter (exec .extG0 inBlock) .g 0 = some 0x305 := by decide
theorem test_extG1 : slotAfter (exec .extG1 inBlock) .g 1 = some 0xFC4 := by decide
theorem test_extG2 : slotAfter (exec .extG2 inBlock) .g 2 = some 0x335 := by decide
theorem test_extG3 : slotAfter (exec .extG3 inBlock) .g 3 = some 0xAC7 := by decide
theorem test_extG4 : slotAfter (exec .extG4 inBlock) .g 4 = some 0x5E5 := by decide
theorem test_extG5 : slotAfter (exec .extG5 inBlock) .g 5 = some 0xDF2 := by decide
theorem test_extG6 : slotAfter (exec .extG6 inBlock) .g 6 = some 0x618 := by decide
theorem test_extG7 : slotAfter (exec .extG7 inBlock) .g 7 = some 0x0F5 := by decide
theorem test_extB0 : slotAfter (exec .extB0 inBlock) .b 0 = some 0xE0B := by decide
theorem test_extB1 : slotAfter (exec .extB1 inBlock) .b 1 = some 0xA29 := by decide
theorem test_extB2 : slotAfter (exec .extB2 inBlock) .b 2 = some 0x136 := by decide
theorem test_extB3 : slotAfter (exec .extB3 inBlock) .b 3 = some 0xA5C := by decide
theorem test_extB4 : slotAfter (exec .extB4 inBlock) .b 4 = some 0x439 := by decide
theorem test_extB5 : slotAfter (exec .extB5 inBlock) .b 5 = some 0xA8C := by decide
theorem test_extB6 : slotAfter (exec .extB6 inBlock) .b 6 = some 0x73C := by decide
theorem test_extB7 : slotAfter (exec .extB7 inBlock) .b 7 = some 0xABD := by decide
theorem test_extR0 : slotAfter (exec .extR0 inBlock) .r 0 = some 0x57A := by decide
theorem test_extR1 : slotAfter (exec .extR1 inBlock) .r 1 = some 0xE90 := by decide
theorem test_extR2 : slotAfter (exec .extR2 inBlock) .r 2 = some 0x87D := by decide
theorem test_extR3 : slotAfter (exec .extR3 inBlock) .r 3 = some 0xEC1 := by decide
theorem test_extR4 : slotAfter (exec .extR4 inBlock) .r 4 = some 0xB80 := by decide
theorem test_extR5 : slotAfter (exec .extR5 inBlock) .r 5 = some 0xEF1 := by decide
theorem test_extR6 : slotAfter (exec .extR6 inBlock) .r 6 = some 0x683 := by decide
theorem test_extR7 : slotAfter (exec .extR7 inBlock) .r 7 = some 0x1A1 := by decide

/-- An extraction writes its own slot only. -/
theorem test_ext_other_slot : slotAfter (exec .extB0 inBlock) .b 1 = none ∧
    slotAfter (exec .extB0 inBlock) .g 0 = none := by decide

/-! ### UNPACK -/

/-- The example of R82 on block T1. -/
theorem test_unpack_t1 :
    rowAfter (exec (.unpack t1) inBlock) .g = [some 0x305, some 0xFC4, some 0x335, some 0xAC7, some 0x5E5, some 0xDF2, some 0x618, some 0x0F5] ∧
    rowAfter (exec (.unpack t1) inBlock) .b = [some 0xE0B, some 0xA29, some 0x136, some 0xA5C, some 0x439, some 0xA8C, some 0x73C, some 0xABD] ∧
    rowAfter (exec (.unpack t1) inBlock) .r = [some 0x57A, some 0xE90, some 0x87D, some 0xEC1, some 0xB80, some 0xEF1, some 0x683, some 0x1A1] := by
  decide +kernel

/-- Example X2: `S[0] = 0xFF`, `S[7] = 0x0F`, all other bytes 0. -/
theorem test_unpack_x2 :
    rowAfter (exec (.unpack (0xFF ||| (0x0F <<< 56))) inBlock) .b =
      [some 0xFFF, some 0, some 0, some 0, some 0, some 0, some 0, some 0] ∧
    rowAfter (exec (.unpack (0xFF ||| (0x0F <<< 56))) inBlock) .r = List.replicate 8 (some 0) := by
  decide +kernel

/-! ### VALIDATE and DECODE -/

/-- `LEN` exactly the required size passes (R74: `WIDTH = 16`, `HEIGHT = 2`, `LEN = 144`), one byte less does not. -/
theorem test_validate_pass :
    resultAfter (exec .validate { small with width := 16, height := 2, len := 144 }) = some (0x06, 0) := by decide
theorem test_validate_short :
    resultAfter (exec .validate { small with width := 16, height := 2, len := 143 }) = some (0x12, 0) := by decide
theorem test_decode_t1 : resultAfter (exec .decode small) = some (0x06, 36) ∧
    rowAfter (exec .decode small) .g = [some 0x305, some 0xFC4, some 0x335, some 0xAC7, some 0x5E5, some 0xDF2, some 0x618, some 0x0F5] := by decide +kernel
/-- Row V24 of spec/95_test_vectors.md: the largest `LEN`, all of it readable, one block of it read. -/
theorem test_decode_v24 : resultAfter (exec .decode
    { small with len := 0xFFFFFFFFFFFFFFFF, input := ⟨2 ^ 64 - 1, small.input.cells⟩ }) = some (0x06, 36) := by decide
/-- One readable byte less than `LEN` says is U4, though the block needs 36 only. -/
theorem test_decode_short_in : refusal (exec .decode { small with len := 38, input := ⟨37, small.input.cells⟩ }) =
    some (.inputTooShort 37) := by decide
/-- The examples of R144. -/
theorem test_decode_priority :
    resultAfter (exec .decode { small with width := 12, len := 0, allocFail := 1 }) = some (0x0A, 0) ∧
    resultAfter (exec .decode { small with len := 35, allocFail := 1 }) = some (0x12, 0) ∧
    resultAfter (exec .decode { small with allocFail := 1 }) = some (0x1A, 0) := by decide

/-! ### Steps -/

theorem test_step_command : resultAfter (step { small with events := [.command 2] }) = some (0x06, 36) := by decide
theorem test_step_fetched_word : slotAfter (step (inBlock.withFetchWord 8 0x12)) .r 2 = some 0x87D := by decide
theorem test_step_reserved_command :
    refusal (step { small with events := [.regWrite 0 3] }) = some (.reservedCommand 3) := by decide

/-! ### Witnesses: cases that meet the hypotheses of the statements -/

theorem small_memoryOk : small.MemoryOk := by
  unfold State.MemoryOk
  decide

theorem small_inv : small.Inv :=
  ⟨small_memoryOk, ⟨by decide, fun _ => rfl⟩, fun _ h => by cases h⟩

theorem small_duties : small.DutiesMet (latch small) := ⟨by decide, by intro c; cases c <;> decide⟩

theorem small_input : small.InputKnown (latch small) := by
  have h : ∀ a, a < 36 → (small.inByte a).isSome = true := by decide
  intro a ha
  exact Option.isSome_iff_exists.mp (h a ha)

theorem inBlock_memoryOk : inBlock.MemoryOk := small_memoryOk

theorem inBlock_bytes : ∀ k, k < 36 → ∃ x, inBlock.inByte (inOff (latch small) ⟨0, 0⟩ + k) = some x := by
  have h : ∀ k, k < 36 → (inBlock.inByte (inOff (latch small) ⟨0, 0⟩ + k)).isSome = true := by decide
  intro k hk
  exact Option.isSome_iff_exists.mp (h k hk)

theorem inBlock_slots : ∀ c p, slotOf (latch small) c ⟨0, 0⟩ p < (inBlock.plane c).slots := by
  intro c; cases c <;> decide

/-- The state after `DECODE` of `small`. -/
def decoded : State := (after (exec .decode small)).getD State.reset

theorem decode_small : exec .decode small = .next decoded := by
  have h : ∀ out : Host.Outcome State Fault Refusal, (after out).isSome = true →
      out = .next ((after out).getD State.reset) := by
    intro out h; cases out <;> first | rfl | simp [after] at h
  exact h _ (by decide)

/-- An outcome that leads to a state, named. -/
theorem next_of_isSome {out : Host.Outcome State Fault Refusal} (h : (after out).isSome = true) : ∃ t, out = .next t := by
  cases out with
  | next s => exact ⟨s, rfl⟩
  | fault f => cases f
  | refused r => simp [after] at h

theorem witness_DecodeInvertsEncode : ∃ i, decode (.sample 23) = .ok i := ⟨_, rfl⟩
theorem witness_StoredBlockIsFetched : Block.byteAt t1 35 = 0x1A ∧ (Block.byteAt t1 35).getLsbD 4 = t1.getLsbD 284 := by
  decide +kernel
/-- Bit 11 of `R7` is the last flat bit, bit 0 of `G0` is flat bit 20 (spec/30_encoding.md R57). -/
theorem witness_SampleBitsFollowForwardMap : flatBit .r 7 11 = 287 ∧ flatBit .g 0 0 = 20 := by decide
theorem witness_OneBlockBitOneSampleBit : 287 < 288 ∧ 11 < 12 ∧ flatBit .r 7 11 = 287 := by decide
theorem witness_StepRunsDecodedInstruction_command :
    ({ small with events := [.command 1] } : State).events = .command 1 :: [] ∧ decode (.cmd 1) = .ok .validate := ⟨rfl, rfl⟩
theorem witness_StepRunsDecodedInstruction_word :
    nextMove { small with events := [.command 2] } = .perform (.cmd 2) small ∧ decode (.cmd 2) = .ok .decode := ⟨rfl, rfl⟩
theorem witness_StepRunsDecodedInstruction_block :
    ({ inBlock with events := [.core 5] } : State).events = .core 5 :: [] ∧
    ({ inBlock with events := [.core 5] } : State).run =
      some ⟨.decode, latch small, .blocks ⟨0, 0⟩ (⟨⟨0, 0⟩, allLanes⟩ :: [])⟩ ∧
    ∀ k, k < 36 → ∃ x, ({ inBlock with events := [.core 5] } : State).inByte
      (inOff (latch small) (pendingAt 5 ⟨⟨0, 0⟩, allLanes⟩ []).pos + k) = some x := ⟨rfl, rfl, inBlock_bytes⟩
theorem witness_StepRunsDecodedInstruction_lane :
    ({ inBlock with events := [.lane 0 47] } : State).events = .lane 0 47 :: [] ∧
    ({ inBlock with events := [.lane 0 47] } : State).run =
      some ⟨.decode, latch small, .blocks ⟨0, 0⟩ (⟨⟨0, 0⟩, allLanes⟩ :: [])⟩ ∧
    (pendingAt 0 ⟨⟨0, 0⟩, allLanes⟩ []).lanes[47 % (pendingAt 0 ⟨⟨0, 0⟩, allLanes⟩ []).lanes.length]? = some 23 ∧
    decode (.sample 23) = .ok .extR7 := ⟨rfl, rfl, rfl, rfl⟩
/-- For each of the 24 extractions: the block, its bytes, and every slot are there. -/
theorem witness_Extractions :
    inBlock.run = some ⟨.decode, latch small, .blocks ⟨0, 0⟩ [⟨⟨0, 0⟩, allLanes⟩]⟩ ∧
    (∀ k, k < 36 → ∃ x, inBlock.inByte (inOff (latch small) ⟨0, 0⟩ + k) = some x) ∧
    ∀ c p, slotOf (latch small) c ⟨0, 0⟩ p < (inBlock.plane c).slots := ⟨rfl, inBlock_bytes, inBlock_slots⟩
/-- An idle core, a running `VALIDATE`, a `DECODE` before its check and one with its result to post. -/
theorem witness_BlockWorkNeedsDecode :
    (∀ o pc pending, small.run ≠ some ⟨.decode, o, .blocks pc pending⟩) ∧
    (∀ o pc pending, (start .validate small).run ≠ some ⟨.decode, o, .blocks pc pending⟩) ∧
    (∀ o pc pending, (start .decode small).run ≠ some ⟨.decode, o, .blocks pc pending⟩) ∧
    (∀ o pc pending, ({ inBlock with run := some ⟨.decode, latch small, .post (.failure .allocationFailure)⟩ } : State).run
      ≠ some ⟨.decode, o, .blocks pc pending⟩) ∧ decode (.sample 0) = .ok .extG0 := by
  refine ⟨?_, ?_, ?_, ?_, rfl⟩ <;> intro _ _ _ h <;> cases h
theorem witness_UnpackWritesItsBlock :
    inBlock.run = some ⟨.decode, latch small, .blocks ⟨0, 0⟩ [⟨⟨0, 0⟩, allLanes⟩]⟩ ∧
    ∀ c p, slotOf (latch small) c ⟨0, 0⟩ p < (inBlock.plane c).slots := ⟨rfl, inBlock_slots⟩
theorem witness_LanesInAnyOrderMakeUnpack :
    inBlock.MemoryOk ∧ inBlock.run = some ⟨.decode, latch small, .blocks ⟨0, 0⟩ [⟨⟨0, 0⟩, allLanes⟩]⟩ ∧
    (∀ k, k < 36 → ∃ x, inBlock.inByte (inOff (latch small) ⟨0, 0⟩ + k) = some x) ∧
    (∀ c p, slotOf (latch small) c ⟨0, 0⟩ p < (inBlock.plane c).slots) ∧ extInstrs.reverse.Perm extInstrs :=
  ⟨inBlock_memoryOk, rfl, inBlock_bytes, inBlock_slots, List.reverse_perm _⟩
theorem witness_BlockNibblesFollowInverseMap : inverseMap[35]? = some (⟨.r, 7, 1⟩, ⟨.r, 7, 2⟩) ∧
    inverseMap[36]? = none := ⟨rfl, rfl⟩
theorem witness_ValidatePostsVerdict_width : ({ small with width := 65535 } : State).Idle ∧
    BadGeometry { small with width := 65535 } := ⟨rfl, .inl (by decide)⟩
theorem witness_ValidatePostsVerdict_zero : ({ small with height := 0 } : State).Idle ∧
    BadGeometry { small with height := 0 } ∧ BadGeometry { small with width := 0 } :=
  ⟨rfl, .inr (.inr rfl), .inr (.inl rfl)⟩
theorem small_geometry : ¬BadGeometry small := by unfold BadGeometry; decide
theorem witness_ValidatePostsVerdict_short : ({ small with len := 35 } : State).Idle ∧
    ¬BadGeometry { small with len := 35 } ∧ ({ small with len := 35 } : State).len.toNat < frameBytes { small with len := 35 } :=
  ⟨rfl, small_geometry, by decide⟩
theorem witness_ValidatePostsVerdict_exact : small.Idle ∧ ¬BadGeometry small ∧ frameBytes small ≤ small.len.toNat :=
  ⟨rfl, small_geometry, by decide⟩
theorem witness_RequiredSizeFitsItsRegister :
    requiredSize ⟨65528, 65535, 0, 0, 0, 0, 0⟩ = 19324698660 ∧ requiredSize ⟨65535, 65535, 0, 0, 0, 0, 0⟩ = 19324698660 ∧
    (resultConsumed (decodeSuccess ⟨65528, 65535, 0, 0, 0, 0, 0⟩)).toNat = 19324698660 := by decide
theorem witness_ValidateLeavesDecodeAsItWas : small.Idle ∧ ∃ t, exec .validate small = .next t :=
  ⟨rfl, next_of_isSome (by decide)⟩
theorem witness_DecodeReportsFirstError_geometry : ({ small with width := 12 } : State).Idle ∧
    BadGeometry { small with width := 12 } := ⟨rfl, .inl (by decide)⟩
theorem witness_DecodeReportsFirstError_short : ({ small with len := 35 } : State).Idle ∧
    ¬BadGeometry { small with len := 35 } ∧ ({ small with len := 35 } : State).len.toNat < frameBytes { small with len := 35 } :=
  ⟨rfl, small_geometry, by decide⟩
theorem witness_DecodeReportsFirstError_allocation : ({ small with allocFail := 1 } : State).Idle ∧
    ¬BadGeometry { small with allocFail := 1 } ∧
    frameBytes { small with allocFail := 1 } ≤ ({ small with allocFail := 1 } : State).len.toNat ∧
    ({ small with allocFail := 1 } : State).allocFail = 1 := ⟨rfl, small_geometry, by decide, rfl⟩
theorem witness_DecodeWritesTheFrame : small.Idle ∧ ¬BadGeometry small ∧ frameBytes small ≤ small.len.toNat ∧
    small.allocFail = 0 ∧ small.DutiesMet (latch small) ∧ small.InputKnown (latch small) :=
  ⟨rfl, small_geometry, by decide, rfl, small_duties, small_input⟩
theorem witness_DecodeRunsExactlyWhenDutiesMet_slots :
    refusal (exec .decode { small with pb := ⟨7, []⟩ }) = some (.planeTooSmall .b) := by decide
theorem witness_DecodeRunsExactlyWhenDutiesMet_stride :
    refusal (exec .decode { small with
      height := 2, len := 72, strideR := 7, input := ⟨72, small.input.cells⟩,
      pg := ⟨16, []⟩, pb := ⟨16, []⟩ }) = some (.strideBelowWidth .r) := by
  decide
theorem witness_DecodeRunsExactlyWhenDutiesMet_length :
    refusal (exec .decode { small with len := 37 }) = some (.inputTooShort 36) := by decide
theorem witness_DecodeRunsExactlyWhenDutiesMet_input :
    refusal (exec .decode { small with input := ⟨36, small.input.cells.take 35⟩ }) = some (.inputMissing 35) := by decide
theorem witness_NoWriteOnError : resultAfter (exec .validate { small with height := 0 }) = some (0x0A, 0) ∧
    statusOk 0x0A = 0 := by decide
theorem witness_CommandWhileBusyRefused : ¬inBlock.Idle := by intro h; cases h
theorem witness_OperationsAreStateless : small.Idle ∧ ({ small with status := 0x1A, tick := 7 } : State).Idle ∧
    SameOperands small { small with status := 0x1A, tick := 7 } ∧
    ({ small with status := 0x1A, tick := 7 } : State).input = small.input ∧
    (∀ c, ({ small with status := 0x1A, tick := 7 } : State).plane c = small.plane c) ∧ exec .decode small = .next decoded :=
  ⟨rfl, rfl, ⟨rfl, rfl, rfl, rfl, rfl, rfl, rfl⟩, rfl, fun c => by cases c <;> rfl, decode_small⟩
theorem witness_DecodeIgnoresExcessInput :
    (∀ a, a < frameBytes small → Memory.read (small.input.cells ++ [(36, 0xAA)]) a = small.inByte a) ∧
    small.len.toNat ≤ (⟨40, small.input.cells ++ [(36, 0xAA)]⟩ : InputBuf).size ∧ exec .decode small = .next decoded := by
  refine ⟨?_, by decide, decode_small⟩
  have h : ∀ a, a < 36 → Memory.read (small.input.cells ++ [(36, 0xAA)]) a = small.inByte a := by decide
  exact h
theorem witness_DecodeFootprintIgnoresInputValues :
    (∀ a, (Memory.read (small.input.cells.map fun x => (x.1, (0 : Byte))) a).isSome = (small.inByte a).isSome) ∧
    exec .decode small = .next decoded := by
  refine ⟨fun a => ?_, decode_small⟩
  have h : ∀ m : Memory, (Memory.read (m.map fun x => (x.1, (0 : Byte))) a).isSome = (Memory.read m a).isSome := by
    intro m
    induction m with
    | nil => rfl
    | cons x m ih => simp only [List.map_cons, Memory.read]; split <;> first | rfl | exact ih
  exact h _
theorem witness_DecodeAgainChangesNothing : small.MemoryOk ∧ exec .decode small = .next decoded :=
  ⟨small_memoryOk, decode_small⟩
theorem witness_SlotsOfBlocksAreDisjoint :
    (⟨16, 2, 144, 16, 16, 16, 0⟩ : Operands).width.toNat % 8 = 0 ∧
    (⟨16, 2, 144, 16, 16, 16, 0⟩ : Operands).width.toNat ≤ (⟨16, 2, 144, 16, 16, 16, 0⟩ : Operands).stride .g ∧
    slotOf ⟨16, 2, 144, 16, 16, 16, 0⟩ .g ⟨0, 1⟩ 7 = 15 ∧ slotOf ⟨16, 2, 144, 16, 16, 16, 0⟩ .g ⟨1, 0⟩ 0 = 16 := by decide
theorem witness_CursorOffsetsStayInRange :
    65534 < (⟨65528, 65535, 0, 0xFFFFFFFF, 0, 0, 0⟩ : Operands).height.toNat ∧
    8190 < (⟨65528, 65535, 0, 0xFFFFFFFF, 0, 0, 0⟩ : Operands).width.toNat / 8 ∧
    inOff ⟨65528, 65535, 0, 0xFFFFFFFF, 0, 0, 0⟩ ⟨65534, 8190⟩ = 19324698624 := by decide
theorem witness_CommandWriteStartsOperation :
    ({ small with events := [.regWrite 0 2] } : State).events = .regWrite 0 2 :: [] ∧
    ({ small with events := [.regWrite 0 2] } : State).Idle := ⟨rfl, rfl⟩
theorem witness_EndStepPostsResult_blocks :
    ({ inBlock with run := some ⟨.decode, latch small, .blocks ⟨1, 0⟩ []⟩ } : State).run =
      some ⟨.decode, latch small, .blocks ⟨1, 0⟩ []⟩ := rfl
theorem witness_EndStepPostsResult_result :
    ({ inBlock with run := some ⟨.decode, latch small, .post (.failure .allocationFailure)⟩ } : State).run =
      some ⟨.decode, latch small, .post (.failure .allocationFailure)⟩ ∧
    ({ inBlock with run := some ⟨.validate, latch small, .post (.success 0)⟩ } : State).run =
      some ⟨.validate, latch small, .post (.success 0)⟩ := ⟨rfl, rfl⟩
theorem witness_CheckStepSetsPendingBlocks : (start .decode small).run = some ⟨.decode, latch small, .check⟩ ∧
    decodeError (latch small) = none ∧ (start .decode small).DutiesMet (latch small) ∧
    decodeError (latch { small with allocFail := 1 }) = some .allocationFailure :=
  ⟨rfl, by decide, ⟨by decide, small_duties.2⟩, by decide⟩
theorem witness_AnyOrderReachesWholeOperation_lanes : small.MemoryOk ∧ small.Idle ∧ exec .decode small = .next decoded ∧
    24 * blockCount (latch small) + 2 ≤ (List.replicate 26 (CoreChoice.lane 0 5)).length :=
  ⟨small_memoryOk, rfl, decode_small, by decide⟩
theorem witness_AnyOrderReachesWholeOperation_blocks : small.MemoryOk ∧ small.Idle ∧ exec .decode small = .next decoded ∧
    blockCount (latch small) + 2 ≤ (List.replicate 3 (CoreChoice.block 1)).length ∧
    ∀ c ∈ List.replicate 3 (CoreChoice.block 1), ∃ n, c = .block n :=
  ⟨small_memoryOk, rfl, decode_small, by decide, fun _ h => ⟨1, List.eq_of_mem_replicate h⟩⟩
theorem witness_AnyOrderReachesWholeOperation_validate : small.MemoryOk ∧ small.Idle ∧
    (∃ t, exec .validate small = .next t) ∧ 2 ≤ [CoreChoice.block 0, .lane 0 0].length :=
  ⟨small_memoryOk, rfl, next_of_isSome (by decide), by decide⟩
theorem witness_StartedDecodeEnds : ({ small with events := [.regWrite 0 2] } : State).MemoryOk ∧
    ({ small with events := [.regWrite 0 2] } : State).Idle ∧
    ({ small with events := [.regWrite 0 2] } : State).events = [.regWrite 0 2] ∧ exec .decode small = .next decoded :=
  ⟨small_memoryOk, rfl, rfl, decode_small⟩
theorem witness_CutDecodeLeavesOldOrFinalSlots : small.MemoryOk ∧ small.Idle ∧ exec .decode small = .next decoded ∧
    ∃ u, coreRun [.block 0, .lane 0 5] (start .decode small) = .next u :=
  ⟨small_memoryOk, rfl, decode_small, next_of_isSome (by decide)⟩
theorem inBlock_inv : inBlock.Inv := by
  refine ⟨small_memoryOk, ⟨rfl, rfl⟩, fun op h => ?_⟩
  cases h
  refine ⟨rfl, rfl, by decide, by decide, by decide, by decide, ?_, List.pairwise_singleton _ _⟩
  intro b hb
  rw [List.mem_singleton] at hb
  subst hb
  exact ⟨by decide, by decide, by decide, by decide, by decide⟩
theorem witness_OnceBegunNothingFails : inBlock.Inv ∧
    inBlock.run = some ⟨.decode, latch small, .blocks ⟨0, 0⟩ [⟨⟨0, 0⟩, allLanes⟩]⟩ ∧ inBlock.InputKnown (latch small) :=
  ⟨inBlock_inv, rfl, small_input⟩
theorem witness_IdleCoreWaits : small.Idle ∧ small.events = [] := ⟨rfl, rfl⟩
theorem witness_RegWriteSetsOperandRegisters :
    ({ small with events := [.regWrite 1 0xFFFF] } : State).events = .regWrite 1 0xFFFF :: [] ∧
    ({ small with events := [.regWrite 1 0xFFFF] } : State).Idle ∧ (0xFFFF : BitVec 64).toNat < 2 ^ 16 := ⟨rfl, rfl, by decide⟩
theorem witness_RegWriteSetsOperandRegisters_last :
    ({ small with events := [.regWrite 10 0] } : State).events = .regWrite 10 0 :: [] ∧ (0 : BitVec 64).toNat < 2 ^ 16 ∧
    (31 : BitVec 64).toNat < 2 ^ 5 ∧ (1 : BitVec 64).toNat < 2 := by decide
theorem witness_RegReadReturnsRegister :
    ({ small with events := [.regRead 10] } : State).events = .regRead 10 :: [] ∧
    ([0, 8, 1, 36, 8, 8, 8, 0, 0, 0, 0x3E0C] : List (BitVec 64))[10]? = some 0x3E0C := by decide
theorem witness_PollReadsBusy : ({ inBlock with events := [.regRead 8] } : State).Inv ∧
    ¬({ inBlock with events := [.regRead 8] } : State).Idle ∧
    ({ inBlock with events := [.regRead 8] } : State).events = .regRead 8 :: [] := by
  refine ⟨⟨small_memoryOk, ⟨rfl, rfl⟩, inBlock_inv.2.2⟩, ?_, rfl⟩
  intro h; cases h
theorem witness_HostBreachesAreRefused_idle :
    refusal (step { small with events := [.regRead 11] }) = some (.noSuchRegister 11) ∧
    refusal (step { small with events := [.regWrite 1 0x10000] }) = some (.datumTooWide 1) := by decide
theorem witness_HostBreachesAreRefused_busy :
    refusal (step { inBlock with events := [.regWrite 1 0xFFFF] }) = some .hostDuringOperation ∧
    refusal (step { inBlock with events := [.regWrite 0 3] }) = some .commandWhileBusy ∧
    refusal (step { inBlock with events := [.regRead 10] }) = some .hostDuringOperation ∧
    refusal (step { inBlock with events := [.storeIn 35 0] }) = some .hostDuringOperation ∧
    refusal (step { inBlock with events := [.freeIn] }) = some .hostDuringOperation ∧
    refusal (step { inBlock with events := [.giveIn 36] }) = some .hostDuringOperation ∧
    refusal (step { inBlock with events := [.givePlane .r 8] }) = some .hostDuringOperation ∧
    refusal (step { inBlock with events := [.storePlane .b 15 0] }) = some .hostDuringOperation ∧
    refusal (step { inBlock with events := [.loadPlane .g 0] }) = some .hostDuringOperation := by decide
theorem witness_HostMemoryMoves : small.Idle ∧
    ({ small with events := [.storePlane .b 15 0x77] } : State).events = .storePlane .b 15 0x77 :: [] ∧
    15 < 2 * (({ small with events := [.storePlane .b 15 0x77] } : State).plane .b).slots ∧
    ({ small with events := [.storeIn 35 1] } : State).events = .storeIn 35 1 :: [] ∧
    35 < ({ small with events := [.storeIn 35 1] } : State).input.size ∧
    ({ small with events := [.loadPlane .r 0] } : State).events = .loadPlane .r 0 :: [] :=
  ⟨rfl, rfl, by decide, rfl, by decide, rfl⟩
theorem witness_HostMemoryMoves_outside :
    refusal (step { small with events := [.storeIn 36 1] }) = some (.outsideInput 36) ∧
    refusal (step { small with events := [.storePlane .b 16 1] }) = some (.outsidePlane .b 16) ∧
    refusal (step { small with events := [.loadPlane .r 16] }) = some (.outsidePlane .r 16) := by decide
theorem witness_HostBufferMoves : small.Idle ∧
    ({ small with events := [.giveIn 72] } : State).events = .giveIn 72 :: [] ∧
    ({ small with events := [.freeIn] } : State).events = .freeIn :: [] ∧
    ({ small with events := [.givePlane .g 0] } : State).events = .givePlane .g 0 :: [] := ⟨rfl, rfl, rfl, rfl⟩
/-- The first offset the host may store to, and the last one of the buffer. -/
theorem witness_StoreBeyondLenWhileBusy : ¬({ inBlock with input := ⟨38, inBlock.input.cells⟩, events := [.storeIn 36 7] } : State).Idle ∧
    ({ inBlock with input := ⟨38, inBlock.input.cells⟩, events := [.storeIn 36 7] } : State).len.toNat ≤ 36 ∧
    37 < ({ inBlock with input := ⟨38, inBlock.input.cells⟩, events := [.storeIn 36 7] } : State).input.size := by
  refine ⟨?_, by decide, by decide⟩
  intro h; cases h
theorem witness_ResetEventRestoresRegisters :
    ({ inBlock with events := [.reset] } : State).events = .reset :: [] := rfl
theorem witness_StepKeepsInvariant : inBlock.Inv ∧ ({ small with events := [.regWrite 0 2] } : State).Inv ∧
    ∃ t, step { small with events := [.regWrite 0 2] } = .next t :=
  ⟨inBlock_inv, ⟨small_memoryOk, small_inv.2.1, fun _ h => by cases h⟩, next_of_isSome (by decide)⟩
theorem witness_ReachableStatusIsLegal : ({ small with events := [.regWrite 0 1] } : State).Inv ∧
    ∃ t, Host.Core.run Sys2Proof.core 1 { small with events := [.regWrite 0 1] } = .next t :=
  ⟨⟨small_memoryOk, small_inv.2.1, fun _ h => by cases h⟩, _, rfl⟩
theorem witness_UnpostedOnlyFromResetToCommand :
    ({ inBlock with events := [.reset] } : State).events = .reset :: [] ∧
    (∃ t, step { small with events := [.command 1] } = .next t) ∧
    (∃ t, step { small with events := [.regWrite 0 2] } = .next t) ∧
    Event.reset ∉ ({ inBlock with events := [.regRead 8] } : State).events ∧
    ¬Unposted ({ inBlock with events := [.regRead 8] } : State).status ∧
    ∃ t, Host.Core.run Sys2Proof.core 1 { inBlock with events := [.regRead 8] } = .next t := by
  refine ⟨rfl, next_of_isSome (by decide), next_of_isSome (by decide), by decide, ?_, _, rfl⟩
  unfold Unposted
  decide

end Sys2Proof.Machine.Tests
end

/-! ### The layer of facts: dispatch, the latch, the invariant by cases, the frame -/

namespace Sys2Proof.Machine

/-! #### A step and what it carries out -/

@[simp] theorem carryOut_settle (s : State) : carryOut (.settle s) = .next s := rfl

@[simp] theorem carryOut_decline (r : Refusal) : carryOut (.decline r) = .refused r := rfl

theorem carryOut_block (S : Block) (s : State) : carryOut (.perform (.block S) s) = execUnpack S s := by
  rw [← exec_unpack]; rfl

theorem exec_validate (s : State) : exec .validate s = execValidate s := by rw [exec]

theorem exec_decode (s : State) : exec .decode s = execDecode s := by rw [exec]

/-- A step with an event to come is the move of that event. -/
theorem step_event {s : State} {e : Event} {rest : List Event} (h : s.events = e :: rest) :
    step s = carryOut (eventMove e { s with events := rest }) := by
  rw [step, nextMove_event h]

theorem core_step (s : State) : Sys2Proof.core.step s = step s := rfl

/-- What every step keeps holds after any number of steps. -/
theorem run_induction {P : State → Prop} (hstep : ∀ s t, P s → step s = .next t → P t) :
    ∀ (k : Nat) {s t : State}, P s → Host.Core.run Sys2Proof.core k s = .next t → P t
  | 0, s, t, hs, h => by
    obtain rfl : s = t := Host.Outcome.next.inj h
    exact hs
  | k + 1, s, t, hs, h => by
    rcases hst : step s with u | f | r
    · have hrun : Host.Core.run Sys2Proof.core (k + 1) s = Host.Core.run Sys2Proof.core k u := by
        simp only [Host.Core.run, core_step, hst]
      exact run_induction hstep k (hstep s u hs hst) (hrun ▸ h)
    · cases f
    · have hrun : Host.Core.run Sys2Proof.core (k + 1) s = .refused r := by
        simp only [Host.Core.run, core_step, hst]
      rw [hrun] at h
      cases h

/-! #### The latched operands, the duties and the check -/

theorem latch_congr {s t : State} (h : SameOperands s t) : latch t = latch s := by
  obtain ⟨hw, hh, hl, hg, hb, hr, ha⟩ := h
  simp only [latch, hw, hh, hl, hg, hb, hr, ha]

theorem OnlyPlaneBytes.latch_eq {s t : State} (h : OnlyPlaneBytes s t) : latch t = latch s :=
  latch_congr ⟨h.width, h.height, h.len, h.strideG, h.strideB, h.strideR, h.allocFail⟩

theorem validateGeometry_eq_none {o : Operands} :
    validateGeometry o = none ↔
      o.width.toNat % 8 = 0 ∧ o.width ≠ 0 ∧ o.height ≠ 0 ∧ requiredSize o ≤ o.len.toNat := by
  simp only [validateGeometry, Config.blockPixels]
  split_ifs with h8 h0 hlen
  · exact iff_of_false (by simp) fun h => h8 h.1
  · exact iff_of_false (by simp) fun h => h0.elim h.2.1 h.2.2.1
  · exact iff_of_false (by simp) fun h => h.2.2.2.not_gt hlen
  · rw [not_or] at h0
    exact iff_of_true rfl ⟨not_not.mp h8, h0.1, h0.2, not_lt.mp hlen⟩

theorem decodeError_eq_none {o : Operands} :
    decodeError o = none ↔ validateGeometry o = none ∧ o.allocFail ≠ 1 := by
  rcases h : validateGeometry o with _ | e <;> simp [decodeError, h]

/-- The check of an operation looks at its code, its operands and the extent of the spaces only. -/
theorem checkOperation_congr {op op' : Operation} {s t : State} (hc : op'.code = op.code) (ho : op'.ops = op.ops)
    (hi : t.input.size = s.input.size) (hp : ∀ c, (t.plane c).slots = (s.plane c).slots) :
    checkOperation op' t = checkOperation op s := by
  simp only [checkOperation, checkDecode, hc, ho, brokenDuty_congr hi hp]

/-- Blocks are begun for a `DECODE` without an error and without a broken duty only, and they are those of its frame. -/
theorem checkOperation_proceed {op : Operation} {s : State} {pending : List PendingBlock}
    (h : checkOperation op s = .proceed pending) :
    op.code = .decode ∧ decodeError op.ops = none ∧ brokenDuty op.ops s = none ∧ pending = allBlocks op.ops := by
  rcases hc : op.code with _ | _
  · simp [checkOperation, hc] at h
  · rcases he : decodeError op.ops with _ | e
    · rcases hb : brokenDuty op.ops s with _ | r
      · simp only [checkOperation, hc, checkDecode, he, hb, CheckOutcome.proceed.injEq] at h
        exact ⟨rfl, rfl, rfl, h.symm⟩
      · simp [checkOperation, hc, checkDecode, he, hb] at h
    · simp [checkOperation, hc, checkDecode, he] at h

/-! #### The frame -/

/-- A frame that passes the validator has a block in every line. -/
theorem blocksPerLine_pos {o : Operands} (h : decodeError o = none) : 0 < blocksPerLine o.width := by
  obtain ⟨hw8, hw, -, -⟩ := validateGeometry_eq_none.mp (decodeError_eq_none.mp h).1
  have : o.width.toNat ≠ 0 := fun h0 => hw (BitVec.eq_of_toNat_eq h0)
  simp only [blocksPerLine]
  omega

/-- After a block of the frame the cursor is in the frame again, or at the first block below it. -/
theorem Cursor.next_mem_frame {o : Operands} {pc : Cursor} (hr : pc.row < o.height.toNat)
    (hb : pc.blk < blocksPerLine o.width) :
    (pc.next o).row ≤ o.height.toNat ∧ (pc.next o).blk < blocksPerLine o.width := by
  simp only [Cursor.next]
  split
  · exact ⟨hr.le, ‹_›⟩
  · exact ⟨hr, Nat.zero_lt_of_lt hb⟩

theorem blocksPerLine_le (w : BitVec 16) : blocksPerLine w ≤ 8191 := by
  have := w.isLt
  simp only [blocksPerLine]
  omega

/-- `R` is at most 65535 × 8191 × 36 (spec/40_geometry_validator.md R73). -/
theorem requiredSize_le (o : Operands) : requiredSize o ≤ 19324698660 := by
  have hh : o.height.toNat ≤ 65535 := Nat.le_of_lt_succ o.height.isLt
  calc requiredSize o ≤ 65535 * 8191 * 36 :=
        Nat.mul_le_mul_right 36 (Nat.mul_le_mul hh (blocksPerLine_le o.width))
    _ = 19324698660 := by norm_num

theorem stride_lt (o : Operands) (c : Chan) : o.stride c < 2 ^ 32 := by
  cases c
  · exact o.strideG.isLt
  · exact o.strideB.isLt
  · exact o.strideR.isLt

/-- Slots of the frame differ for different blocks and pixels, where a line of the plane is as long as a line of the
frame or there is one line only (spec/42_frame_decoder.md R129, log 7). -/
theorem slotOf_inj {o : Operands} {c : Chan} {pc pc' : Cursor} {p p' : Fin 8}
    (hs : o.width.toNat ≤ o.stride c ∨ o.height.toNat ≤ 1)
    (hr : pc.row < o.height.toNat) (hr' : pc'.row < o.height.toNat)
    (hb : pc.blk < blocksPerLine o.width) (hb' : pc'.blk < blocksPerLine o.width)
    (h : slotOf o c pc p = slotOf o c pc' p') : pc = pc' ∧ p = p' := by
  obtain ⟨row, blk⟩ := pc
  obtain ⟨row', blk'⟩ := pc'
  simp only [slotOf, blocksPerLine, Config.blockPixels] at *
  have hrow : row = row' := by
    rcases hs with hs | hs
    · rcases Nat.lt_trichotomy row row' with hlt | heq | hgt
      · have := Nat.mul_le_mul_right (o.stride c) (Nat.succ_le_of_lt hlt)
        rw [Nat.succ_mul] at this
        omega
      · exact heq
      · have := Nat.mul_le_mul_right (o.stride c) (Nat.succ_le_of_lt hgt)
        rw [Nat.succ_mul] at this
        omega
    · omega
  subst hrow
  have hblk : blk = blk' := by omega
  subst hblk
  exact ⟨rfl, Fin.ext (by omega)⟩

/-- The stores of the frame of a `DECODE` whose duties are met agree. -/
theorem frameWrites_consistent {o : Operands} {s : State} (h : brokenDuty o s = none) :
    Consistent (frameWrites o s (allBlocks o)) := by
  intro c k v v' hv hv'
  obtain ⟨b, hb, p, rfl, rfl⟩ := mem_frameWrites.mp hv
  obtain ⟨b', hb', p', hk, rfl⟩ := mem_frameWrites.mp hv'
  obtain ⟨hr, hl, -⟩ := mem_allBlocks.mp hb
  obtain ⟨hr', hl', -⟩ := mem_allBlocks.mp hb'
  obtain ⟨hpos, hp⟩ := slotOf_inj (((brokenDuty_eq_none o s).mp h).2 c).1 hr hr' hl hl' hk
  rw [hpos, hp]

/-- The slots of the blocks of the frame are there when the host's duties are met. -/
theorem slotOf_lt_slots {o : Operands} {s : State} (h : brokenDuty o s = none) {pc : Cursor}
    (hr : pc.row < o.height.toNat) (hb : pc.blk < blocksPerLine o.width) (c : Chan) (p : Fin 8) :
    slotOf o c pc p < (s.plane c).slots :=
  (slotOf_lt_neededSlots hr hb).trans_le (((brokenDuty_eq_none o s).mp h).2 c).2

theorem frameWrites_fits {o : Operands} {s : State} (h : brokenDuty o s = none) :
    Fits s (frameWrites o s (allBlocks o)) := by
  rintro ⟨c, k, v⟩ hw
  obtain ⟨b, hb, p, rfl, -⟩ := mem_frameWrites.mp hw
  obtain ⟨hr, hl, -⟩ := mem_allBlocks.mp hb
  exact slotOf_lt_slots h hr hl c p

/-! #### The invariant by cases -/

theorem memoryOk_iff {s : State} : s.MemoryOk ↔ InputBuf.wf s.input ∧ PlanesOk s :=
  ⟨fun h => ⟨h.1, planesOk_of_memoryOk h⟩, fun h => ⟨h.1, h.2 .g, h.2 .b, h.2 .r⟩⟩

/-- An idle state meets the invariant when its memory, `STATUS` and `CONSUMED` do. -/
theorem inv_idle_iff {s : State} (h : s.run = none) :
    s.Inv ↔ s.MemoryOk ∧ s.status ∈ idleStatuses ∧ (statusOk s.status = 0 → s.consumed = 0) := by
  simp [State.Inv, State.StatusOk, h]

/-- A busy state meets the invariant when its memory is canonical, `STATUS` is `BUSY` alone, `CONSUMED` is 0 and the
hidden state is one the operation can have. -/
theorem inv_busy_iff {s : State} {op : Operation} (h : s.run = some op) :
    s.Inv ↔ s.MemoryOk ∧ (s.status = busyStatus ∧ s.consumed = 0) ∧ op.Ok s := by
  simp [State.Inv, State.StatusOk, h]

/-- The hidden state depends on the operand registers and the extent of the spaces only. -/
theorem Operation.Ok.congr {op : Operation} {s t : State} (h : op.Ok s) (hl : latch t = latch s)
    (hi : t.input.size = s.input.size) (hp : ∀ c, (t.plane c).slots = (s.plane c).slots) : op.Ok t := by
  obtain ⟨code, o, stage⟩ := op
  obtain ⟨ho, hst⟩ := h
  refine ⟨ho.trans hl.symm, ?_⟩
  cases stage with
  | check => trivial
  | post r => exact (checkOperation_congr rfl rfl hi hp).trans hst
  | blocks pc pending =>
    obtain ⟨hc, he, hd, hrest⟩ := hst
    exact ⟨hc, he, (brokenDuty_congr hi hp).trans hd, hrest⟩

/-- A state alike to one that meets the invariant, but for what the model keeps of the outside and the bytes of the
spaces, meets it when its bytes are canonical. -/
theorem State.Inv.congr {s t : State} (h : s.Inv) (hm : t.MemoryOk) (hrun : t.run = s.run)
    (hst : t.status = s.status) (hc : t.consumed = s.consumed) (hl : latch t = latch s)
    (hx : s.run = none ∨ (t.input.size = s.input.size ∧ ∀ c, (t.plane c).slots = (s.plane c).slots)) : t.Inv := by
  rcases hr : s.run with _ | op
  · obtain ⟨-, hidle⟩ := (inv_idle_iff hr).mp h
    rw [inv_idle_iff (hrun.trans hr), hst, hc]
    exact ⟨hm, hidle⟩
  · obtain ⟨-, hbusy, hop⟩ := (inv_busy_iff hr).mp h
    obtain ⟨hi, hp⟩ := hx.resolve_left (by simp [hr])
    rw [inv_busy_iff (hrun.trans hr), hst, hc]
    exact ⟨hm, hbusy, hop.congr hl hi hp⟩

end Sys2Proof.Machine

/-! ### The whole operations: what `VALIDATE` and `DECODE` answer, and when -/

namespace Sys2Proof.Machine

theorem execValidate_busy {s : State} (h : s.run ≠ none) : execValidate s = .refused .commandWhileBusy := by
  obtain ⟨op, ho⟩ := Option.ne_none_iff_exists'.mp h
  simp only [execValidate, ho]

theorem execDecode_busy {s : State} (h : s.run ≠ none) : execDecode s = .refused .commandWhileBusy := by
  obtain ⟨op, ho⟩ := Option.ne_none_iff_exists'.mp h
  simp only [execDecode, ho]

/-- The End step forgets the Start step (spec/10_state.md R19). -/
theorem finish_start (r : OpResult) (code : OpCode) (s : State) : finish r (start code s) = finish r s := rfl

theorem finish_withRun (r : OpResult) (run : Option Operation) (s : State) : finish r (s.withRun run) = finish r s := rfl

theorem execValidate_idle {s : State} (h : s.run = none) :
    execValidate s = .next (finish (checkValidate (latch s)) s) := by
  rcases hc : checkValidate (latch s) with c | e
  · simp only [execValidate, h, hc, finish_start]
  · simp only [execValidate, h, hc, raise, finish_start]

/-- A `DECODE` that ends with an error posts it and does nothing else. -/
theorem execDecode_error {s : State} {e : OpError} (h : s.run = none) (he : decodeError (latch s) = some e) :
    execDecode s = .next (finish (.failure e) s) := by
  simp only [execDecode, h, checkDecode, he]
  rfl

/-- The stores of the frame the operand registers name, in the reference order. -/
def frameStores (s : State) : List SlotWrite := frameWrites (latch s) s (allBlocks (latch s))

/-- Nothing keeps a `DECODE` from its frame: no error, no broken duty, and the bytes of every block there. -/
structure FrameReady (s : State) : Prop where
  error : decodeError (latch s) = none
  duty : brokenDuty (latch s) s = none
  there : ∀ b ∈ allBlocks (latch s), BlockThere (latch s) b.pos s

theorem frameStores_congr {s t : State} (hl : latch t = latch s) (hi : t.input = s.input) :
    frameStores t = frameStores s := by
  rw [frameStores, hl, frameWrites_congr hi]
  rfl

theorem FrameReady.congr {s t : State} (h : FrameReady s) (hl : latch t = latch s) (hi : t.input = s.input)
    (hp : ∀ c, (t.plane c).slots = (s.plane c).slots) : FrameReady t where
  error := hl ▸ h.error
  duty := by rw [hl, brokenDuty_congr (congrArg _ hi) hp, h.duty]
  there := by
    rw [hl]
    exact fun b hb => (h.there b hb).congr hi

/-- The state a `DECODE` leaves that completes. -/
def decoded (s : State) : State := finish (decodeSuccess (latch s)) (putAll s (frameStores s))

theorem decoded_run (s : State) : (decoded s).run = none := rfl

theorem decoded_input (s : State) : (decoded s).input = s.input := (putAll_onlyPlaneBytes _ s).input

theorem decoded_slots (s : State) (c : Chan) : ((decoded s).plane c).slots = (s.plane c).slots := by
  rw [decoded, finish_plane, (putAll_onlyPlaneBytes _ s).slots]

theorem decoded_status (s : State) : (decoded s).status = statusWord 0 1 1 0 := rfl

theorem decoded_consumed (s : State) : (decoded s).consumed = resultConsumed (decodeSuccess (latch s)) := rfl

theorem latch_decoded (s : State) : latch (decoded s) = latch s := by
  rw [decoded, latch_finish, (putAll_onlyPlaneBytes _ s).latch_eq]

theorem decoded_plane (s : State) (c : Chan) : (decoded s).plane c = (putAll s (frameStores s)).plane c :=
  finish_plane _ _ c

/-- The state when the blocks of a `DECODE` are begun. -/
def frameBegun (s : State) : State :=
  setStage ⟨.decode, latch s, .check⟩ (.blocks ⟨0, 0⟩ (allBlocks (latch s))) (start .decode s)

theorem frameBegun_run (s : State) :
    (frameBegun s).run = some ⟨.decode, latch s, .blocks ⟨0, 0⟩ (allBlocks (latch s))⟩ := rfl

/-- Stores made and a result posted after the blocks are begun are those made and posted by the idle core. -/
theorem finish_putAll_frameBegun (r : OpResult) (s : State) (ws : List SlotWrite) :
    finish r (putAll (frameBegun s) ws) = finish r (putAll s ws) := by
  rw [finish_putAll, finish_putAll]
  rfl

/-- What `DECODE` comes to when its check finds nothing wrong. -/
theorem execDecode_proceed {s : State} (h : s.run = none) (he : decodeError (latch s) = none)
    (hd : brokenDuty (latch s) s = none) :
    execDecode s =
      match performBlocks (latch s) (allBlocks (latch s)) (frameBegun s) with
      | .next t => .next (finish (decodeSuccess (latch s)) t)
      | .fault f => .fault f
      | .refused r => .refused r := by
  simp only [execDecode, h, checkDecode, he, hd]
  rfl

/-- A `DECODE` whose frame is ready stores it and posts `CONSUMED = R`. -/
theorem execDecode_frame {s : State} (h : s.run = none) (hf : FrameReady s) :
    execDecode s = .next (decoded s) := by
  obtain ⟨pc, pending, hp⟩ := performBlocks_ok (allBlocks (latch s)) (frameBegun_run s) hf.there fun b hb c p => by
    obtain ⟨hr, hl, -⟩ := mem_allBlocks.mp hb
    exact slotOf_lt_slots hf.duty hr hl c p
  rw [execDecode_proceed h hf.error hf.duty, hp]
  simp only [finish_withRun, finish_putAll_frameBegun]
  rfl

/-- When `DECODE` answers a state, the core was idle, and an error was posted or the frame stored. -/
theorem execDecode_inv {s t : State} (h : execDecode s = .next t) :
    s.run = none ∧
      ((∃ e, decodeError (latch s) = some e ∧ t = finish (.failure e) s) ∨
        (FrameReady s ∧ t = decoded s)) := by
  have hidle : s.run = none := by
    by_contra hr
    rw [execDecode_busy hr] at h
    cases h
  refine ⟨hidle, ?_⟩
  rcases he : decodeError (latch s) with _ | e
  · rcases hd : brokenDuty (latch s) s with _ | r
    · have hready : FrameReady s := by
        refine ⟨he, hd, ?_⟩
        rw [execDecode_proceed hidle he hd] at h
        rcases performBlocks_inv (allBlocks (latch s)) (frameBegun_run s) with
          ⟨_, -, ht, -⟩ | ⟨_, hp, -⟩ | ⟨_, hp, -⟩
        · exact ht
        · rw [hp] at h; cases h
        · rw [hp] at h; cases h
      rw [execDecode_frame hidle hready] at h
      exact .inr ⟨hready, (Host.Outcome.next.inj h).symm⟩
    · simp [execDecode, hidle, checkDecode, he, hd] at h
  · rw [execDecode_error hidle he] at h
    exact .inl ⟨e, rfl, (Host.Outcome.next.inj h).symm⟩

/-- What a command performed whole does: on an idle core it makes stores and posts a result. -/
theorem command_inv {code : BitVec 2} {s t : State} (h : carryOut (.perform (.cmd code) s) = .next t) :
    s.run = none ∧ ∃ r ws, Fits s ws ∧ t = finish r (putAll s ws) := by
  have hcases : carryOut (.perform (.cmd code) s) = execValidate s ∨
      carryOut (.perform (.cmd code) s) = execDecode s ∨
      carryOut (.perform (.cmd code) s) = .refused (.reservedCommand code) := by
    simp only [carryOut, decode, decodeCommand]
    match code.toNat with
    | 0 => exact .inr (.inr rfl)
    | 1 => exact .inl (exec_validate s)
    | 2 => exact .inr (.inl (exec_decode s))
    | _ + 3 => exact .inr (.inr rfl)
  rcases hcases with hv | hd | hr
  · rw [hv] at h
    have hidle : s.run = none := by
      by_contra hr
      rw [execValidate_busy hr] at h
      cases h
    rw [execValidate_idle hidle] at h
    exact ⟨hidle, _, [], by simp [Fits], (Host.Outcome.next.inj h).symm⟩
  · rw [hd] at h
    obtain ⟨hidle, ⟨e, -, rfl⟩ | ⟨hready, rfl⟩⟩ := execDecode_inv h
    · exact ⟨hidle, .failure e, [], by simp [Fits], rfl⟩
    · exact ⟨hidle, _, _, frameWrites_fits hready.duty, rfl⟩
  · rw [hr] at h
    cases h

/-- Settles O25: both commands look at the hidden state first. -/
theorem commandWhileBusyRefused : Obligations.CommandWhileBusyRefused := by
  intro s h
  exact ⟨(exec_validate s).trans (execValidate_busy h), (exec_decode s).trans (execDecode_busy h)⟩

/-- Settles O26: the operands, `IN` and the planes decide which of the two ends of an operation is reached, and with
what stores. -/
theorem operationsAreStateless : Obligations.OperationsAreStateless := by
  intro s s' t i hi hs hs' hops hin hpl h
  have hl : latch s' = latch s := latch_congr hops
  rcases hi with rfl | rfl
  · rw [exec_validate, execValidate_idle hs] at h
    obtain rfl := Host.Outcome.next.inj h
    refine ⟨finish (checkValidate (latch s)) s', ?_, rfl, rfl, fun c => ?_⟩
    · rw [exec_validate, execValidate_idle hs', hl]
    · rw [finish_plane, finish_plane, hpl]
  · rw [exec_decode] at h
    obtain ⟨-, ⟨e, he, rfl⟩ | ⟨hf, rfl⟩⟩ := execDecode_inv h
    · refine ⟨finish (.failure e) s', ?_, rfl, rfl, fun c => ?_⟩
      · rw [exec_decode, execDecode_error hs' (hl ▸ he)]
      · rw [finish_plane, finish_plane, hpl]
    · have hf' : FrameReady s' := hf.congr hl hin fun c => by rw [hpl]
      refine ⟨decoded s', (exec_decode s').trans (execDecode_frame hs' hf'), ?_, ?_, fun c => ?_⟩
      · rw [decoded_status, decoded_status]
      · rw [decoded_consumed, decoded_consumed, hl]
      · rw [decoded_plane, decoded_plane, frameStores_congr hl hin, putAll_plane_of_plane _ s s' hpl]

/-- Stores that agree, made twice, leave what they leave made once. -/
theorem putAll_putAll_self {s : State} {ws : List SlotWrite} (hs : PlanesOk s) (hf : Fits s ws) (hc : Consistent ws) :
    putAll (putAll s ws) ws = putAll s ws := by
  have hop := putAll_onlyPlaneBytes ws (putAll s ws)
  refine State.ext_plane _ _ (fun c => ?_) hop.input hop.run hop.width hop.height hop.len hop.strideG hop.strideB
    hop.strideR hop.allocFail hop.status hop.consumed hop.events hop.replies hop.tick
  rw [← putAll_append]
  exact (putAll_plane_congr hs hf hc (by simp) c).symm

/-- The frame stored and its result posted a second time leave the machine as it is. -/
theorem decoded_decoded {s : State} (hm : s.MemoryOk) (hf : FrameReady s) : decoded (decoded s) = decoded s := by
  have hstores : frameStores (decoded s) = frameStores s := frameStores_congr (latch_decoded s) (decoded_input s)
  have htwice : putAll (putAll s (frameStores s)) (frameStores s) = putAll s (frameStores s) :=
    putAll_putAll_self (planesOk_of_memoryOk hm) (frameWrites_fits hf.duty) (frameWrites_consistent hf.duty)
  rw [decoded, hstores, latch_decoded, decoded, ← finish_putAll, htwice]
  rfl

/-- Settles O29: the second `DECODE` makes the stores of the first again, and they agree. -/
theorem decodeAgainChangesNothing : Obligations.DecodeAgainChangesNothing := by
  intro s t hm h
  rw [exec_decode] at h ⊢
  obtain ⟨-, ⟨e, he, rfl⟩ | ⟨hf, rfl⟩⟩ := execDecode_inv h
  · rw [execDecode_error (finish_run _ _) (by rwa [latch_finish])]
    rfl
  · rw [execDecode_frame (decoded_run s) (hf.congr (latch_decoded s) (decoded_input s) (decoded_slots s)),
      decoded_decoded hm hf]

end Sys2Proof.Machine

/-! ### What one move can do

`MoveEffect s t` lists what any move but a reset makes of a state `s`; every move is shown to have one of these effects
once, and what every step keeps is read off the list. -/

namespace Sys2Proof.Machine

/-- The effects of the moves of the host, of the collaborator and of the core. -/
inductive MoveEffect (s : State) : State → Prop
  /-- an idle core waits -/
  | waited : MoveEffect s s
  /-- the host has read a register or a plane -/
  | replied (q : Reply) : MoveEffect s { s with replies := q :: s.replies }
  /-- a register written, on an idle core -/
  | registerSet (n : Nat) (v : BitVec 64) (idle : s.run = none) : MoveEffect s (setRegister s n v)
  /-- the Start step -/
  | started (code : OpCode) (idle : s.run = none) : MoveEffect s (start code s)
  /-- `IN` handed over, taken back or filled; a busy core keeps its extent -/
  | inputSet (p : InputBuf) (size : s.run = none ∨ p.size = s.input.size)
      (canonical : InputBuf.wf s.input → InputBuf.wf p) : MoveEffect s { s with input := p }
  /-- a plane handed over or filled, on an idle core -/
  | planeSet (c : Chan) (p : PlaneBuf) (idle : s.run = none)
      (canonical : PlaneBuf.wf (s.plane c) → PlaneBuf.wf p) : MoveEffect s (s.setPlane c p)
  /-- the End step, after the stores a whole operation makes -/
  | posted (r : OpResult) (ws : List SlotWrite) (fits : Fits s ws) : MoveEffect s (finish r (putAll s ws))
  /-- the *check* step: a result is found -/
  | checked (op : Operation) (r : OpResult) (run : s.run = some op) (found : checkOperation op s = .result r) :
      MoveEffect s (setStage op (.post r) s)
  /-- the *check* step: the blocks of a frame are begun -/
  | begun (op : Operation) (pending : List PendingBlock) (run : s.run = some op)
      (found : checkOperation op s = .proceed pending) : MoveEffect s (setStage op (.blocks ⟨0, 0⟩ pending) s)
  /-- the *block* step -/
  | blockWritten (o : Operands) (pc : Cursor) (pending : List PendingBlock) (b : PendingBlock) (S : Block)
      (run : s.run = some ⟨.decode, o, .blocks pc pending⟩) (picked : b ∈ pending)
      (fits : Fits s (blockWrites o b.pos S)) :
      MoveEffect s ((putAll s (blockWrites o b.pos S)).withRun
        (some ⟨.decode, o, .blocks (b.pos.next o) (blockDone b.pos pending)⟩))
  /-- one sample of a block -/
  | sampleWritten (o : Operands) (pc : Cursor) (pending : List PendingBlock) (b : PendingBlock) (id : SampleId)
      (w : SlotWrite) (run : s.run = some ⟨.decode, o, .blocks pc pending⟩) (picked : b ∈ pending)
      (fits : Fits s [w]) :
      MoveEffect s ((putAll s [w]).withRun (some ⟨.decode, o, .blocks b.pos (laneDone b.pos id pending)⟩))

/-! #### The host's registers -/

theorem registerWidth_eq_none {n : Nat} (h : 11 ≤ n) : registerWidth n = none := by
  obtain ⟨k, rfl⟩ := Nat.exists_eq_add_of_le' h
  rfl

/-- The register file of spec/10_state.md R10, by number. -/
theorem registerValue_eq (s : State) (n : Nat) :
    registerValue s n =
      [0, s.width.setWidth 64, s.height.setWidth 64, s.len, s.strideG.setWidth 64, s.strideB.setWidth 64,
        s.strideR.setWidth 64, s.allocFail.setWidth 64, s.status.setWidth 64, s.consumed,
        Config.format.setWidth 64][n]? := by
  match n with
  | 0 | 1 | 2 | 3 | 4 | 5 | 6 | 7 | 8 | 9 | 10 => rfl
  | k + 11 => rfl

theorem hostWrite_missing {n : Nat} {v : BitVec 64} {s : State} (h : registerWidth n = none) :
    hostWrite n v s = .decline (.noSuchRegister n) := by
  simp only [hostWrite, h]

theorem hostWrite_wide {n w : Nat} {v : BitVec 64} {s : State} (h : registerWidth n = some w) (hv : 2 ^ w ≤ v.toNat) :
    hostWrite n v s = .decline (.datumTooWide n) := by
  simp only [hostWrite, h, if_pos hv]

theorem hostWrite_busy {n w : Nat} {v : BitVec 64} {s : State} (h : registerWidth n = some w) (hv : v.toNat < 2 ^ w)
    (hr : s.run ≠ none) :
    hostWrite n v s = .decline (if n = 0 then .commandWhileBusy else .hostDuringOperation) := by
  simp only [hostWrite, h, if_neg (Nat.not_le.mpr hv), if_pos (Option.isSome_iff_ne_none.mpr hr)]

theorem hostWrite_idle {n w : Nat} {v : BitVec 64} {s : State} (h : registerWidth n = some w) (hv : v.toNat < 2 ^ w)
    (hr : s.run = none) :
    hostWrite n v s = if n = 0 then startCommand (v.setWidth 2) s else .settle (setRegister s n v) := by
  simp only [hostWrite, h, if_neg (Nat.not_le.mpr hv), hr, Option.isSome_none, Bool.false_eq_true, if_false]

theorem startCommand_inv {code : BitVec 2} {s t : State} (h : carryOut (startCommand code s) = .next t) :
    ∃ c, t = start c s := by
  rw [startCommand] at h
  split at h
  · exact ⟨_, (Host.Outcome.next.inj h).symm⟩
  · exact ⟨_, (Host.Outcome.next.inj h).symm⟩
  · cases h

/-- A register write that answers a state: on an idle core it starts an operation or sets a register. -/
theorem hostWrite_inv {n : Nat} {v : BitVec 64} {s t : State} (h : carryOut (hostWrite n v s) = .next t) :
    s.run = none ∧ ((n = 0 ∧ ∃ c, t = start c s) ∨ (n ≠ 0 ∧ t = setRegister s n v)) := by
  rcases hw : registerWidth n with _ | w
  · rw [hostWrite_missing hw] at h
    cases h
  · rcases Nat.lt_or_ge v.toNat (2 ^ w) with hv | hv
    · by_cases hr : s.run = none
      · rw [hostWrite_idle hw hv hr] at h
        refine ⟨hr, ?_⟩
        split_ifs at h with hn
        · exact .inl ⟨hn, startCommand_inv h⟩
        · exact .inr ⟨hn, (Host.Outcome.next.inj h).symm⟩
      · rw [hostWrite_busy hw hv hr] at h
        cases h
    · rw [hostWrite_wide hw hv] at h
      cases h

theorem hostRead_missing {n : Nat} {s : State} (h : registerValue s n = none) :
    hostRead n s = .decline (.noSuchRegister n) := by
  simp only [hostRead, h]

theorem hostRead_busy {n : Nat} {v : BitVec 64} {s : State} (h : registerValue s n = some v) (hr : s.run ≠ none)
    (hn : n ≠ 8) : hostRead n s = .decline .hostDuringOperation := by
  simp only [hostRead, h, if_pos (And.intro (Option.isSome_iff_ne_none.mpr hr) hn)]

/-- A register may be read on an idle core, and `STATUS` always. -/
theorem hostRead_some {n : Nat} {v : BitVec 64} {s : State} (h : registerValue s n = some v)
    (hr : s.run = none ∨ n = 8) : hostRead n s = .settle { s with replies := .reg n v :: s.replies } := by
  have hallowed : ¬(s.run.isSome ∧ n ≠ 8) := by
    rintro ⟨hb, h8⟩
    exact hr.elim (Option.isSome_iff_ne_none.mp hb) h8
  simp only [hostRead, h, if_neg hallowed]

/-! #### Every move has an effect of the list -/

/-- A move of the host that a busy core refuses and an idle core lets be. -/
theorem effect_of_idleOnly {s t : State} {m : NextMove}
    (h : carryOut (if s.run.isSome then .decline .hostDuringOperation else m) = .next t)
    (hm : s.run = none → carryOut m = .next t → MoveEffect s t) : MoveEffect s t := by
  split_ifs at h with hb
  · cases h
  · exact hm (Option.not_isSome_iff_eq_none.mp hb) h

theorem effect_hostRead {n : Nat} {s t : State} (h : carryOut (hostRead n s) = .next t) : MoveEffect s t := by
  rcases hv : registerValue s n with _ | v
  · rw [hostRead_missing hv] at h
    cases h
  · by_cases hr : s.run = none ∨ n = 8
    · rw [hostRead_some hv hr] at h
      obtain rfl := Host.Outcome.next.inj h
      exact .replied _
    · rw [not_or] at hr
      rw [hostRead_busy hv hr.1 hr.2] at h
      cases h

theorem effect_hostStoreIn {a : Nat} {b : Byte} {s t : State} (h : carryOut (hostStoreIn a b s) = .next t) :
    MoveEffect s t := by
  rw [hostStoreIn] at h
  split_ifs at h with hb ha
  · cases h
  · obtain rfl := Host.Outcome.next.inj h
    exact .inputSet _ (.inr rfl) fun hw => InputBuf.wf_store hw ha b
  · cases h

theorem InputBuf.wf_nil (size : Nat) : InputBuf.wf ⟨size, []⟩ :=
  ⟨List.Pairwise.nil, fun _ hx => absurd hx (by simp)⟩

theorem PlaneBuf.wf_nil (slots : Nat) : PlaneBuf.wf ⟨slots, []⟩ :=
  ⟨List.Pairwise.nil, fun _ hx => absurd hx (by simp)⟩

/-- A byte put into a slot the plane has keeps its canonical form. -/
theorem PlaneBuf.wf_store {p : PlaneBuf} (h : PlaneBuf.wf p) {a : Nat} (ha : a < 2 * p.slots) (b : Byte) :
    PlaneBuf.wf ⟨p.slots, Memory.write p.cells a b⟩ := by
  refine ⟨Memory.wf_write h.1 a b, fun x hx => ?_⟩
  rcases Memory.mem_write hx with rfl | hx
  · exact ha
  · exact h.2 x hx

/-- The *block* step on a pending block. -/
theorem effect_fetchWork {s t : State} {code : OpCode} {o : Operands} {pc : Cursor} {pending : List PendingBlock}
    {b : PendingBlock} (hr : s.run = some ⟨code, o, .blocks pc pending⟩) (hb : b ∈ pending)
    (h : carryOut (fetchWork o b s) = .next t) : MoveEffect s t := by
  rcases hS : fetchBlock o b.pos s.input.cells with r | S
  · simp only [fetchWork, hS, carryOut_decline, reduceCtorEq] at h
  · simp only [fetchWork, hS, carryOut_block, selectBlock_eq hr] at h
    obtain ⟨o', pos, pending', hsel, hfit, rfl⟩ := execUnpack_inv h
    rw [withRun_run, Option.some_inj] at hsel
    cases hsel
    rw [putAll_withRun, withRun_withRun]
    exact .blockWritten o pc pending b S hr hb fun w hw => withRun_plane _ s w.1 ▸ hfit w hw

theorem effect_coreMove {n : Nat} {s t : State} (h : carryOut (coreMove n s) = .next t) : MoveEffect s t := by
  rcases hr : s.run with _ | ⟨code, o, stage⟩
  · simp only [coreMove, hr, carryOut_settle, Host.Outcome.next.injEq] at h
    exact h ▸ .waited
  · cases stage with
    | check =>
      rcases hc : checkOperation ⟨code, o, .check⟩ s with r | pending | r <;>
        simp only [coreMove, hr, hc, carryOut_settle, carryOut_decline, Host.Outcome.next.injEq, reduceCtorEq] at h
      · exact h ▸ .checked _ r hr hc
      · exact h ▸ .begun _ pending hr hc
    | post r =>
      simp only [coreMove, hr, carryOut_settle, Host.Outcome.next.injEq] at h
      exact h ▸ .posted r [] (by simp [Fits])
    | blocks pc pending =>
      rw [coreMove_blocks n hr] at h
      cases pending with
      | nil => exact Host.Outcome.next.inj h ▸ .posted _ [] (by simp [Fits])
      | cons b bs => exact effect_fetchWork hr (pickBlock_mem n b bs) h

/-- The move of one sample of a pending block. -/
theorem effect_sample {s t : State} {o : Operands} {pc : Cursor} {pending : List PendingBlock}
    {b : PendingBlock} {id : SampleId} (hr : s.run = some ⟨.decode, o, .blocks pc pending⟩) (hb : b ∈ pending)
    (h : carryOut (.perform (.sample id) (selectBlock b.pos s)) = .next t) : MoveEffect s t := by
  rcases hd : decode (.sample id) with e | i
  · simp only [carryOut, hd, reduceCtorEq] at h
  · obtain ⟨e, -, -, -, hexec⟩ := exec_sample hd
    simp only [carryOut, hd, hexec, selectBlock_eq hr] at h
    obtain ⟨o', pos, pending', x, y, hsel, -, -, hfit, rfl⟩ := extract_inv h
    rw [withRun_run, Option.some_inj] at hsel
    cases hsel
    rw [withRun_plane] at hfit
    rw [← putAll_nil (putSlot _ _), ← putAll_cons, putAll_withRun, withRun_withRun]
    exact .sampleWritten o pc pending b _ _ hr hb (by simpa [Fits] using hfit)

theorem effect_laneMove {n m : Nat} {s t : State} (h : carryOut (laneMove n m s) = .next t) : MoveEffect s t := by
  rcases laneMove_cases n m s with ⟨o, pc, b, bs, id, hr, -, hl⟩ | hl
  · rw [hl] at h
    exact effect_sample hr (pickBlock_mem n b bs) h
  · rw [hl] at h
    exact effect_coreMove h

theorem effect_eventMove {e : Event} {s t : State} (he : e ≠ .reset) (h : carryOut (eventMove e s) = .next t) :
    MoveEffect s t := by
  cases e with
  | regWrite n v =>
    obtain ⟨hr, ⟨-, c, rfl⟩ | ⟨-, rfl⟩⟩ := hostWrite_inv h
    · exact .started c hr
    · exact .registerSet n v hr
  | regRead n => exact effect_hostRead h
  | command code =>
    obtain ⟨-, r, ws, hf, rfl⟩ := command_inv h
    exact .posted r ws hf
  | core n => exact effect_coreMove h
  | lane n m => exact effect_laneMove h
  | reset => exact absurd rfl he
  | giveIn size =>
    refine effect_of_idleOnly h fun hr h => ?_
    exact Host.Outcome.next.inj h ▸ .inputSet _ (.inl hr) fun _ => InputBuf.wf_nil size
  | storeIn a b => exact effect_hostStoreIn h
  | freeIn =>
    refine effect_of_idleOnly h fun hr h => ?_
    exact Host.Outcome.next.inj h ▸ .inputSet _ (.inl hr) fun _ => InputBuf.wf_nil 0
  | givePlane c slots =>
    refine effect_of_idleOnly h fun hr h => ?_
    exact Host.Outcome.next.inj h ▸ .planeSet c _ hr fun _ => PlaneBuf.wf_nil slots
  | storePlane c a b =>
    refine effect_of_idleOnly h fun hr h => ?_
    split_ifs at h with ha
    · exact Host.Outcome.next.inj h ▸ .planeSet c _ hr fun hw => PlaneBuf.wf_store hw ha b
    · cases h
  | loadPlane c a =>
    refine effect_of_idleOnly h fun hr h => ?_
    split_ifs at h with ha
    · exact Host.Outcome.next.inj h ▸ .replied _
    · cases h

/-- What a step can do: apply a reset, or make a move of the list, the event it was asked for taken off the list and the
model's counter of free choices perhaps moved. -/
theorem step_cases {s t : State} (h : step s = .next t) :
    (∃ rest, s.events = .reset :: rest ∧ t = resetCore { s with events := rest }) ∨
      ∃ k, MoveEffect { s with events := s.events.tail, tick := k } t := by
  rcases he : s.events with _ | ⟨e, rest⟩
  · by_cases hr : s.run = none
    · have hwait : nextMove s = .settle s := by simp [nextMove, he, hr]
      rw [step, hwait] at h
      obtain rfl := Host.Outcome.next.inj h
      refine .inr ⟨s.tick, ?_⟩
      rw [List.tail_nil, ← he]
      exact .waited
    · rw [step, nextMove_free he hr] at h
      refine .inr ⟨s.tick + 1, ?_⟩
      rw [List.tail_nil, ← he]
      exact effect_coreMove h
  · rw [step_event he] at h
    by_cases hreset : e = .reset
    · subst hreset
      exact .inl ⟨rest, rfl, (Host.Outcome.next.inj h).symm⟩
    · exact .inr ⟨s.tick, effect_eventMove hreset h⟩

end Sys2Proof.Machine

/-! ### The invariant, and what is read off it -/

namespace Sys2Proof.Machine

/-! #### Pending work keeps its form -/

theorem allLanes_ok : allLanes ≠ [] ∧ allLanes.Nodup ∧ ∀ id ∈ allLanes, id.toNat < 24 := by decide

theorem allBlocks_ok {o : Operands} : ∀ b ∈ allBlocks o, PendingBlock.Ok o b := by
  intro b hb
  obtain ⟨hr, hl, hlanes⟩ := mem_allBlocks.mp hb
  exact ⟨hr, hl, hlanes ▸ allLanes_ok⟩

theorem blockDone_ok {o : Operands} {pos : Cursor} {pending : List PendingBlock}
    (h : ∀ b ∈ pending, PendingBlock.Ok o b) : ∀ b ∈ blockDone pos pending, PendingBlock.Ok o b :=
  fun b hb => h b (mem_blockDone.mp hb).1

theorem blockDone_pairwise {pos : Cursor} {pending : List PendingBlock}
    (h : pending.Pairwise fun a b => a.pos ≠ b.pos) : (blockDone pos pending).Pairwise fun a b => a.pos ≠ b.pos :=
  h.filter _

theorem laneDone_ok {o : Operands} {pos : Cursor} {id : SampleId} {pending : List PendingBlock}
    (h : ∀ b ∈ pending, PendingBlock.Ok o b) : ∀ b ∈ laneDone pos id pending, PendingBlock.Ok o b := by
  intro b hb
  rcases mem_laneDone.mp hb with ⟨hb, -⟩ | ⟨hpos, b', hb', hpos', hlanes, hne⟩
  · exact h b hb
  · obtain ⟨hr, hl, -, hnodup, hid⟩ := h b' hb'
    refine ⟨?_, ?_, hne, hlanes ▸ hnodup.filter _, fun l hm => hid l ?_⟩
    · rwa [hpos, ← hpos']
    · rwa [hpos, ← hpos']
    · rw [hlanes] at hm
      exact List.mem_of_mem_filter hm

/-- A sample taken off drops the first block or leaves it at its position. -/
theorem laneDone_cons (pos : Cursor) (id : SampleId) (b : PendingBlock) (bs : List PendingBlock) :
    laneDone pos id (b :: bs) = laneDone pos id bs ∨
      ∃ b', b'.pos = b.pos ∧ laneDone pos id (b :: bs) = b' :: laneDone pos id bs := by
  by_cases hp : b.pos = pos
  · rcases hl : b.lanes.filter fun l => !(l == id) with _ | ⟨l, ls⟩
    · exact .inl (by simp only [laneDone, List.filterMap_cons, if_pos hp, hl])
    · exact .inr ⟨⟨pos, l :: ls⟩, hp.symm, by simp only [laneDone, List.filterMap_cons, if_pos hp, hl]⟩
  · exact .inr ⟨b, rfl, by simp only [laneDone, List.filterMap_cons, if_neg hp]⟩

theorem laneDone_positions (pos : Cursor) (id : SampleId) (pending : List PendingBlock) :
    ((laneDone pos id pending).map PendingBlock.pos).Sublist (pending.map PendingBlock.pos) := by
  induction pending with
  | nil => exact List.Sublist.refl _
  | cons b bs ih =>
    rcases laneDone_cons pos id b bs with h | ⟨b', hb', h⟩
    · rw [h]
      exact ih.cons _
    · rw [h, List.map_cons, List.map_cons, hb']
      exact ih.cons_cons _

theorem laneDone_pairwise {pos : Cursor} {id : SampleId} {pending : List PendingBlock}
    (h : pending.Pairwise fun a b => a.pos ≠ b.pos) :
    (laneDone pos id pending).Pairwise fun a b => a.pos ≠ b.pos :=
  List.pairwise_map.mp ((List.pairwise_map.mpr h).sublist (laneDone_positions pos id pending))

/-! #### Every effect keeps the invariant -/

theorem putAll_memoryOk {s : State} {ws : List SlotWrite} (h : s.MemoryOk) (hf : Fits s ws) :
    (putAll s ws).MemoryOk := by
  obtain ⟨hi, hp⟩ := memoryOk_iff.mp h
  exact memoryOk_iff.mpr ⟨(putAll_onlyPlaneBytes ws s).input ▸ hi, putAll_planesOk ws hp hf⟩

theorem setPlane_memoryOk {s : State} {c : Chan} {p : PlaneBuf} (h : s.MemoryOk) (hp : PlaneBuf.wf p) :
    (s.setPlane c p).MemoryOk := by
  obtain ⟨hi, hs⟩ := memoryOk_iff.mp h
  refine memoryOk_iff.mpr ⟨(setPlane_input s c p).symm ▸ hi, fun c' => ?_⟩
  rw [setPlane_plane]
  split
  · exact hp
  · exact hs c'

/-- The `STATUS` of a success is 0x06, whatever was consumed (spec/10_state.md R17). -/
theorem resultStatus_success (c : BitVec 64) : resultStatus (.success c) = 0x06 := rfl

theorem resultStatus_failure_mem (e : OpError) :
    resultStatus (.failure e) ∈ ([0x0A, 0x12, 0x1A] : List (BitVec 5)) := by
  cases e <;> decide

theorem resultStatus_mem (r : OpResult) : resultStatus r ∈ idleStatuses := by
  rcases r with c | e
  · rw [resultStatus_success]
    decide
  · exact List.mem_cons_of_mem _ (List.mem_cons_of_mem _ (resultStatus_failure_mem e))

/-- `CONSUMED` is posted as 0 with every result that is not `OK` (spec/10_state.md R18). -/
theorem resultConsumed_of_not_ok {r : OpResult} (h : statusOk (resultStatus r) = 0) : resultConsumed r = 0 := by
  rcases r with c | e
  · rw [resultStatus_success] at h
    exact absurd h (by decide)
  · rfl

theorem finish_inv {s : State} (r : OpResult) (h : s.MemoryOk) : (finish r s).Inv :=
  (inv_idle_iff (finish_run r s)).mpr ⟨h, resultStatus_mem r, resultConsumed_of_not_ok⟩

theorem start_inv {s : State} (code : OpCode) (h : s.MemoryOk) : (start code s).Inv :=
  (inv_busy_iff (start_run code s)).mpr ⟨h, ⟨rfl, rfl⟩, rfl, trivial⟩

theorem resetCore_inv {s : State} (h : s.MemoryOk) : (resetCore s).Inv :=
  (inv_idle_iff (resetCore_run s)).mpr ⟨h, List.mem_cons_self, fun _ => rfl⟩

/-- A register write leaves all but the operand registers as it was. -/
theorem setRegister_frame (s : State) (n : Nat) (v : BitVec 64) :
    (setRegister s n v).run = s.run ∧ (setRegister s n v).status = s.status ∧
      (setRegister s n v).consumed = s.consumed ∧ (setRegister s n v).events = s.events ∧
      ((setRegister s n v).MemoryOk ↔ s.MemoryOk) := by
  unfold setRegister
  split <;> exact ⟨rfl, rfl, rfl, rfl, Iff.rfl⟩

/-- The check's finding becomes the hidden state of a busy core. -/
theorem setStage_inv {s : State} {op : Operation} {st : Stage} (h : s.Inv) (hr : s.run = some op)
    (hst : Operation.Ok ⟨op.code, op.ops, st⟩ s) : (setStage op st s).Inv := by
  obtain ⟨hm, hbusy, -⟩ := (inv_busy_iff hr).mp h
  exact (inv_busy_iff (setStage_run op st s)).mpr
    ⟨hm, hbusy, hst.congr (latch_setStage op st s) rfl fun c => by rw [setStage_plane]⟩

/-- The stores of running blocks and the pending work taken off: what is left to show is of the cursor and of the pending
blocks. -/
theorem blocks_inv {s : State} {o : Operands} {pc pc' : Cursor} {pending pending' : List PendingBlock}
    {ws : List SlotWrite} (h : s.Inv) (hr : s.run = some ⟨.decode, o, .blocks pc pending⟩) (hf : Fits s ws)
    (hrow : pc'.row ≤ o.height.toNat) (hblk : pc'.blk < blocksPerLine o.width)
    (hok : (∀ b ∈ pending, PendingBlock.Ok o b) → ∀ b ∈ pending', PendingBlock.Ok o b)
    (hpw : (pending.Pairwise fun a b => a.pos ≠ b.pos) → pending'.Pairwise fun a b => a.pos ≠ b.pos) :
    ((putAll s ws).withRun (some ⟨.decode, o, .blocks pc' pending'⟩)).Inv := by
  obtain ⟨hm, ⟨hst, hc⟩, hops, hcode, herr, hduty, -, -, hpend, hdist⟩ := (inv_busy_iff hr).mp h
  have hop := putAll_onlyPlaneBytes ws s
  have hkept : Operation.Ok ⟨.decode, o, .blocks pc' pending'⟩ s :=
    ⟨hops, hcode, herr, hduty, hrow, hblk, hok hpend, hpw hdist⟩
  refine (inv_busy_iff (withRun_run _ _)).mpr ⟨putAll_memoryOk hm hf, ⟨?_, ?_⟩, hkept.congr ?_ ?_ fun c => ?_⟩
  · rw [withRun_status, hop.status, hst]
  · rw [withRun_consumed, hop.consumed, hc]
  · rw [withRun_latch, hop.latch_eq]
  · rw [withRun_input, hop.input]
  · rw [withRun_plane, hop.slots]

/-- The block of a pending block is in the frame. -/
theorem State.Inv.pending_ok {s : State} {o : Operands} {pc : Cursor} {pending : List PendingBlock} (h : s.Inv)
    (hr : s.run = some ⟨.decode, o, .blocks pc pending⟩) {b : PendingBlock} (hb : b ∈ pending) :
    PendingBlock.Ok o b := by
  obtain ⟨-, -, -, -, -, -, -, -, hpend, -⟩ := (inv_busy_iff hr).mp h
  exact hpend b hb

theorem MoveEffect.inv {s t : State} (h : s.Inv) (hst : MoveEffect s t) : t.Inv := by
  have hm : s.MemoryOk := h.1
  cases hst with
  | waited => exact h
  | replied q => exact h.congr hm rfl rfl rfl rfl (.inr ⟨rfl, fun _ => rfl⟩)
  | registerSet n v idle =>
    obtain ⟨hr, hstatus, hc, -, hmem⟩ := setRegister_frame s n v
    rw [inv_idle_iff (hr.trans idle), hmem, hstatus, hc]
    exact (inv_idle_iff idle).mp h
  | started code _ => exact start_inv code hm
  | inputSet p size canonical =>
    obtain ⟨hi, hp⟩ := memoryOk_iff.mp hm
    exact h.congr (memoryOk_iff.mpr ⟨canonical hi, hp⟩) rfl rfl rfl rfl
      (size.imp_right fun hs => ⟨hs, fun _ => rfl⟩)
  | planeSet c p idle canonical =>
    exact h.congr (setPlane_memoryOk hm (canonical (planesOk_of_memoryOk hm c))) (setPlane_run s c p)
      (setPlane_status s c p) (setPlane_consumed s c p) (latch_setPlane s c p) (.inl idle)
  | posted r ws fits => exact finish_inv r (putAll_memoryOk hm fits)
  | checked op r run found =>
    obtain ⟨-, -, hops, -⟩ := (inv_busy_iff run).mp h
    exact setStage_inv h run ⟨hops, (checkOperation_congr rfl rfl rfl fun _ => rfl).trans found⟩
  | begun op pending run found =>
    obtain ⟨-, -, hops, -⟩ := (inv_busy_iff run).mp h
    obtain ⟨hcode, herr, hduty, rfl⟩ := checkOperation_proceed found
    exact setStage_inv h run ⟨hops, hcode, herr, hduty, Nat.zero_le _, blocksPerLine_pos herr, allBlocks_ok,
      allBlocks_pairwise _⟩
  | blockWritten o pc pending b S run picked fits =>
    obtain ⟨hrow, hblk, -⟩ := h.pending_ok run picked
    obtain ⟨hrow', hblk'⟩ := Cursor.next_mem_frame hrow hblk
    exact blocks_inv h run fits hrow' hblk' blockDone_ok blockDone_pairwise
  | sampleWritten o pc pending b id w run picked fits =>
    obtain ⟨hrow, hblk, -⟩ := h.pending_ok run picked
    exact blocks_inv h run fits hrow.le hblk laneDone_ok laneDone_pairwise

/-- The invariant does not look at the events to come or at the counter of free choices. -/
theorem inv_outside {s : State} (h : s.Inv) (es : List Event) (k : Nat) : { s with events := es, tick := k }.Inv :=
  h.congr h.1 rfl rfl rfl rfl (.inr ⟨rfl, fun _ => rfl⟩)

/-- Settles O50: a reset and every effect of the list keep the invariant. -/
theorem stepKeepsInvariant : Obligations.StepKeepsInvariant := by
  intro s t h hst
  rcases step_cases hst with ⟨rest, -, rfl⟩ | ⟨k, he⟩
  · exact resetCore_inv h.1
  · exact he.inv (inv_outside h _ k)

/-- Settles O49: the reset core is idle, with canonical memory and no result posted. -/
theorem resetMeetsInvariant : Obligations.ResetMeetsInvariant :=
  (inv_idle_iff rfl).mpr ⟨reset_memoryOk, by decide, fun _ => rfl⟩

/-! #### `STATUS` in the states a run reaches -/

/-- What R17 says of the `STATUS` of an idle core. -/
theorem idleStatus_fields : ∀ st ∈ idleStatuses,
    st ∈ ([0x00, 0x01, 0x06, 0x0A, 0x12, 0x1A] : List (BitVec 5)) ∧ statusBusy st = 0 ∧
      (statusDone st = 1 → (statusOk st = 1 ∧ statusErr st = 0) ∨ (statusOk st = 0 ∧ statusErr st ≠ 0)) ∧
      (statusDone st = 0 → statusOk st = 0) := by
  decide

/-- Settles O51: the invariant holds of every state a run reaches, and has the clauses of R17 and R18 in it. -/
theorem reachableStatusIsLegal : Obligations.ReachableStatusIsLegal := by
  intro k s t hs hrun
  have ht : t.Inv := run_induction stepKeepsInvariant k hs hrun
  rcases hr : t.run with _ | op
  · obtain ⟨-, hmem, hcons⟩ := (inv_idle_iff hr).mp ht
    obtain ⟨hval, hbusy, hdone, hundone⟩ := idleStatus_fields _ hmem
    have hnot : ¬statusBusy t.status = 1 := by rw [hbusy]; decide
    exact ⟨hval, iff_of_false hnot (not_not.mpr hr), fun h => absurd h hnot, hdone, fun h => absurd h hnot,
      fun _ h => hcons h, fun h => hcons (hundone h.2)⟩
  · obtain ⟨-, ⟨hst, hcons⟩, -⟩ := (inv_busy_iff hr).mp ht
    have hidle : ¬t.Idle := by simp [State.Idle, hr]
    rw [hst]
    exact ⟨by decide, iff_of_true (by decide) hidle, fun _ => by decide, fun h => absurd h (by decide),
      fun _ => hcons, fun _ _ => hcons, fun _ => hcons⟩

/-! #### Posted or running -/

theorem resetStatus_unposted : Unposted 0 := by
  unfold Unposted
  decide

theorem busyStatus_not_unposted : ¬Unposted busyStatus := by
  rintro ⟨h, -⟩
  exact absurd h (by decide)

theorem resultStatus_not_unposted (r : OpResult) : ¬Unposted (resultStatus r) := by
  have hdone : ∀ st ∈ ([0x06, 0x0A, 0x12, 0x1A] : List (BitVec 5)), statusDone st ≠ 0 := by decide
  refine fun h => hdone (resultStatus r) ?_ h.2
  rcases r with c | e
  · rw [resultStatus_success]
    exact List.mem_cons_self
  · exact List.mem_cons_of_mem _ (resultStatus_failure_mem e)

/-- Every effect leaves the events to come, and leaves `STATUS` or sets it to that of a running operation or of a
result. -/
theorem MoveEffect.events_status {s t : State} (h : MoveEffect s t) :
    t.events = s.events ∧ (t.status = s.status ∨ t.status = busyStatus ∨ ∃ r, t.status = resultStatus r) := by
  cases h with
  | waited => exact ⟨rfl, .inl rfl⟩
  | replied q => exact ⟨rfl, .inl rfl⟩
  | registerSet n v _ =>
    obtain ⟨-, hst, -, he, -⟩ := setRegister_frame s n v
    exact ⟨he, .inl hst⟩
  | started code _ => exact ⟨rfl, .inr (.inl rfl)⟩
  | inputSet p _ _ => exact ⟨rfl, .inl rfl⟩
  | planeSet c p _ _ => exact ⟨setPlane_events s c p, .inl (setPlane_status s c p)⟩
  | posted r ws _ =>
    rw [finish_events, finish_status, (putAll_onlyPlaneBytes ws s).events]
    exact ⟨rfl, .inr (.inr ⟨r, rfl⟩)⟩
  | checked op r _ _ => exact ⟨rfl, .inl rfl⟩
  | begun op pending _ _ => exact ⟨rfl, .inl rfl⟩
  | blockWritten | sampleWritten =>
    rw [withRun_events, withRun_status, (putAll_onlyPlaneBytes _ s).events, (putAll_onlyPlaneBytes _ s).status]
    exact ⟨rfl, .inl rfl⟩

/-- No reset is to come, and an operation runs or a result is posted. -/
def SettledForGood (s : State) : Prop := .reset ∉ s.events ∧ ¬Unposted s.status

theorem step_settledForGood (s t : State) (h : SettledForGood s) (hst : step s = .next t) : SettledForGood t := by
  obtain ⟨hno, hposted⟩ := h
  rcases step_cases hst with ⟨rest, he, -⟩ | ⟨k, heff⟩
  · exact absurd (he ▸ List.mem_cons_self) hno
  · obtain ⟨hev, hstatus⟩ := heff.events_status
    refine ⟨fun hm => hno (List.mem_of_mem_tail ?_), ?_⟩
    · rwa [hev] at hm
    rcases hstatus with h | h | ⟨r, h⟩
    · rw [h]
      exact hposted
    · rw [h]
      exact busyStatus_not_unposted
    · rw [h]
      exact resultStatus_not_unposted r

/-- Settles O52: what a reset, a command and a register write leave, and what every other effect keeps. -/
theorem unpostedOnlyFromResetToCommand : Obligations.UnpostedOnlyFromResetToCommand := by
  refine ⟨fun s rest he => ?_, fun s t rest code v he hst => ?_, fun k s t hno hposted hrun => ?_⟩
  · exact ⟨_, step_event he, resetStatus_unposted⟩
  · rcases he with he | he
    · rw [step_event he] at hst
      obtain ⟨-, r, ws, -, rfl⟩ := command_inv hst
      exact resultStatus_not_unposted r
    · rw [step_event he] at hst
      obtain ⟨-, ⟨-, c, rfl⟩ | ⟨hn, -⟩⟩ := hostWrite_inv (n := 0) hst
      · exact busyStatus_not_unposted
      · exact absurd rfl hn
  · have ht : SettledForGood t := run_induction step_settledForGood k ⟨hno, hposted⟩ hrun
    exact ht.2

end Sys2Proof.Machine

/-! ### The registers, the host's moves, the Start and End steps, and reset -/

namespace Sys2Proof.Machine

/-- Settles O31: the block lies inside the required size, and its slot offset is bounded factor by factor. -/
theorem cursorOffsetsStayInRange : Obligations.CursorOffsetsStayInRange := by
  intro o c pc hr hb
  refine ⟨inOff_le_requiredSize hr hb, requiredSize_le o, ?_, ?_, by norm_num⟩
  · simp only [inOff, Config.blockBytes]
    omega
  · have hrow : pc.row ≤ 65534 := by have := o.height.isLt; omega
    have hstride : o.stride c ≤ 2 ^ 32 := (stride_lt o c).le
    have hprod : pc.row * o.stride c ≤ 65534 * 2 ^ 32 := Nat.mul_le_mul hrow hstride
    have hblk : pc.blk < 8191 := hb.trans_le (blocksPerLine_le o.width)
    simp only [slotOf, Config.blockPixels, Fin.isValue]
    omega

/-- Settles O47: the geometry of a reset core is refused. -/
theorem resetState : Obligations.ResetState := by
  refine ⟨rfl, rfl, rfl, rfl, rfl, rfl, rfl, rfl, rfl, rfl, rfl, ?_⟩
  have he : decodeError (latch State.reset) = some .invalidGeometry := by decide
  rw [exec_decode, execDecode_error rfl he]
  rfl

/-! #### Register writes -/

/-- A register write on an idle core, for a number from 1 on. -/
theorem step_regWrite_idle {s : State} {rest : List Event} {n w : Nat} {v : BitVec 64}
    (he : s.events = .regWrite n v :: rest) (hr : s.run = none) (hw : registerWidth n = some w) (hv : v.toNat < 2 ^ w)
    (hn : n ≠ 0) : step s = .next (setRegister { s with events := rest } n v) := by
  rw [step_event he, eventMove, hostWrite_idle (s := { s with events := rest }) hw hv hr, if_neg hn, carryOut_settle]

/-- Settles O40: each register by its number and width. -/
theorem regWriteSetsOperandRegisters : Obligations.RegWriteSetsOperandRegisters := by
  intro s rest n v he hr
  have hset : ∀ w, registerWidth n = some w → v.toNat < 2 ^ w → n ≠ 0 →
      step s = .next (setRegister { s with events := rest } n v) := fun _ => step_regWrite_idle he hr
  refine ⟨?_, ?_, ?_, ?_, ?_, ?_, ?_, ?_, ?_, ?_⟩
  · rintro rfl hv; exact hset 16 rfl hv (by decide)
  · rintro rfl hv; exact hset 16 rfl hv (by decide)
  · rintro rfl; exact hset 64 rfl v.isLt (by decide)
  · rintro rfl hv; exact hset 32 rfl hv (by decide)
  · rintro rfl hv; exact hset 32 rfl hv (by decide)
  · rintro rfl hv; exact hset 32 rfl hv (by decide)
  · rintro rfl hv; exact hset 1 rfl hv (by decide)
  · rintro rfl hv; exact hset 5 rfl hv (by decide)
  · rintro rfl; exact hset 64 rfl v.isLt (by decide)
  · rintro rfl hv; exact hset 16 rfl hv (by decide)

/-- A write of register 0 on an idle core is the command of its code. -/
theorem step_regWrite_command {s : State} {rest : List Event} {v : BitVec 64} (he : s.events = .regWrite 0 v :: rest)
    (hr : s.run = none) (hv : v.toNat < 2 ^ 2) :
    step s = carryOut (startCommand (v.setWidth 2) { s with events := rest }) := by
  rw [step_event he, eventMove, hostWrite_idle (w := 2) (s := { s with events := rest }) rfl hv hr, if_pos rfl]

/-- Settles O32: the write is the command of its code, and each of the four codes is evaluated. -/
theorem commandWriteStartsOperation : Obligations.CommandWriteStartsOperation := by
  intro s rest v he hr
  refine ⟨?_, ?_, ?_⟩
  · rintro rfl
    exact step_regWrite_command he hr (by decide)
  · rintro rfl
    exact step_regWrite_command he hr (by decide)
  · rintro (rfl | rfl)
    · exact ⟨0, step_regWrite_command he hr (by decide)⟩
    · exact ⟨3, step_regWrite_command he hr (by decide)⟩

/-! #### Register reads -/

/-- A register read that is allowed: on an idle core, and of `STATUS` always. -/
theorem step_regRead {s : State} {rest : List Event} {n : Nat} {v : BitVec 64} (he : s.events = .regRead n :: rest)
    (hv : registerValue s n = some v) (hr : s.run = none ∨ n = 8) :
    step s = .next { s with events := rest, replies := .reg n v :: s.replies } := by
  have hv' : registerValue { s with events := rest } n = some v := by
    rw [← hv, registerValue_eq, registerValue_eq]
  rw [step_event he, eventMove, hostRead_some hv' hr, carryOut_settle]

/-- Settles O41: the list of the statement is the register file of `registerValue_eq`. -/
theorem regReadReturnsRegister : Obligations.RegReadReturnsRegister := by
  intro s rest n v he hr hv
  exact step_regRead he ((registerValue_eq s n).trans hv) (.inl hr)

/-- Settles O42: the invariant gives the `STATUS` of a busy core. -/
theorem pollReadsBusy : Obligations.PollReadsBusy := by
  intro s rest hinv hbusy he
  obtain ⟨op, hop⟩ := Option.ne_none_iff_exists'.mp hbusy
  obtain ⟨-, ⟨hst, -⟩, -⟩ := (inv_busy_iff hop).mp hinv
  have hv : registerValue s 8 = some 1 := by
    rw [registerValue, hst]
    rfl
  exact step_regRead he hv (.inr rfl)

/-! #### Breaches -/

theorem step_declined {s : State} {e : Event} {rest : List Event} {r : Refusal} (he : s.events = e :: rest)
    (h : eventMove e { s with events := rest } = .decline r) : step s = .refused r := by
  rw [step_event he, h, carryOut_decline]

/-- A move of an idle core only is refused while an operation runs. -/
theorem idleOnly_busy {s : State} {m : NextMove} (hr : s.run ≠ none) :
    (if s.run.isSome then .decline .hostDuringOperation else m) = .decline .hostDuringOperation :=
  if_pos (Option.isSome_iff_ne_none.mpr hr)

theorem registerValue_isSome (s : State) {n : Nat} (h : n ≤ 10) : ∃ v, registerValue s n = some v := by
  rw [registerValue_eq]
  exact ⟨_, List.getElem?_eq_getElem (Nat.lt_succ_of_le h)⟩

theorem registerValue_eq_none (s : State) {n : Nat} (h : 11 ≤ n) : registerValue s n = none := by
  rw [registerValue_eq]
  exact List.getElem?_eq_none h

/-- Settles O43: each breach by the law of the host's move it is. -/
theorem hostBreachesAreRefused : Obligations.HostBreachesAreRefused := by
  intro s rest n a v c b
  refine ⟨?missing, ?wide, fun hr => ⟨?write, ?command, ?read, ?storeIn, ?buffer⟩⟩
  case missing =>
    rintro hn (he | he)
    · exact step_declined he (hostWrite_missing (registerWidth_eq_none hn))
    · exact step_declined he (hostRead_missing (registerValue_eq_none _ hn))
  case wide =>
    intro w hw hv he
    exact step_declined he (hostWrite_wide hw hv)
  case write =>
    intro w hw hv hn he
    refine step_declined he ((hostWrite_busy (s := { s with events := rest }) hw hv hr).trans ?_)
    rw [if_neg hn]
  case command =>
    intro hv he
    exact step_declined he (hostWrite_busy (n := 0) (w := 2) rfl hv hr)
  case read =>
    intro hn h8 he
    obtain ⟨v', hv'⟩ := registerValue_isSome { s with events := rest } hn
    exact step_declined he (hostRead_busy hv' hr h8)
  case storeIn =>
    intro ha he
    exact step_declined he (if_pos ⟨Option.isSome_iff_ne_none.mpr hr, ha⟩)
  case buffer =>
    rintro (he | he | he | he | he)
    all_goals exact step_declined he (idleOnly_busy hr)

/-! #### The End step -/

/-- Where no block is pending, every choice names the core's own move. -/
theorem CoreChoice.move_eq_coreMove {s : State} (c : CoreChoice)
    (h : ∀ o pc b bs, s.run ≠ some ⟨.decode, o, .blocks pc (b :: bs)⟩) : ∃ n, c.move s = coreMove n s := by
  cases c with
  | block n => exact ⟨n, rfl⟩
  | lane n m =>
    rcases laneMove_cases n m s with ⟨o, pc, b, bs, id, hr, -⟩ | hl
    · exact absurd hr (h o pc b bs)
    · exact ⟨n, hl⟩

/-- A result that is known is posted. -/
theorem coreStep_post {s : State} {code : OpCode} {o : Operands} {r : OpResult} (c : CoreChoice)
    (hr : s.run = some ⟨code, o, .post r⟩) : coreStep c s = .next (finish r s) := by
  obtain ⟨n, hn⟩ := c.move_eq_coreMove (s := s) (by simp [hr])
  rw [coreStep, hn]
  simp only [coreMove, hr, carryOut_settle]

/-- A `DECODE` with no block pending posts its success. -/
theorem coreStep_blocks_nil {s : State} {code : OpCode} {o : Operands} {pc : Cursor} (c : CoreChoice)
    (hr : s.run = some ⟨code, o, .blocks pc []⟩) : coreStep c s = .next (finish (decodeSuccess o) s) := by
  obtain ⟨n, hn⟩ := c.move_eq_coreMove (s := s) (by simp [hr])
  rw [coreStep, hn, coreMove_blocks n hr, carryOut_settle]

/-- Settles O33: with no block pending every choice is the core's move, and that move is the End step. -/
theorem endStepPostsResult : Obligations.EndStepPostsResult := fun _ _ _ c =>
  ⟨fun _ hr => coreStep_post c hr, fun _ hr => coreStep_post c hr, fun _ hr => coreStep_blocks_nil c hr⟩

end Sys2Proof.Machine

/-! ### Words and operations: the decoder, the encoder, and the placed word -/

namespace Sys2Proof

/-! #### What the decoder answers, format by format -/

theorem decode_encode (i : Instr) : decode (encode i) = .ok i := by cases i <;> rfl

/-- Format `CMD`, by the table of spec/30_encoding.md R61, R62. -/
theorem decodeCommand_cases (code : BitVec 2) :
    (∃ i, decodeCommand code = .ok i ∧ encode i = .cmd code ∧ (code = 1 ∨ code = 2)) ∨
      (decodeCommand code = .error (.reservedCommand code) ∧ code ≠ 1 ∧ code ≠ 2) := by
  rw [decodeCommand]
  split
  case h_1 h =>
    obtain rfl : code = 1 := BitVec.eq_of_toNat_eq h
    exact .inl ⟨_, rfl, rfl, .inl rfl⟩
  case h_2 h =>
    obtain rfl : code = 2 := BitVec.eq_of_toNat_eq h
    exact .inl ⟨_, rfl, rfl, .inr rfl⟩
  case h_3 h1 h2 => exact .inr ⟨rfl, fun h => h1 (congrArg BitVec.toNat h), fun h => h2 (congrArg BitVec.toNat h)⟩

/-- Format `SAMPLE`: the ids 0 to 23 are the extractions, the rest name nothing (spec/30_encoding.md R59, R63). -/
theorem decodeSample_cases (id : SampleId) :
    (∃ i, decodeSample id = .ok i ∧ encode i = .sample id ∧ id.toNat < 24) ∨
      (decodeSample id = .error (.noSuchSample id) ∧ 24 ≤ id.toNat) := by
  rw [decodeSample]
  split
  case h_25 =>
    have hge : 24 ≤ id.toNat := by
      simp only [imp_false] at *
      omega
    exact .inr ⟨rfl, hge⟩
  all_goals exact .inl ⟨_, rfl, congrArg TableWord.sample (BitVec.eq_of_toNat_eq (Eq.symm ‹_›)), by omega⟩

/-- A word is the encoder's word of the operation it decodes to, or it is not well formed and is rejected. -/
theorem decode_cases (w : TableWord) :
    (∃ i, decode w = .ok i ∧ encode i = w ∧ w.wf = true) ∨ (∃ e, decode w = .error e ∧ w.wf = false) := by
  cases w with
  | cmd code =>
    obtain ⟨i, hi, he, hc⟩ | ⟨he, h1, h2⟩ := decodeCommand_cases code
    · exact .inl ⟨i, hi, he, by simpa [TableWord.wf] using hc⟩
    · exact .inr ⟨_, he, by simpa [TableWord.wf] using And.intro h1 h2⟩
  | block S => exact .inl ⟨.unpack S, rfl, rfl, rfl⟩
  | sample id =>
    obtain ⟨i, hi, he, hlt⟩ | ⟨he, hge⟩ := decodeSample_cases id
    · exact .inl ⟨i, hi, he, decide_eq_true hlt⟩
    · exact .inr ⟨_, he, decide_eq_false (Nat.not_lt.mpr hge)⟩

theorem encode_of_decode {w : TableWord} {i : Instr} (h : decode w = .ok i) : encode i = w := by
  obtain ⟨i', hi, he, -⟩ | ⟨e, he, -⟩ := decode_cases w
  · obtain rfl : i' = i := Except.ok.inj (hi.symm.trans h)
    exact he
  · cases he.symm.trans h

theorem wf_iff_decode_ok (w : TableWord) : w.wf = true ↔ ∃ i, decode w = .ok i := by
  obtain ⟨i, hi, -, hw⟩ | ⟨e, he, hw⟩ := decode_cases w
  · simp only [hw, true_iff]
    exact ⟨i, hi⟩
  · simp [hw, he]

/-- Settles O1: the round trip operation by operation, the converse and the rejections format by format. -/
theorem decodeInvertsEncode : Obligations.DecodeInvertsEncode :=
  ⟨decode_encode, fun _ _ => encode_of_decode, wf_iff_decode_ok⟩

/-- Settles O2: codes 1 and 2 are the encoder's words of the two commands, codes 0 and 3 fall through. -/
theorem commandCodesSelectOperations : Obligations.CommandCodesSelectOperations :=
  ⟨decode_encode .validate, decode_encode .decode, rfl, rfl⟩

theorem decodeTableWord_of_encode {nbits w : Nat} {i : Instr} (h : tableWord nbits w = encode i) :
    decodeTableWord nbits w = some i := by
  rw [decodeTableWord, h, decode_encode]
  rfl

/-- Settles O3: each word is the encoder's word of its operation; id 24 falls through. -/
theorem tableWordsDecode : Obligations.TableWordsDecode :=
  ⟨decode_encode .extG0, decode_encode .extG7, decode_encode .extB0, decode_encode .extR0, decode_encode .extR7, rfl,
    decodeTableWord_of_encode rfl, decodeTableWord_of_encode rfl, decodeTableWord_of_encode rfl,
    decodeTableWord_of_encode rfl⟩

/-! #### The bytes of a block -/

theorem Block.byteAt_bit (S : Block) (k : Nat) {i : Nat} (hi : i < 8) :
    (S.byteAt k).getLsbD i = S.getLsbD (8 * k + i) := by
  simp [Block.byteAt, hi]

theorem Block.ofBytes_toBytes (S : Block) : Block.ofBytes (Block.toBytes S) = S := by
  apply BitVec.eq_of_getLsbD_eq
  intro f hf
  have hbit : f % 8 < 8 := Nat.mod_lt f (by omega)
  have hbyte : (Block.toBytes S).getD (f / 8) 0 = S.byteAt (f / 8) := by
    simp [Block.toBytes, show f / 8 < 36 by omega]
  rw [← Nat.div_add_mod f 8, ofBytes_bit _ _ _ (by simp) hbit, hbyte, Block.byteAt_bit S _ hbit]

end Sys2Proof

namespace Sys2Proof.Machine

/-- A block whose bytes stand in `IN` at the offset of a cursor is fetched there (spec/42_frame_decoder.md R123). -/
theorem fetchBlock_writeBytes (S : Block) (o : Operands) (pc : Cursor) (m : Memory) :
    fetchBlock o pc (writeBytes m (inOff o pc) (Block.toBytes S)) = .ok S := by
  have hread : readBytes (writeBytes m (inOff o pc) (Block.toBytes S)) (inOff o pc) Config.blockBytes =
      .ok (Block.toBytes S) := by
    simpa only [toBytes_length] using readBytes_writeBytes m (inOff o pc) (Block.toBytes S)
  simp only [fetchBlock, hread, Block.ofBytes_toBytes]

/-- Settles O4: the bits of a byte, the block of its own bytes, and the read of written bytes. -/
theorem storedBlockIsFetched : Obligations.StoredBlockIsFetched :=
  ⟨fun S k _ _ => Block.byteAt_bit S k, Block.ofBytes_toBytes, fetchBlock_writeBytes⟩

/-! #### A placed word -/

theorem carryOut_perform {w : TableWord} {i : Instr} (h : decode w = .ok i) (s : State) :
    carryOut (.perform w s) = exec i s := by
  simp only [carryOut, h]

theorem selectBlock_events (pos : Cursor) (s : State) : (selectBlock pos s).events = s.events := by
  rw [selectBlock]
  split <;> rfl

/-- The event that a placed word waits behind (log 15). -/
def placedEvent : TableWord → Event
  | .cmd code => .command code
  | .block _ => .core 0
  | .sample _ => .lane 0 0

/-- The state with a placed word, its event taken. -/
def placedState (w : TableWord) (s : State) : State := { placeWord w s with events := s.events }

/-- The operands of the `DECODE` of one block in which a block or a sample is placed (spec/30_encoding.md R60
`UNPACK1`). -/
def oneBlock : Operands := ⟨8, 1, 36, 8, 8, 8, 0⟩

theorem placeWord_events (w : TableWord) (s : State) : (placeWord w s).events = placedEvent w :: s.events := by
  cases w <;> rfl

theorem nextMove_placeWord_eq (w : TableWord) (s : State) :
    nextMove (placeWord w s) = eventMove (placedEvent w) (placedState w s) :=
  nextMove_event (placeWord_events w s)

theorem coreMove_placedBlock (S : Block) (s : State) :
    coreMove 0 (placedState (.block S) s) = .perform (.block S) (selectBlock ⟨0, 0⟩ (placedState (.block S) s)) := by
  have hrun : (placedState (.block S) s).run = some ⟨.decode, oneBlock, .blocks ⟨0, 0⟩ [⟨⟨0, 0⟩, allLanes⟩]⟩ := rfl
  have hoff : inOff oneBlock ⟨0, 0⟩ = 0 := by simp only [inOff, Nat.zero_mul]
  have hcells : (placedState (.block S) s).input.cells =
      writeBytes s.input.cells (inOff oneBlock ⟨0, 0⟩) (Block.toBytes S) := by
    simp only [hoff, placedState, placeWord, insideBlock, widenInput]
  have hfetch : fetchBlock oneBlock ⟨0, 0⟩ (placedState (.block S) s).input.cells = .ok S := by
    rw [hcells, fetchBlock_writeBytes]
  have hpick : pickBlock 0 ⟨⟨0, 0⟩, allLanes⟩ [] = ⟨⟨0, 0⟩, allLanes⟩ := rfl
  rw [coreMove_blocks 0 hrun]
  simp only [fetchWork, hpick, hfetch]

theorem laneMove_placedSample (id : SampleId) (s : State) :
    laneMove 0 0 (placedState (.sample id) s) =
      .perform (.sample id) (selectBlock ⟨0, 0⟩ (placedState (.sample id) s)) := rfl

/-- Every word placed for the next step, of an operation or not, is what the next step fetches. -/
theorem nextMove_placeWord (w : TableWord) (s : State) :
    ∃ s', nextMove (placeWord w s) = .perform w s' ∧ s'.events = s.events := by
  rw [nextMove_placeWord_eq]
  cases w with
  | cmd code => exact ⟨_, rfl, rfl⟩
  | block S => exact ⟨_, coreMove_placedBlock S s, selectBlock_events _ _⟩
  | sample id => exact ⟨_, laneMove_placedSample id s, selectBlock_events _ _⟩

/-- Settles O5: the placed word is fetched, and it is the encoder's word of the operation that then runs. -/
theorem placedInstructionRuns : Obligations.PlacedInstructionRuns := by
  intro i s
  obtain ⟨s', hmove, hevents⟩ := nextMove_placeWord (encode i) s
  exact ⟨s', hmove, by rw [step, hmove, carryOut_perform (decode_encode i)], hevents⟩

/-! #### Block work outside a `DECODE` -/

theorem unpacking_eq_none {s : State} (h : ∀ o pc pending, s.run ≠ some ⟨.decode, o, .blocks pc pending⟩) :
    unpacking s = none :=
  Option.eq_none_iff_forall_ne_some.mpr fun ⟨o, pc, pending⟩ hu => h o pc pending (unpacking_eq_some.mp hu)

theorem execUnpack_refused {s : State} (h : unpacking s = none) (S : Block) :
    execUnpack S s = .refused .noBlockSelected := by
  simp only [execUnpack, h]

theorem extract_refused {s : State} (h : unpacking s = none) (e : Entry) :
    extract e s = .refused .noBlockSelected := by
  simp only [extract, h]

/-- Settles O10: `UNPACK` and the shared operation of the extractions look for the block first. -/
theorem blockWorkNeedsDecode : Obligations.BlockWorkNeedsDecode := by
  intro s S h
  refine ⟨by rw [exec_unpack, execUnpack_refused (unpacking_eq_none h)], fun id i hi => ?_⟩
  obtain ⟨e, -, -, -, hexec⟩ := exec_sample hi
  rw [hexec, extract_refused (unpacking_eq_none h)]

end Sys2Proof.Machine

/-! ### The bit maps: where each bit of a sample and each nibble of a block byte comes from -/

namespace Sys2Proof.Machine

/-! #### The forward map -/

theorem lowNibble_bit (x : Byte) {j : Nat} (hj : j < 4) : (lowNibble x).getLsbD j = x.getLsbD j := by
  have hmask : ∀ j < 4, (0x0F : Byte).getLsbD j = true := by decide
  simp only [lowNibble, BitVec.getLsbD_setWidth, BitVec.getLsbD_and, hmask j hj, hj, decide_true, Bool.true_and,
    Bool.and_true]

theorem highNibble_bit (x : Byte) {j : Nat} (hj : j < 4) : (highNibble x).getLsbD j = x.getLsbD (4 + j) := by
  simp [highNibble, hj]

/-- Bit `j` of a Form A sample: 8 bits of the first byte, then the low nibble of the second
(spec/30_encoding.md R54). -/
theorem formA_bit (c : Chan) (p : Fin 8) (w1 w2 : Fin 9) (b1 b2 : Fin 4) (x y : Byte) {j : Nat} (hj : j < 12) :
    (entryValue (formA c p w1 b1 w2 b2) x y).getLsbD j = if j < 8 then x.getLsbD j else y.getLsbD (j - 8) := by
  rw [entryValue_formA]
  split_ifs with h
  · simp [hj, h]
  · have hnib := lowNibble_bit y (show j - 8 < 4 by omega)
    simp [hj, h, hnib, BitVec.getLsbD_of_ge x j (by omega)]

/-- Bit `j` of a Form B sample: the high nibble of the first byte, then 8 bits of the second
(spec/30_encoding.md R55). -/
theorem formB_bit (c : Chan) (p : Fin 8) (w1 w2 : Fin 9) (b1 b2 : Fin 4) (x y : Byte) {j : Nat} (hj : j < 12) :
    (entryValue (formB c p w1 b1 w2 b2) x y).getLsbD j = if j < 4 then x.getLsbD (4 + j) else y.getLsbD (j - 4) := by
  rw [entryValue_formB]
  split_ifs with h
  · have hnib := highNibble_bit x h
    simp [hj, h, -BitVec.getLsbD_eq_getElem, hnib]
  · simp [hj, h, BitVec.getLsbD_of_ge (highNibble x) j (by omega)]

/-- The samples `UNPACK` writes are of Form A or of Form B (spec/30_encoding.md R53). -/
theorem unpackOrder_forms : ∀ e ∈ unpackOrder,
    e = formA e.chan e.pixel e.lo.word e.lo.byte e.hi.word e.hi.byte ∨
      e = formB e.chan e.pixel e.lo.word e.lo.byte e.hi.word e.hi.byte := by
  decide

/-- The flat block bit that becomes bit `j` of the sample of an entry, by the form of the entry: a high nibble begins at
bit 4 of its byte (spec/30_encoding.md R54, R55, R57). -/
def sourceBit (e : Entry) (j : Nat) : Nat :=
  match e.lo.sel with
  | .high => if j < 4 then 8 * pieceIndex e.lo + (4 + j) else 8 * pieceIndex e.hi + (j - 4)
  | _ => if j < 8 then 8 * pieceIndex e.lo + j else 8 * pieceIndex e.hi + (j - 8)

theorem entrySample_bit {e : Entry} (he : e ∈ unpackOrder) (S : Block) {j : Nat} (hj : j < 12) :
    (entrySample e S).getLsbD j = S.getLsbD (sourceBit e j) := by
  rcases unpackOrder_forms e he with hform | hform
  · rw [entrySample, hform, formA_bit _ _ _ _ _ _ _ _ hj]
    simp only [sourceBit, formA]
    split_ifs with h
    · exact Block.byteAt_bit S _ h
    · exact Block.byteAt_bit S _ (by omega)
  · rw [entrySample, hform, formB_bit _ _ _ _ _ _ _ _ hj]
    simp only [sourceBit, formB]
    split_ifs with h
    · exact Block.byteAt_bit S _ (by omega)
    · exact Block.byteAt_bit S _ (by omega)

/-- The extraction table of spec/41_block_unpacker.md section 2 and the last column of the table of
spec/30_encoding.md R57 name the same bits. -/
theorem sourceBit_eq_flatBit : ∀ e ∈ unpackOrder, ∀ j < 12, sourceBit e j = flatBit e.chan e.pixel j := by
  decide

/-- Settles O13: the bit of the sample's entry, and the two tables agree on where it comes from. -/
theorem sampleBitsFollowForwardMap : Obligations.SampleBitsFollowForwardMap := by
  intro S c p j hj
  obtain ⟨e, he, rfl, rfl, -⟩ := unpackOrder_complete c p
  rw [blockSample_entry he, entrySample_bit he S hj, sourceBit_eq_flatBit e he j hj]

/-! #### The inverse map -/

/-- The flat block bit that becomes bit `j` of a nibble of a sample. -/
def nibbleBit (d : NibbleDest) (j : Nat) : Nat := flatBit d.chan d.pixel (4 * d.pos.val + j)

theorem nibbleOf_bit (S : Block) (d : NibbleDest) {j : Nat} (hj : j < 4) :
    (nibbleOf (blockSample S) d).getLsbD j = S.getLsbD (nibbleBit d j) := by
  have hbit : 4 * d.pos.val + j < 12 := by omega
  rw [nibbleBit, ← sampleBitsFollowForwardMap S _ _ _ hbit]
  simp [nibbleOf, hj]

/-- The tables of spec/30_encoding.md R57 and R58 are inverse to one another. -/
theorem nibbleBit_inverseMap : ∀ x ∈ inverseMap.zipIdx, ∀ j < 4,
    nibbleBit x.1.1 j = 8 * x.2 + j ∧ nibbleBit x.1.2 j = 8 * x.2 + (4 + j) := by
  decide

/-- Settles O14: bit by bit, the inverse map names the sample whose bit the forward map takes from there. -/
theorem blockNibblesFollowInverseMap : Obligations.BlockNibblesFollowInverseMap := by
  intro S k d hd
  have hbits := nibbleBit_inverseMap (d, k) (List.mem_zipIdx_iff_getElem?.mpr hd)
  constructor
  · apply BitVec.eq_of_getLsbD_eq
    intro j hj
    obtain ⟨hlow, -⟩ := hbits j hj
    rw [nibbleOf_bit S d.1 hj, hlow, lowNibble_bit _ hj, Block.byteAt_bit S k (by omega)]
  · apply BitVec.eq_of_getLsbD_eq
    intro j hj
    obtain ⟨-, hhigh⟩ := hbits j hj
    rw [nibbleOf_bit S d.2 hj, hhigh, highNibble_bit _ hj, Block.byteAt_bit S k (by omega)]

end Sys2Proof.Machine

/-! ### The geometry validator: its verdict, the required size, and a `DECODE` after a `VALIDATE` -/

namespace Sys2Proof.Machine

/-! #### The required size -/

/-- `R` fits the 64 bits of `CONSUMED` (spec/40_geometry_validator.md R73), so a `DECODE` posts it unreduced. -/
theorem toNat_consumed_decodeSuccess (o : Operands) :
    (resultConsumed (decodeSuccess o)).toNat = requiredSize o := by
  have hfits : requiredSize o < 2 ^ 64 := (requiredSize_le o).trans_lt (by norm_num)
  rw [decodeSuccess, resultConsumed, BitVec.toNat_ofNat, Nat.mod_eq_of_lt hfits]

/-- Settles O19: the 16-bit operands bound `R`, and below 2^64 the posted number is `R` itself. -/
theorem requiredSizeFitsItsRegister : Obligations.RequiredSizeFitsItsRegister := fun o =>
  ⟨rfl, requiredSize_le o, by norm_num, toNat_consumed_decodeSuccess o, fun _ => toNat_consumed_decodeSuccess o⟩

/-! #### The verdict -/

theorem validateGeometry_of_bad {s : State} (h : BadGeometry s) :
    validateGeometry (latch s) = some .invalidGeometry := by
  by_cases h8 : s.width.toNat % 8 ≠ 0
  · exact if_pos h8
  · have h0 : s.width = 0 ∨ s.height = 0 := h.resolve_left h8
    exact (if_neg h8).trans (if_pos h0)

theorem validateGeometry_of_short {s : State} (h : ¬BadGeometry s) (hlen : s.len.toNat < frameBytes s) :
    validateGeometry (latch s) = some .insufficientData := by
  obtain ⟨h8, h0⟩ := not_or.mp h
  exact (if_neg h8).trans ((if_neg h0).trans (if_pos hlen))

theorem validateGeometry_of_enough {s : State} (h : ¬BadGeometry s) (hlen : frameBytes s ≤ s.len.toNat) :
    validateGeometry (latch s) = none := by
  obtain ⟨h8, h0⟩ := not_or.mp h
  obtain ⟨hw, hh⟩ := not_or.mp h0
  exact validateGeometry_eq_none.mpr ⟨not_not.mp h8, hw, hh, hlen⟩

/-- A validation consumes nothing, pass or fail (spec/40_geometry_validator.md R74). -/
theorem resultConsumed_checkValidate (o : Operands) : resultConsumed (checkValidate o) = 0 := by
  rcases h : validateGeometry o with _ | e <;> simp only [checkValidate, h, resultConsumed]

/-- On an idle core the End step changes `STATUS` and `CONSUMED` only. -/
theorem finish_idle {s : State} (h : s.Idle) (r : OpResult) :
    finish r s = { s with status := resultStatus r, consumed := resultConsumed r } := by
  rw [finish, ← show s.run = none from h]

/-- The whole next state of a `VALIDATE`, given its verdict. -/
theorem exec_validate_idle {s : State} (h : s.Idle) :
    exec .validate s = .next { s with status := resultStatus (checkValidate (latch s)), consumed := 0 } := by
  rw [exec_validate, execValidate_idle h, finish_idle h, resultConsumed_checkValidate]

/-- Settles O18: each clause names the verdict of the validator, and the verdict names `STATUS`. -/
theorem validatePostsVerdict : Obligations.ValidatePostsVerdict := by
  intro s hidle
  rw [exec_validate_idle hidle, checkValidate]
  refine ⟨fun hbad => ?_, fun hgood hshort => ?_, fun hgood henough => ?_⟩
  · rw [validateGeometry_of_bad hbad]
    rfl
  · rw [validateGeometry_of_short hgood hshort]
    rfl
  · rw [validateGeometry_of_enough hgood henough]
    rfl

/-! #### A `DECODE` after an operation that has stored nothing -/

/-- The Start step forgets the result posted before it (spec/10_state.md R19, R26). -/
theorem start_finish (code : OpCode) (r : OpResult) (s : State) : start code (finish r s) = start code s := rfl

theorem checkDecode_finish (o : Operands) (r : OpResult) (s : State) : checkDecode o (finish r s) = checkDecode o s := by
  have hduty : brokenDuty o (finish r s) = brokenDuty o s := brokenDuty_congr rfl fun c => by rw [finish_plane]
  rw [checkDecode, hduty, checkDecode]

/-- A posted result is nothing to a later `DECODE`, whether that completes or is refused. -/
theorem execDecode_finish {s : State} (h : s.Idle) (r : OpResult) : execDecode (finish r s) = execDecode s := by
  simp only [execDecode, finish_run, show s.run = none from h, latch_finish, checkDecode_finish, start_finish]

theorem finish_sameOperands (r : OpResult) (s : State) : SameOperands s (finish r s) :=
  ⟨rfl, rfl, rfl, rfl, rfl, rfl, rfl⟩

theorem finish_sameMemory (r : OpResult) (s : State) : SameMemory s (finish r s) := by
  refine ⟨fun _ => rfl, fun c a => ?_, rfl, fun c => ?_⟩
  · rw [State.planeByte, finish_plane, State.planeByte]
  · rw [finish_plane]

/-- Settles O20: a `VALIDATE` is its End step, which the Start step of the `DECODE` forgets. -/
theorem validateLeavesDecodeAsItWas : Obligations.ValidateLeavesDecodeAsItWas := by
  intro s t hidle hval
  rw [exec_validate, execValidate_idle hidle] at hval
  obtain rfl := Host.Outcome.next.inj hval
  rw [exec_decode, exec_decode]
  exact ⟨finish_sameOperands _ s, finish_sameMemory _ s, execDecode_finish hidle _⟩

end Sys2Proof.Machine

/-! ### The block unpacker: what an extraction and an `UNPACK` write, and the block its samples make -/

namespace Sys2Proof.Machine

/-! #### Stores, read off the state after them -/

theorem OnlyPlaneBytes.sameInterface {s t : State} (h : OnlyPlaneBytes s t) (r : Option Operation) :
    SameInterface s (t.withRun r) :=
  ⟨⟨h.width, h.height, h.len, h.strideG, h.strideB, h.strideR, h.allocFail⟩, h.status, h.consumed,
    h.events, h.replies, h.tick⟩

/-- A slot that a store of a consistent list names holds the stored sample, in the byte order of
spec/20_memory.md R34. -/
theorem slotHolds_putAll {ws : List SlotWrite} {c : Chan} {k : Nat} {v : Sample} (hc : Consistent ws)
    (h : (c, k, v) ∈ ws) (s : State) (r : Option Operation) : SlotHolds ((putAll s ws).withRun r) c k v := by
  obtain ⟨hlow, hhigh⟩ := planeByte_putAll_mem ws c k v s hc h
  rw [slotLow_slotValue] at hlow
  rw [slotHigh_slotValue] at hhigh
  exact ⟨(withRun_planeByte r _ c _).trans hlow, (withRun_planeByte r _ c _).trans hhigh⟩

theorem consistent_singleton (w : SlotWrite) : Consistent [w] := by
  intro c k v v' h h'
  have heq : (c, k, v) = (c, k, v') := (List.mem_singleton.mp h).trans (List.mem_singleton.mp h').symm
  simpa using heq

theorem writesOneSlot_putSlot (s : State) (c : Chan) (k : Nat) (v : Sample) (r : Option Operation) :
    WritesOneSlot s ((putSlot s (c, k, v)).withRun r) c k v := by
  have hother := putSlot_onlyPlaneBytes s (c, k, v)
  refine ⟨hother.sameInterface r, hother.input, fun c' => ?_, ?_, fun c' a ha => ?_⟩
  · rw [withRun_plane, hother.slots]
  · exact slotHolds_putAll (consistent_singleton _) (List.mem_singleton_self _) s r
  · rw [withRun_planeByte, planeByte_putSlot, if_neg fun ⟨hc, ha'⟩ => ha ⟨hc, .inr ha'⟩,
      if_neg fun ⟨hc, ha'⟩ => ha ⟨hc, .inl ha'⟩]

/-! #### The extractions -/

/-- An operation that decodes from the sample id of an entry and performs the entry does what the entry's rule says. -/
theorem extractsTo_entry (e : Entry) {i : Instr} {f : Byte → Byte → Sample}
    (hid : decode (.sample (sampleId e.chan e.pixel)) = .ok i) (hexec : ∀ s, exec i s = extract e s)
    (hvalue : ∀ x y, entryValue e x y = f x y) :
    ExtractsTo i e.chan e.pixel (pieceIndex e.lo) (pieceIndex e.hi) f := by
  refine ⟨hid, fun s o pc pending x y hrun hx hy hslot => ?_⟩
  refine ⟨_, (hexec s).trans (extract_ok hrun hx hy hslot), ?_, withRun_run _ _⟩
  rw [hvalue]
  exact writesOneSlot_putSlot s _ _ _ _

theorem setWidth_lowNibble (y : Byte) : (lowNibble y).setWidth 12 = (y &&& 0x0F).setWidth 12 := by
  apply BitVec.eq_of_getLsbD_eq
  intro j hj
  have hmask : ∀ j < 12, 4 ≤ j → (0x0F : Byte).getLsbD j = false := by decide
  rcases Nat.lt_or_ge j 4 with h | h
  · simp [lowNibble, hj, h]
  · simp only [lowNibble, BitVec.getLsbD_setWidth, BitVec.getLsbD_and, hmask j hj h, Bool.and_false]

theorem setWidth_highNibble (x : Byte) : (highNibble x).setWidth 12 = (x >>> 4).setWidth 12 := by
  apply BitVec.eq_of_getLsbD_eq
  intro j hj
  rcases Nat.lt_or_ge j 4 with h | h
  · simp [highNibble, hj, h, show 4 + j < 12 by omega]
  · simp [highNibble, hj, Nat.not_lt.mpr h, BitVec.getLsbD_of_ge x (4 + j) (by omega)]

/-- An extraction of Form A (spec/30_encoding.md R54). -/
theorem extractsTo_formA (c : Chan) (p : Fin 8) (w1 : Fin 9) (b1 : Fin 4) (w2 : Fin 9) (b2 : Fin 4) {i : Instr}
    (hid : decode (.sample (sampleId c p)) = .ok i) (hexec : ∀ s, exec i s = extract (formA c p w1 b1 w2 b2) s) :
    ExtractsTo i c p (4 * w1.val + b1.val) (4 * w2.val + b2.val) fullThenLow :=
  extractsTo_entry (formA c p w1 b1 w2 b2) hid hexec fun x y => by
    rw [entryValue_formA, setWidth_lowNibble, fullThenLow]

/-- An extraction of Form B (spec/30_encoding.md R55). -/
theorem extractsTo_formB (c : Chan) (p : Fin 8) (w1 : Fin 9) (b1 : Fin 4) (w2 : Fin 9) (b2 : Fin 4) {i : Instr}
    (hid : decode (.sample (sampleId c p)) = .ok i) (hexec : ∀ s, exec i s = extract (formB c p w1 b1 w2 b2) s) :
    ExtractsTo i c p (4 * w1.val + b1.val) (4 * w2.val + b2.val) highThenFull :=
  extractsTo_entry (formB c p w1 b1 w2 b2) hid hexec fun x y => by
    rw [entryValue_formB, setWidth_highNibble, highThenFull]

/-- Settles O7: each Green operation by its form and its two bytes `(word, byte)`. -/
theorem greenExtractions : Obligations.GreenExtractions :=
  ⟨extractsTo_formB .g 0 0 2 0 1 rfl fun _ => rfl, extractsTo_formA .g 1 1 1 1 0 rfl fun _ => rfl,
    extractsTo_formB .g 2 2 1 2 0 rfl fun _ => rfl, extractsTo_formA .g 3 3 0 4 3 rfl fun _ => rfl,
    extractsTo_formB .g 4 4 0 5 3 rfl fun _ => rfl, extractsTo_formA .g 5 6 3 6 2 rfl fun _ => rfl,
    extractsTo_formB .g 6 7 3 7 2 rfl fun _ => rfl, extractsTo_formA .g 7 8 2 8 1 rfl fun _ => rfl⟩

/-- Settles O8: each Blue operation by its form and its two bytes `(word, byte)`. -/
theorem blueExtractions : Obligations.BlueExtractions :=
  ⟨extractsTo_formA .b 0 0 0 1 3 rfl fun _ => rfl, extractsTo_formB .b 1 1 0 2 3 rfl fun _ => rfl,
    extractsTo_formA .b 2 3 3 3 2 rfl fun _ => rfl, extractsTo_formB .b 3 4 3 4 2 rfl fun _ => rfl,
    extractsTo_formA .b 4 5 2 5 1 rfl fun _ => rfl, extractsTo_formB .b 5 6 2 6 1 rfl fun _ => rfl,
    extractsTo_formA .b 6 7 1 7 0 rfl fun _ => rfl, extractsTo_formB .b 7 8 1 8 0 rfl fun _ => rfl⟩

/-- Settles O9: each Red operation by its form and its two bytes `(word, byte)`. -/
theorem redExtractions : Obligations.RedExtractions :=
  ⟨extractsTo_formA .r 0 0 3 0 2 rfl fun _ => rfl, extractsTo_formB .r 1 1 3 1 2 rfl fun _ => rfl,
    extractsTo_formA .r 2 2 2 2 1 rfl fun _ => rfl, extractsTo_formB .r 3 3 2 3 1 rfl fun _ => rfl,
    extractsTo_formA .r 4 4 1 4 0 rfl fun _ => rfl, extractsTo_formB .r 5 5 1 5 0 rfl fun _ => rfl,
    extractsTo_formA .r 6 6 0 7 3 rfl fun _ => rfl, extractsTo_formB .r 7 7 0 8 3 rfl fun _ => rfl⟩

/-! #### `UNPACK` -/

theorem planeByte_blockWrites_other {o : Operands} {pc : Cursor} {c : Chan} {a : Nat}
    (h : ∀ p : Fin 8, a ≠ 2 * slotOf o c pc p ∧ a ≠ 2 * slotOf o c pc p + 1) (S : Block) (s : State) :
    (putAll s (blockWrites o pc S)).planeByte c a = s.planeByte c a := by
  refine planeByte_putAll_other _ c a s ?_
  rintro ⟨c', k, v⟩ hw rfl
  obtain ⟨p, rfl, -⟩ := mem_blockWrites.mp hw
  exact h p

/-- Settles O11: the next state is that of the 24 stores of the block, read by channel and pixel. -/
theorem unpackWritesItsBlock : Obligations.UnpackWritesItsBlock := by
  intro S s o pc pending hrun hslots
  have hother := putAll_onlyPlaneBytes (blockWrites o pc S) s
  refine ⟨_, (exec_unpack S s).trans (execUnpack_ok hrun (fits_blockWrites hslots)), withRun_run _ _,
    hother.sameInterface _, (withRun_input _ _).trans hother.input, fun c => ?_, fun c p => ?_, fun c a ha => ?_⟩
  · rw [withRun_plane, hother.slots]
  · exact slotHolds_putAll (blockWrites_consistent o pc S) (mem_blockWrites.mpr ⟨p, rfl, rfl⟩) s _
  · rw [withRun_planeByte, planeByte_blockWrites_other ha]

/-! #### The 24 extractions of a block, in any order -/

/-- The entry an operation performs, by its sample id. -/
def instrEntry (i : Instr) : Option Entry :=
  match encode i with
  | .sample id => entryOf id
  | _ => none

theorem instrEntry_of_decode {id : SampleId} {i : Instr} (h : decode (.sample id) = .ok i) :
    instrEntry i = entryOf id := by
  rw [instrEntry, encode_of_decode h]

theorem exec_of_instrEntry {i : Instr} {e : Entry} (h : instrEntry i = some e) (s : State) :
    exec i s = extract e s := by
  rw [instrEntry] at h
  split at h
  · rename_i id hid
    have hdec : decode (.sample id) = .ok i := hid ▸ decode_encode i
    obtain ⟨e', -, he', -, hexec⟩ := exec_sample hdec
    obtain rfl : e' = e := Option.some.inj (he'.symm.trans h)
    exact hexec s
  · cases h

theorem exists_instrEntry {i : Instr} (h : i ∈ extInstrs) : ∃ e, instrEntry i = some e := by
  obtain ⟨id, -, hid⟩ := List.mem_filterMap.mp h
  rcases hdec : decode (.sample id) with _ | j
  · simp [hdec, Except.toOption] at hid
  · obtain rfl : j = i := by simpa [hdec, Except.toOption] using hid
    obtain ⟨e, -, he, -, -⟩ := exec_sample hdec
    exact ⟨e, (instrEntry_of_decode hdec).trans he⟩

/-- The extractions by sample id and the extractions as `UNPACK` lists them (spec/41_block_unpacker.md R82) are the
same 24. -/
theorem extInstrs_entries_perm : (extInstrs.filterMap instrEntry).Perm unpackOrder := by decide

/-- The bytes and the slots of the block at a cursor are there. -/
structure BlockReady (o : Operands) (pc : Cursor) (s : State) : Prop where
  bytes : BlockThere o pc s
  slots : ∀ c p, slotOf o c pc p < (s.plane c).slots

theorem BlockReady.congr {o : Operands} {pc : Cursor} {s t : State} (h : BlockReady o pc s) (ht : OnlyPlaneBytes s t)
    (r : Option Operation) : BlockReady o pc (t.withRun r) :=
  ⟨h.bytes.congr ((withRun_input _ _).trans ht.input), fun c p => by
    rw [withRun_plane, ht.slots]
    exact h.slots c p⟩

/-- What an extraction does, the sample told by the whole block. -/
theorem exec_extraction {o : Operands} {pc : Cursor} {pending : List PendingBlock} {s : State} {i : Instr} {e : Entry}
    (hrun : s.run = some ⟨.decode, o, .blocks pc pending⟩) (hb : BlockReady o pc s) (he : instrEntry i = some e) :
    exec i s = .next ((putSlot s (entryWrite o pc (inputBlock s (inOff o pc)) e)).withRun
      (some ⟨.decode, o, .blocks pc (laneDone pc (sampleId e.chan e.pixel) pending)⟩)) := by
  obtain ⟨x, hx⟩ := hb.bytes _ (pieceIndex_lt e.lo)
  obtain ⟨y, hy⟩ := hb.bytes _ (pieceIndex_lt e.hi)
  rw [exec_of_instrEntry he, extract_ok hrun hx hy (hb.slots _ _), entryWrite, entrySample_inputBlock hx hy]

/-- Extractions performed one after the other are the stores of their entries: `IN`, the operands and the cursor stay,
so that each reads the same block (spec/41_block_unpacker.md R109). -/
theorem execAll_extractions {o : Operands} {pc : Cursor} (is : List Instr) : ∀ {s : State}
    {pending : List PendingBlock}, s.run = some ⟨.decode, o, .blocks pc pending⟩ → BlockReady o pc s →
    (∀ i ∈ is, ∃ e, instrEntry i = some e) →
    ∃ pending', execAll is s =
      .next ((putAll s ((is.filterMap instrEntry).map (entryWrite o pc (inputBlock s (inOff o pc))))).withRun
        (some ⟨.decode, o, .blocks pc pending'⟩)) := by
  induction is with
  | nil =>
    intro s pending hrun _ _
    exact ⟨pending, by rw [← hrun]; rfl⟩
  | cons i is ih =>
    intro s pending hrun hb hentry
    obtain ⟨e, he⟩ := hentry i List.mem_cons_self
    have hexec := exec_extraction hrun hb he
    have hother := putSlot_onlyPlaneBytes s (entryWrite o pc (inputBlock s (inOff o pc)) e)
    obtain ⟨pending', hrest⟩ := ih (withRun_run _ _) (hb.congr hother _)
      fun j hj => hentry j (List.mem_cons_of_mem _ hj)
    refine ⟨pending', ?_⟩
    rw [execAll, hexec]
    dsimp only
    rw [hrest, inputBlock_congr ((withRun_input _ _).trans hother.input), putAll_withRun, withRun_withRun,
      List.filterMap_cons_some he, List.map_cons, putAll_cons]

/-- Settles O12: both are stores of the same samples into the same slots, and stores that agree can be taken in any
order. -/
theorem lanesInAnyOrderMakeUnpack : Obligations.LanesInAnyOrderMakeUnpack := by
  intro s o pc pending order hmem hrun hbytes hslots horder
  have hentries : (order.filterMap instrEntry).Perm unpackOrder :=
    (horder.filterMap instrEntry).trans extInstrs_entries_perm
  obtain ⟨pending', hall⟩ := execAll_extractions order hrun ⟨hbytes, hslots⟩
    fun i hi => exists_instrEntry (horder.mem_iff.mp hi)
  have hfits : Fits s (blockWrites o pc (inputBlock s (inOff o pc))) := fits_blockWrites hslots
  refine ⟨_, _, hall, (exec_unpack _ s).trans (execUnpack_ok hrun hfits), fun c => ?_⟩
  rw [withRun_plane, withRun_plane]
  exact (putAll_plane_congr (planesOk_of_memoryOk hmem) hfits (blockWrites_consistent o pc _)
    (fun w => (hentries.map _).mem_iff.symm) c).symm

/-! #### The bytes of a block by their nibbles -/

theorem toNat_lowNibble (x : Byte) : (lowNibble x).toNat = x.toNat % 16 := by
  have hmask : x.toNat &&& 15 = x.toNat % 16 := Nat.and_two_pow_sub_one_eq_mod x.toNat 4
  rw [lowNibble, BitVec.toNat_setWidth, BitVec.toNat_and, show BitVec.toNat (0x0F : Byte) = 15 from rfl, hmask]
  exact Nat.mod_mod _ _

theorem toNat_highNibble (x : Byte) : (highNibble x).toNat = x.toNat / 16 := by
  have hx := x.isLt
  simp [highNibble, Nat.shiftRight_eq_div_pow]
  omega

theorem byte_eq_nibbles (x : Byte) :
    x = (lowNibble x).setWidth 8 ||| ((highNibble x).setWidth 8 <<< 4) := by
  apply BitVec.eq_of_getLsbD_eq
  intro i hi
  simp only [BitVec.getLsbD_or, BitVec.getLsbD_setWidth, BitVec.getLsbD_shiftLeft, hi, decide_true, Bool.true_and]
  rcases Nat.lt_or_ge i 4 with h | h
  · simp [-BitVec.getLsbD_eq_getElem, lowNibble_bit x h, h]
  · have hhigh := highNibble_bit x (show i - 4 < 4 by omega)
    rw [show 4 + (i - 4) = i by omega] at hhigh
    have hlow : (lowNibble x).getLsbD i = false := BitVec.getLsbD_of_ge _ i h
    simp [-BitVec.getLsbD_eq_getElem, hlow, hhigh, show ¬i < 4 by omega, show i - 4 < 8 by omega]

/-- Settles O17: the nibbles of the byte as numbers, and the byte of its nibbles. -/
theorem helpersReadBlockBytes : Obligations.HelpersReadBlockBytes := fun S w b =>
  ⟨rfl, toNat_lowNibble (full S w b), toNat_highNibble (full S w b), byte_eq_nibbles (full S w b)⟩

theorem byte_ext_nibbles {x y : Byte} (hlow : lowNibble x = lowNibble y) (hhigh : highNibble x = highNibble y) :
    x = y := by
  rw [byte_eq_nibbles x, byte_eq_nibbles y, hlow, hhigh]

theorem lowNibble_packByte (v : Chan → Fin 8 → Sample) (d : NibbleDest × NibbleDest) :
    lowNibble (packByte v d) = nibbleOf v d.1 := by
  apply BitVec.eq_of_getLsbD_eq
  intro j hj
  rw [lowNibble_bit _ hj, packByte, BitVec.getLsbD_append, if_pos hj]

theorem highNibble_packByte (v : Chan → Fin 8 → Sample) (d : NibbleDest × NibbleDest) :
    highNibble (packByte v d) = nibbleOf v d.2 := by
  apply BitVec.eq_of_getLsbD_eq
  intro j hj
  rw [highNibble_bit _ hj, packByte, BitVec.getLsbD_append, if_neg (by omega), Nat.add_sub_cancel_left]

/-! #### Packing -/

theorem length_inverseMap : inverseMap.length = 36 := rfl

/-- The bytes of a block are those packed from its samples (spec/41_block_unpacker.md R114). -/
theorem packByte_blockSample {k : Nat} {d : NibbleDest × NibbleDest} (hd : inverseMap[k]? = some d) (S : Block) :
    packByte (blockSample S) d = S.byteAt k := by
  obtain ⟨hlow, hhigh⟩ := blockNibblesFollowInverseMap S k d hd
  exact byte_ext_nibbles ((lowNibble_packByte _ d).trans hlow.symm) ((highNibble_packByte _ d).trans hhigh.symm)

theorem packBlock_blockSample (S : Block) : packBlock (blockSample S) = S := by
  have hbytes : inverseMap.map (packByte (blockSample S)) = Block.toBytes S := by
    refine List.ext_getElem (by rw [List.length_map, length_inverseMap, toBytes_length]) fun k hk hk' => ?_
    simp only [List.getElem_map, Block.toBytes, List.getElem_range]
    exact packByte_blockSample (List.getElem?_eq_getElem _) S
  rw [packBlock, hbytes, Block.ofBytes_toBytes]

theorem byteAt_packBlock {k : Nat} {d : NibbleDest × NibbleDest} (hd : inverseMap[k]? = some d)
    (v : Chan → Fin 8 → Sample) : (packBlock v).byteAt k = packByte v d := by
  rw [packBlock, byteAt_ofBytes _ (by rw [List.length_map, length_inverseMap])]
  simp [List.getD_eq_getElem?_getD, hd]

/-- Every nibble of every sample is a nibble of a block byte. -/
theorem exists_inverseMap (n : NibbleDest) : ∃ d ∈ inverseMap, n = d.1 ∨ n = d.2 := by
  obtain ⟨c, p, pos⟩ := n
  revert p pos
  cases c <;> decide

/-- A packed block gives each nibble back, since the tables of R57 and R58 are inverse to one another. -/
theorem nibbleOf_blockSample_packBlock (v : Chan → Fin 8 → Sample) (n : NibbleDest) :
    nibbleOf (blockSample (packBlock v)) n = nibbleOf v n := by
  obtain ⟨d, hmem, hn⟩ := exists_inverseMap n
  obtain ⟨k, hd⟩ := List.getElem?_of_mem hmem
  obtain ⟨hlow, hhigh⟩ := blockNibblesFollowInverseMap (packBlock v) k d hd
  rcases hn with rfl | rfl
  · rw [← hlow, byteAt_packBlock hd, lowNibble_packByte]
  · rw [← hhigh, byteAt_packBlock hd, highNibble_packByte]

theorem sample_ext_nibbles {u v : Chan → Fin 8 → Sample} {c : Chan} {p : Fin 8}
    (h : ∀ pos, nibbleOf u ⟨c, p, pos⟩ = nibbleOf v ⟨c, p, pos⟩) : u c p = v c p := by
  apply BitVec.eq_of_getLsbD_eq
  intro j hj
  have hbit := congrArg (fun n => n.getLsbD (j % 4)) (h ⟨j / 4, by omega⟩)
  have hmod : j % 4 < 4 := Nat.mod_lt j (by omega)
  simpa only [nibbleOf, BitVec.getLsbD_extractLsb', hmod, decide_true, Bool.true_and, Nat.div_add_mod] using hbit

/-- Settles O15: byte by byte in the one direction, nibble by nibble in the other. -/
theorem packAndUnpackAreInverse : Obligations.PackAndUnpackAreInverse :=
  ⟨packBlock_blockSample, fun v _ _ => sample_ext_nibbles fun _ => nibbleOf_blockSample_packBlock v _⟩

/-! #### One bit -/

/-- Every block bit goes to a bit of a sample (spec/30_encoding.md R58). -/
theorem exists_flatBit {f : Nat} (hf : f < 288) : ∃ c p j, j < 12 ∧ flatBit c p j = f := by
  obtain ⟨d, hd⟩ : ∃ d, inverseMap[f / 8]? = some d :=
    ⟨_, List.getElem?_eq_getElem (by rw [length_inverseMap]; omega)⟩
  obtain ⟨hlow, hhigh⟩ := nibbleBit_inverseMap (d, f / 8) (List.mem_zipIdx_iff_getElem?.mpr hd) (f % 4) (by omega)
  by_cases h : f % 8 < 4
  · exact ⟨d.1.chan, d.1.pixel, 4 * d.1.pos.val + f % 4, by omega, hlow.trans (by dsimp only; omega)⟩
  · exact ⟨d.2.chan, d.2.pixel, 4 * d.2.pos.val + f % 4, by omega, hhigh.trans (by dsimp only; omega)⟩

/-- The sample and the bit of it that a flat block bit becomes, by the inverse map. -/
def bitDest (f : Nat) : Option (Chan × Fin 8 × Nat) :=
  inverseMap[f / 8]?.map fun d =>
    let n := if f % 8 < 4 then d.1 else d.2
    (n.chan, n.pixel, 4 * n.pos.val + f % 4)

theorem bitDest_flatBit (c : Chan) (p : Fin 8) {j : Nat} (hj : j < 12) :
    bitDest (flatBit c p j) = some (c, p, j) := by
  revert p j
  cases c <;> decide

/-- No block bit goes to two places. -/
theorem flatBit_eq_iff {c c' : Chan} {p p' : Fin 8} {j j' : Nat} (hj : j < 12) (hj' : j' < 12) :
    flatBit c p j = flatBit c' p' j' ↔ c = c' ∧ p = p' ∧ j = j' := by
  constructor
  · intro h
    have heq : some (c, p, j) = some (c', p', j') := by rw [← bitDest_flatBit c p hj, h, bitDest_flatBit c' p' hj']
    simpa using heq
  · rintro ⟨rfl, rfl, rfl⟩
    rfl

theorem getLsbD_flip {n : Nat} (x : BitVec n) {f : Nat} (hf : f < n) (i : Nat) :
    (x ^^^ (1#n <<< f)).getLsbD i = (x.getLsbD i ^^ decide (f = i)) := by
  rw [BitVec.getLsbD_xor, ← BitVec.twoPow_eq, BitVec.getLsbD_twoPow, decide_eq_true hf, Bool.true_and]

/-- A flipped block bit flips the sample bits that are taken from there. -/
theorem blockSample_flip_bit (S : Block) {f : Nat} (hf : f < 288) (c : Chan) (p : Fin 8) {j : Nat} (hj : j < 12) :
    (blockSample (S ^^^ (1#288 <<< f)) c p).getLsbD j =
      ((blockSample S c p).getLsbD j ^^ decide (f = flatBit c p j)) := by
  rw [sampleBitsFollowForwardMap _ c p j hj, sampleBitsFollowForwardMap _ c p j hj, getLsbD_flip S hf]

/-- Settles O16: every block bit goes to a bit of a sample, and no two bits of samples are taken from one place. -/
theorem oneBlockBitOneSampleBit : Obligations.OneBlockBitOneSampleBit := by
  intro S f hf
  obtain ⟨c, p, j, hj, rfl⟩ := exists_flatBit hf
  refine ⟨c, p, j, hj, rfl, BitVec.eq_of_getLsbD_eq fun i hi => ?_, fun c' p' hne => ?_⟩
  · simp only [blockSample_flip_bit S hf c p hi, getLsbD_flip _ hj, flatBit_eq_iff hj hi, true_and]
  · refine BitVec.eq_of_getLsbD_eq fun i hi => ?_
    have hbit : flatBit c p j ≠ flatBit c' p' i := fun h => by
      obtain ⟨rfl, rfl, -⟩ := (flatBit_eq_iff hj hi).mp h
      exact hne.elim (· rfl) (· rfl)
    rw [blockSample_flip_bit S hf c' p' hi, decide_eq_false hbit, Bool.xor_false]

end Sys2Proof.Machine

/-! ### The frame decoder: its errors, its frame, and what of its input it looks at -/

namespace Sys2Proof.Machine

/-! #### The slots of the frame -/

/-- Where a line of the frame fits the stride, the row of a slot is the quotient of its number by the stride. -/
theorem slotOf_div_stride {o : Operands} {c : Chan} {pc : Cursor} {p : Fin 8} (hs : o.width.toNat ≤ o.stride c)
    (hb : pc.blk < blocksPerLine o.width) : slotOf o c pc p / o.stride c = pc.row := by
  simp only [blocksPerLine] at hb
  have hcol : pc.blk * 8 + p.val < o.stride c := by omega
  rw [slotOf, Config.blockPixels, Nat.add_assoc, Nat.mul_comm, Nat.mul_add_div (Nat.zero_lt_of_lt hcol),
    Nat.div_eq_of_lt hcol, Nat.add_zero]

/-- Settles O30: the stride divides the slot number into the row and the place in the line, and 8 divides that place
into the block and the pixel. -/
theorem slotsOfBlocksAreDisjoint : Obligations.SlotsOfBlocksAreDisjoint := by
  intro o c pc pc' p p' _ hs hb hb' h
  have hrow : pc.row = pc'.row := by
    rw [← slotOf_div_stride (p := p) hs hb, ← slotOf_div_stride (p := p') hs hb', h]
  obtain ⟨row, blk⟩ := pc
  obtain ⟨row', blk'⟩ := pc'
  obtain rfl : row = row' := hrow
  simp only [slotOf, Config.blockPixels] at h
  obtain rfl : blk = blk' := by omega
  exact ⟨rfl, Fin.ext (by omega)⟩

/-- The slots of a block of the frame lie in the footprint. -/
theorem slotOf_inFootprint {o : Operands} {c : Chan} {pc : Cursor} {p : Fin 8} (hr : pc.row < o.height.toNat)
    (hb : pc.blk < blocksPerLine o.width) : inFootprint o c (slotOf o c pc p) := by
  simp only [blocksPerLine] at hb
  exact ⟨pc.row, pc.blk * 8 + p.val, hr, by omega, Nat.add_assoc _ _ _⟩

/-! #### The errors of a `DECODE` -/

theorem decodeError_of_validateGeometry {o : Operands} {e : OpError} (h : validateGeometry o = some e) :
    decodeError o = some e := by
  simp only [decodeError, h]

theorem decodeError_of_allocFail {o : Operands} (h : validateGeometry o = none) (ha : o.allocFail = 1) :
    decodeError o = some .allocationFailure := by
  simp only [decodeError, h, if_pos ha]

theorem decodeError_of_good {s : State} (h : ¬BadGeometry s) (hlen : frameBytes s ≤ s.len.toNat)
    (ha : s.allocFail = 0) : decodeError (latch s) = none := by
  have hno : (latch s).allocFail ≠ 1 := by
    rw [show (latch s).allocFail = 0 from ha]
    decide
  exact decodeError_eq_none.mpr ⟨validateGeometry_of_enough h hlen, hno⟩

/-- The whole next state of a `DECODE` that has an error to report. -/
theorem exec_decode_error {s : State} {e : OpError} (h : s.Idle) (he : decodeError (latch s) = some e) :
    exec .decode s = .next { s with status := statusWord (errorCode e) 0 1 0, consumed := 0 } := by
  rw [exec_decode, execDecode_error h he, finish_idle h]
  rfl

/-- Settles O21: each clause names the error, and the error names `STATUS`. -/
theorem decodeReportsFirstError : Obligations.DecodeReportsFirstError := by
  intro s hidle
  refine ⟨fun hbad => ?_, fun hgood hshort => ?_, fun hgood henough halloc => ?_⟩
  · have he := decodeError_of_validateGeometry (validateGeometry_of_bad hbad)
    exact exec_decode_error (e := .invalidGeometry) hidle he
  · have he := decodeError_of_validateGeometry (validateGeometry_of_short hgood hshort)
    exact exec_decode_error (e := .insufficientData) hidle he
  · have he := decodeError_of_allocFail (validateGeometry_of_enough hgood henough) halloc
    exact exec_decode_error (e := .allocationFailure) hidle he

/-! #### When the frame is ready -/

/-- The blocks of the frame cover its input: every offset below `R` is a byte of one of them
(spec/42_frame_decoder.md R122). -/
theorem exists_block_of_lt {o : Operands} {a : Nat} (h : a < requiredSize o) :
    ∃ b ∈ allBlocks o, ∃ k < 36, a = inOff o b.pos + k := by
  have hi : a / 36 < blocksPerLine o.width * o.height.toNat := by
    rw [requiredSize, Config.blockBytes, Nat.mul_comm o.height.toNat] at h
    omega
  have hw : 0 < blocksPerLine o.width := Nat.pos_of_mul_pos_right (Nat.zero_lt_of_lt hi)
  refine ⟨⟨⟨a / 36 / blocksPerLine o.width, a / 36 % blocksPerLine o.width⟩, allLanes⟩,
    mem_allBlocks.mpr ⟨Nat.div_lt_of_lt_mul hi, Nat.mod_lt _ hw, rfl⟩, a % 36, Nat.mod_lt _ (by omega), ?_⟩
  have hdiv := Nat.div_add_mod' (a / 36) (blocksPerLine o.width)
  simp only [inOff, Config.blockBytes]
  omega

/-- A byte of a block of the frame is below `R`. -/
theorem offset_lt_requiredSize {o : Operands} {b : PendingBlock} (hb : b ∈ allBlocks o) {k : Nat} (hk : k < 36) :
    inOff o b.pos + k < requiredSize o := by
  obtain ⟨hr, hl, -⟩ := mem_allBlocks.mp hb
  have := inOff_le_requiredSize hr hl
  omega

theorem inputKnown_iff {s : State} {o : Operands} : s.InputKnown o ↔ ∀ b ∈ allBlocks o, BlockThere o b.pos s := by
  constructor
  · intro h b hb k hk
    exact h _ (offset_lt_requiredSize hb hk)
  · intro h a ha
    obtain ⟨b, hb, k, hk, rfl⟩ := exists_block_of_lt ha
    exact h b hb k hk

theorem dutiesMet_iff {s : State} {o : Operands} : s.DutiesMet o ↔ brokenDuty o s = none :=
  (brokenDuty_eq_none o s).symm

theorem frameReady_iff {s : State} (he : decodeError (latch s) = none) :
    FrameReady s ↔ s.DutiesMet (latch s) ∧ s.InputKnown (latch s) := by
  rw [dutiesMet_iff, inputKnown_iff]
  exact ⟨fun h => ⟨h.duty, h.there⟩, fun h => ⟨he, h.1, h.2⟩⟩

/-! #### The frame a `DECODE` leaves -/

theorem decoded_planeByte (s : State) (c : Chan) (a : Nat) :
    (decoded s).planeByte c a = (putAll s (frameStores s)).planeByte c a := by
  rw [State.planeByte, decoded_plane, State.planeByte]

theorem mem_frameStores {s : State} {c : Chan} {k : Nat} {v : Sample} :
    (c, k, v) ∈ frameStores s ↔ ∃ b ∈ allBlocks (latch s), ∃ p, k = slotOf (latch s) c b.pos p ∧
      v = blockSample (inputBlock s (inOff (latch s) b.pos)) c p := mem_frameWrites

theorem decoded_slotHolds {s : State} (h : FrameReady s) {c : Chan} {k : Nat} {v : Sample}
    (hw : (c, k, v) ∈ frameStores s) : SlotHolds (decoded s) c k v := by
  rw [SlotHolds, decoded_planeByte, decoded_planeByte]
  exact slotHolds_putAll (frameWrites_consistent h.duty) hw s (putAll s (frameStores s)).run

theorem decoded_planeByte_other {s : State} {c : Chan} {a : Nat} (h : ¬inFootprint (latch s) c (a / 2)) :
    (decoded s).planeByte c a = s.planeByte c a := by
  rw [decoded_planeByte]
  refine planeByte_putAll_other _ c a s ?_
  rintro ⟨c', k, v⟩ hw rfl
  obtain ⟨b, hb, p, rfl, -⟩ := mem_frameStores.mp hw
  obtain ⟨hr, hl, -⟩ := mem_allBlocks.mp hb
  dsimp only at h ⊢
  have hne : a / 2 ≠ slotOf (latch s) c' b.pos p := fun heq => h (heq.symm ▸ slotOf_inFootprint hr hl)
  omega

theorem decoded_holdsFrame {s : State} (h : FrameReady s) : HoldsDecodedFrame s (decoded s) := by
  refine ⟨fun row blk c p hr hb => ?_, fun c a => decoded_planeByte_other, decoded_slots s, decoded_input s⟩
  have hblock : (⟨⟨row, blk⟩, allLanes⟩ : PendingBlock) ∈ allBlocks (latch s) := mem_allBlocks.mpr ⟨hr, hb, rfl⟩
  exact decoded_slotHolds h (mem_frameStores.mpr ⟨_, hblock, p, rfl, rfl⟩)

theorem decoded_sameOperands (s : State) : SameOperands s (decoded s) := by
  have hop := putAll_onlyPlaneBytes (frameStores s) s
  exact ⟨hop.width, hop.height, hop.len, hop.strideG, hop.strideB, hop.strideR, hop.allocFail⟩

theorem decoded_sameOutside (s : State) : SameOutside s (decoded s) := by
  have hop := putAll_onlyPlaneBytes (frameStores s) s
  exact ⟨hop.events, hop.replies, hop.tick⟩

/-- Settles O22: the frame is ready, and what is stored is read off the list of its stores. -/
theorem decodeWritesTheFrame : Obligations.DecodeWritesTheFrame := by
  intro s hidle hgood hlen halloc hduties hknown
  have hready : FrameReady s := (frameReady_iff (decodeError_of_good hgood hlen halloc)).mpr ⟨hduties, hknown⟩
  exact ⟨decoded s, (exec_decode s).trans (execDecode_frame hidle hready), decoded_run s, decoded_status s, rfl,
    decoded_sameOperands s, decoded_sameOutside s, decoded_holdsFrame hready⟩

/-- A `DECODE` with no error and no duty broken is refused only for a byte of its input that is not there. -/
theorem execDecode_refused {s : State} {r : Refusal} (h : s.run = none) (he : decodeError (latch s) = none)
    (hd : brokenDuty (latch s) s = none) (hr : execDecode s = .refused r) :
    ∃ a, r = .inputMissing a ∧ a < requiredSize (latch s) ∧ s.inByte a = none := by
  rw [execDecode_proceed h he hd] at hr
  rcases performBlocks_inv (allBlocks (latch s)) (frameBegun_run s) with
    ⟨t, hp, -, -⟩ | ⟨a, hp, hnone, b, hb, -, hlt⟩ | ⟨c, -, b, hb, p, hslot⟩
  · simp only [hp, reduceCtorEq] at hr
  · simp only [hp, Host.Outcome.refused.injEq] at hr
    have hlast := offset_lt_requiredSize hb (k := 35) (by omega)
    exact ⟨a, hr.symm, by omega, hnone⟩
  · obtain ⟨hrow, hblk, -⟩ := mem_allBlocks.mp hb
    have hthere := slotOf_lt_slots hd hrow hblk c p
    rw [frameBegun, setStage_plane, start_plane] at hslot
    exact absurd hthere (Nat.not_lt.mpr hslot)

/-- Settles O23: a `DECODE` without an error answers a state exactly when its frame is ready; else the first thing in
the way is named. -/
theorem decodeRunsExactlyWhenDutiesMet : Obligations.DecodeRunsExactlyWhenDutiesMet := by
  intro s hidle hgood hlen halloc
  have he := decodeError_of_good hgood hlen halloc
  rw [exec_decode, ← frameReady_iff he]
  refine ⟨⟨?answered, fun hready => ⟨_, execDecode_frame hidle hready⟩⟩, fun r hr => ?refused⟩
  case answered =>
    rintro ⟨t, ht⟩
    obtain ⟨-, ⟨e, herr, -⟩ | ⟨hready, -⟩⟩ := execDecode_inv ht
    · cases he.symm.trans herr
    · exact hready
  case refused =>
    rcases hd : brokenDuty (latch s) s with _ | r'
    · exact .inr (.inr (.inr (execDecode_refused hidle he hd hr)))
    · have hbroken : execDecode s = .refused r' := by
        simp only [execDecode, show s.run = none from hidle, checkDecode, he, hd]
      obtain rfl : r' = r := Host.Outcome.refused.inj (hbroken.symm.trans hr)
      rcases brokenDuty_eq_some hd with h | h | h
      · exact .inl h
      · exact .inr (.inl h)
      · exact .inr (.inr (.inl h))

/-! #### Another input buffer -/

/-- Stores touch planes only: a change of the state that leaves the planes alone can be made before or after them. -/
theorem putAll_comm {f : State → State} (hset : ∀ s c p, (f s).setPlane c p = f (s.setPlane c p))
    (hplane : ∀ s c, (f s).plane c = s.plane c) (ws : List SlotWrite) :
    ∀ s, putAll (f s) ws = f (putAll s ws) := by
  induction ws with
  | nil => exact fun _ => rfl
  | cons w ws ih =>
    intro s
    have hput : putSlot (f s) w = f (putSlot s w) := by rw [putSlot, hplane, hset, putSlot]
    rw [putAll_cons, hput, ih, putAll_cons]

/-- The input buffer replaced: the form the laws name `{ s with input := p }` by. -/
def State.withInput (s : State) (p : InputBuf) : State := { s with input := p }

@[simp] theorem withInput_latch (p : InputBuf) (s : State) : latch (s.withInput p) = latch s := rfl
@[simp] theorem withInput_plane (p : InputBuf) (s : State) (c : Chan) : (s.withInput p).plane c = s.plane c := by
  cases c <;> rfl
theorem withInput_inByte (p : InputBuf) (s : State) (a : Nat) : (s.withInput p).inByte a = Memory.read p.cells a := rfl

theorem putAll_withInput (p : InputBuf) (ws : List SlotWrite) (s : State) :
    putAll (s.withInput p) ws = (putAll s ws).withInput p :=
  putAll_comm (f := fun s => s.withInput p) (fun s c q => by cases c <;> rfl) (fun s c => withInput_plane p s c) ws s

/-- A frame that is ready is ready with every input buffer that is as long as `LEN` says and whose bytes below `R` are
known. -/
theorem FrameReady.withInput {s : State} {p : InputBuf} (h : FrameReady s) (hlen : s.len.toNat ≤ p.size)
    (hin : ∀ a < requiredSize (latch s), ∃ b, Memory.read p.cells a = some b) : FrameReady (s.withInput p) := by
  obtain ⟨⟨-, hplanes⟩, -⟩ := (frameReady_iff h.error).mp h
  refine (frameReady_iff (s := s.withInput p) h.error).mpr ⟨⟨hlen, fun c => ?_⟩, hin⟩
  rw [withInput_plane]
  exact hplanes c

theorem FrameReady.inputKnown {s : State} (h : FrameReady s) : s.InputKnown (latch s) :=
  ((frameReady_iff h.error).mp h).2

/-- The stores of the frame look at the bytes of `IN` below `R` only (spec/20_memory.md R40). -/
theorem frameStores_withInput {s : State} {p : InputBuf}
    (h : ∀ a < requiredSize (latch s), Memory.read p.cells a = s.inByte a) :
    frameStores (s.withInput p) = frameStores s := by
  have hblock : ∀ b ∈ allBlocks (latch s),
      inputBlock (s.withInput p) (inOff (latch s) b.pos) = inputBlock s (inOff (latch s) b.pos) := by
    intro b hb
    refine congrArg Block.ofBytes (List.map_congr_left fun k hk => ?_)
    rw [withInput_inByte, h _ (offset_lt_requiredSize hb (List.mem_range.mp hk))]
  rw [frameStores, frameStores, withInput_latch, frameWrites, frameWrites]
  exact List.flatMap_congr fun b hb => by rw [hblock b hb]

theorem decoded_withInput {s : State} {p : InputBuf} (h : frameStores (s.withInput p) = frameStores s) :
    decoded (s.withInput p) = (decoded s).withInput p := by
  rw [decoded, h, putAll_withInput, withInput_latch]
  rfl

/-- Settles O27: an error looks at no byte, and the stores of the frame at those below `R` only. -/
theorem decodeIgnoresExcessInput : Obligations.DecodeIgnoresExcessInput := by
  intro s t p hagree hlen h
  show exec .decode (s.withInput p) = .next (t.withInput p)
  rw [exec_decode] at h ⊢
  obtain ⟨hidle, ⟨e, he, rfl⟩ | ⟨hready, rfl⟩⟩ := execDecode_inv h
  · exact execDecode_error (s := s.withInput p) hidle he
  · have hready' : FrameReady (s.withInput p) := hready.withInput hlen fun a ha => by
      rw [hagree a ha]
      exact hready.inputKnown a ha
    rw [execDecode_frame (s := s.withInput p) hidle hready', decoded_withInput (frameStores_withInput hagree)]

/-! #### The offsets a `DECODE` writes -/

/-- The offsets of a plane that hold bytes, in order. -/
def PlaneBuf.offsets (p : PlaneBuf) : List Nat := p.cells.map Prod.fst

theorem PlaneBuf.offsets_put {p q : PlaneBuf} (h : p.offsets = q.offsets) (k : Nat) (v v' : Slot) :
    (p.put k v).offsets = (q.put k v').offsets :=
  Memory.keys_write (Memory.keys_write h _ _ _) _ _ _

/-- Where a store goes. -/
def SlotWrite.slot (w : SlotWrite) : Chan × Nat := (w.1, w.2.1)

theorem putSlot_offsets {s t : State} {w v : SlotWrite} (hw : w.slot = v.slot)
    (h : ∀ c, (s.plane c).offsets = (t.plane c).offsets) (c : Chan) :
    ((putSlot s w).plane c).offsets = ((putSlot t v).plane c).offsets := by
  obtain ⟨d, k, x⟩ := w
  obtain ⟨d', k', y⟩ := v
  simp only [SlotWrite.slot, Prod.mk.injEq] at hw
  obtain ⟨rfl, rfl⟩ := hw
  simp only [putSlot, setPlane_plane]
  split
  · exact PlaneBuf.offsets_put (h d) k _ _
  · exact h c

/-- The offsets that hold bytes after stores depend on where the stores go, and not on the samples. -/
theorem putAll_offsets (ws : List SlotWrite) : ∀ (vs : List SlotWrite) {s t : State},
    ws.map SlotWrite.slot = vs.map SlotWrite.slot → (∀ c, (s.plane c).offsets = (t.plane c).offsets) →
    ∀ c, ((putAll s ws).plane c).offsets = ((putAll t vs).plane c).offsets := by
  induction ws with
  | nil =>
    intro vs s t hvs h
    obtain rfl : vs = [] := List.map_eq_nil_iff.mp hvs.symm
    exact h
  | cons w ws ih =>
    intro vs s t hvs h
    obtain ⟨v, vs, rfl, hv, hrest⟩ := List.map_eq_cons_iff.mp hvs.symm
    exact ih vs hrest.symm (putSlot_offsets hv.symm h)

theorem entryWrite_slot (o : Operands) (pc : Cursor) (S : Block) (e : Entry) :
    SlotWrite.slot (entryWrite o pc S e) = (e.chan, slotOf o e.chan pc e.pixel) := rfl

/-- Where the stores of a block go does not depend on its bytes. -/
theorem blockWrites_slots (o : Operands) (pc : Cursor) (S : Block) :
    (blockWrites o pc S).map SlotWrite.slot = unpackOrder.map fun e => (e.chan, slotOf o e.chan pc e.pixel) := by
  simp only [blockWrites, List.map_map, Function.comp_def, entryWrite_slot]

/-- Where the stores of a frame go does not depend on its input (spec/42_frame_decoder.md R134). -/
theorem frameStores_slots (p : InputBuf) (s : State) :
    (frameStores (s.withInput p)).map SlotWrite.slot = (frameStores s).map SlotWrite.slot := by
  rw [frameStores, frameStores, withInput_latch, frameWrites, frameWrites, List.map_flatMap, List.map_flatMap]
  exact List.flatMap_congr fun b _ => by rw [blockWrites_slots, blockWrites_slots]

/-- Settles O28: known bytes stay known whatever their values, and the values go into the samples only. -/
theorem decodeFootprintIgnoresInputValues : Obligations.DecodeFootprintIgnoresInputValues := by
  intro s t m hsome h
  show ∃ t', exec .decode (s.withInput ⟨s.input.size, m⟩) = .next t' ∧ _
  rw [exec_decode] at h ⊢
  obtain ⟨hidle, ⟨e, he, rfl⟩ | ⟨hready, rfl⟩⟩ := execDecode_inv h
  · refine ⟨_, execDecode_error (s := s.withInput _) hidle he, rfl, rfl, fun c => ?_⟩
    rw [finish_plane, finish_plane, withInput_plane]
  · have hready' : FrameReady (s.withInput ⟨s.input.size, m⟩) := by
      obtain ⟨hlen, -⟩ := (brokenDuty_eq_none _ s).mp hready.duty
      refine hready.withInput hlen fun a ha => ?_
      rw [← Option.isSome_iff_exists, hsome, Option.isSome_iff_exists]
      exact hready.inputKnown a ha
    refine ⟨_, execDecode_frame (s := s.withInput _) hidle hready', ?_, ?_, fun c => ?_⟩
    · rw [decoded_status, decoded_status]
    · rw [decoded_consumed, decoded_consumed, withInput_latch]
    · rw [decoded_plane, decoded_plane]
      exact putAll_offsets _ _ (frameStores_slots _ s) (fun c => by rw [withInput_plane]) c

end Sys2Proof.Machine

/-! ### The steps of a `DECODE`: what each does, and what they come to in any order -/

namespace Sys2Proof.Machine

/-! #### A step runs the decoded instruction -/

/-- The *block* step on a block whose bytes are there: its word is the block of `IN` at its offset. -/
theorem coreMove_pending {s : State} {code : OpCode} {o : Operands} {pc : Cursor} {b : PendingBlock}
    {bs : List PendingBlock} {n : Nat} (hr : s.run = some ⟨code, o, .blocks pc (b :: bs)⟩)
    (ht : BlockThere o (pickBlock n b bs).pos s) :
    coreMove n s = .perform (.block (inputBlock s (inOff o (pickBlock n b bs).pos)))
      (s.withRun (some ⟨code, o, .blocks (pickBlock n b bs).pos (b :: bs)⟩)) := by
  rw [coreMove_blocks n hr]
  simp only [fetchWork, fetchBlock_inputBlock ht, selectBlock_eq hr]

/-- The move of a sample still to be written: its word is the sample id. -/
theorem laneMove_pending {s : State} {o : Operands} {pc : Cursor} {b : PendingBlock} {bs : List PendingBlock}
    {n m : Nat} {id : SampleId} (hr : s.run = some ⟨.decode, o, .blocks pc (b :: bs)⟩)
    (hid : pickLane m (pickBlock n b bs).lanes = some id) :
    laneMove n m s = .perform (.sample id)
      (s.withRun (some ⟨.decode, o, .blocks (pickBlock n b bs).pos (b :: bs)⟩)) := by
  simp only [laneMove, unpacking_eq_some.mpr hr, hid, selectBlock_eq hr]

/-- A step whose event asks for an operation's word runs the operation that the word decodes to. -/
theorem step_perform {s s' : State} {e : Event} {rest : List Event} {w : TableWord} {i : Instr}
    (he : s.events = e :: rest) (hm : eventMove e { s with events := rest } = .perform w s')
    (hd : decode w = .ok i) : step s = exec i s' := by
  rw [step_event he, hm, carryOut_perform hd]

/-- Settles O6: the word of each kind of move, and the operation it decodes to. -/
theorem stepRunsDecodedInstruction : Obligations.StepRunsDecodedInstruction := by
  refine ⟨fun s s' w i hmove hdec => ?_, fun s rest code i he hdec => ?_, fun s rest o pc b bs n he hr ht => ?_,
    fun s rest o pc b bs n m id i he hr hid hdec => ?_⟩
  · rw [step, hmove, carryOut_perform hdec]
  · exact step_perform he rfl hdec
  · exact step_perform he (coreMove_pending (s := { s with events := rest }) hr ht) rfl
  · exact step_perform he (laneMove_pending (s := { s with events := rest }) hr hid) hdec

/-! #### The *check* step -/

/-- The check of an operation finds a result: that is to be posted. -/
theorem coreStep_check_result {s : State} {code : OpCode} {o : Operands} {r : OpResult} (c : CoreChoice)
    (hr : s.run = some ⟨code, o, .check⟩) (h : checkOperation ⟨code, o, .check⟩ s = .result r) :
    coreStep c s = .next (s.withRun (some ⟨code, o, .post r⟩)) := by
  obtain ⟨n, hn⟩ := c.move_eq_coreMove (s := s) (by simp [hr])
  rw [coreStep, hn]
  simp only [coreMove, hr, h, carryOut_settle, setStage_eq_withRun]

/-- The check of an operation finds blocks to be performed: those become pending. -/
theorem coreStep_check_proceed {s : State} {code : OpCode} {o : Operands} {pending : List PendingBlock} (c : CoreChoice)
    (hr : s.run = some ⟨code, o, .check⟩) (h : checkOperation ⟨code, o, .check⟩ s = .proceed pending) :
    coreStep c s = .next (s.withRun (some ⟨code, o, .blocks ⟨0, 0⟩ pending⟩)) := by
  obtain ⟨n, hn⟩ := c.move_eq_coreMove (s := s) (by simp [hr])
  rw [coreStep, hn]
  simp only [coreMove, hr, h, carryOut_settle, setStage_eq_withRun]

theorem checkOperation_decode_error {o : Operands} {s : State} {e : OpError} {st : Stage} (h : decodeError o = some e) :
    checkOperation ⟨.decode, o, st⟩ s = .result (.failure e) := by
  simp only [checkOperation, checkDecode, h]

theorem checkOperation_decode_proceed {o : Operands} {s : State} {st : Stage} (he : decodeError o = none)
    (hd : brokenDuty o s = none) : checkOperation ⟨.decode, o, st⟩ s = .proceed (allBlocks o) := by
  simp only [checkOperation, checkDecode, he, hd]

/-- The entry of a table of `h` rows and `w` columns, listed row by row. -/
theorem getElem?_rows {α : Type} (f : Nat → Nat → α) {w row blk : Nat} (hb : blk < w) : ∀ {h : Nat}, row < h →
    ((List.range h).flatMap fun r => (List.range w).map (f r))[row * w + blk]? = some (f row blk)
  | h + 1, hr => by
    have hlen : ((List.range h).flatMap fun r => (List.range w).map (f r)).length = h * w := by simp
    rw [List.range_succ, List.flatMap_append, List.flatMap_singleton]
    rcases Nat.lt_succ_iff_lt_or_eq.mp hr with hlt | rfl
    · have hin : row * w + blk < h * w := by
        have := Nat.mul_le_mul_right w (Nat.succ_le_of_lt hlt)
        rw [Nat.succ_mul] at this
        omega
      rw [List.getElem?_append_left (hlen ▸ hin), getElem?_rows f hb hlt]
    · rw [List.getElem?_append_right (hlen ▸ Nat.le_add_right _ _), hlen, Nat.add_sub_cancel_left, List.getElem?_map,
        List.getElem?_range hb, Option.map_some]

/-- Nothing is written yet of a block of the frame that the check lists. -/
theorem lanes_of_mem_allBlocks {o : Operands} {b : PendingBlock} (h : b ∈ allBlocks o) : b.lanes = allLanes := by
  obtain ⟨-, -, hlanes⟩ := mem_allBlocks.mp h
  exact hlanes

/-- The reference order: block `(row, blk)` stands at number `row × (width/8) + blk` (spec/42_frame_decoder.md R121). -/
theorem allBlocks_getElem? {o : Operands} {row blk : Nat} (hr : row < o.height.toNat)
    (hb : blk < blocksPerLine o.width) :
    (allBlocks o)[row * blocksPerLine o.width + blk]? = some ⟨⟨row, blk⟩, allLanes⟩ :=
  getElem?_rows (fun row blk => (⟨⟨row, blk⟩, allLanes⟩ : PendingBlock)) hb hr

/-- Settles O34: the two outcomes of the check, and the list of the blocks of the frame. -/
theorem checkStepSetsPendingBlocks : Obligations.CheckStepSetsPendingBlocks := by
  intro s o c hr
  refine ⟨fun e he => coreStep_check_result c hr (checkOperation_decode_error he), fun he hduties => ?_⟩
  refine ⟨allBlocks o, coreStep_check_proceed c hr (checkOperation_decode_proceed he (dutiesMet_iff.mp hduties)),
    fun b => lanes_of_mem_allBlocks, length_allBlocks o, fun row blk hrow hblk => ?_⟩
  rw [List.getElem?_map]
  exact congrArg (Option.map PendingBlock.pos) (allBlocks_getElem? hrow hblk)

/-! #### A move while blocks are pending -/

/-- What a move of the core does to the pending blocks of a `DECODE`, and the stores it makes: a whole block is taken
off, or one sample of a block. -/
inductive Advance (o : Operands) (s : State) (pending : List PendingBlock) :
    CoreChoice → List SlotWrite → List PendingBlock → Prop
  /-- the *block* step of spec/42_frame_decoder.md R131 -/
  | block (n : Nat) (b : PendingBlock) (picked : b ∈ pending) :
      Advance o s pending (.block n) (blockWrites o b.pos (inputBlock s (inOff o b.pos))) (blockDone b.pos pending)
  /-- one sample (log 4) -/
  | lane (n m : Nat) (b : PendingBlock) (id : SampleId) (e : Entry) (picked : b ∈ pending) (left : id ∈ b.lanes)
      (entry : entryOf id = some e) :
      Advance o s pending (.lane n m) [entryWrite o b.pos (inputBlock s (inOff o b.pos)) e]
        (laneDone b.pos id pending)

theorem Advance.congr {o : Operands} {s t : State} {pending pending' : List PendingBlock} {c : CoreChoice}
    {ws : List SlotWrite} (h : Advance o s pending c ws pending') (hi : s.input = t.input) :
    Advance o t pending c ws pending' := by
  cases h with
  | block n b picked =>
    rw [inputBlock_congr hi]
    exact .block n b picked
  | lane n m b id e picked left entry =>
    rw [inputBlock_congr hi]
    exact .lane n m b id e picked left entry

/-- In the invariant, its input known, a pending block has its bytes and its slots. -/
theorem State.Inv.blockReady {s : State} {o : Operands} {pc : Cursor} {pending : List PendingBlock} (h : s.Inv)
    (hr : s.run = some ⟨.decode, o, .blocks pc pending⟩) (hk : s.InputKnown o) {b : PendingBlock} (hb : b ∈ pending) :
    BlockReady o b.pos s := by
  obtain ⟨-, -, -, -, -, hduty, -⟩ := (inv_busy_iff hr).mp h
  obtain ⟨hrow, hblk, -⟩ := h.pending_ok hr hb
  refine ⟨fun k hlt => hk _ ?_, slotOf_lt_slots hduty hrow hblk⟩
  have := inOff_le_requiredSize hrow hblk
  omega

/-- A sample id below 24 is that of an operation. -/
theorem exists_decode_sample {id : SampleId} (h : id.toNat < 24) : ∃ i, decode (.sample id) = .ok i :=
  (wf_iff_decode_ok (.sample id)).mp (decide_eq_true h)

/-- While blocks are pending every move answers a state: that of the stores of a block or of a sample, which is taken
off the pending work. -/
theorem coreStep_pending {s : State} {o : Operands} {pc : Cursor} {pending : List PendingBlock} (c : CoreChoice)
    (h : s.Inv) (hr : s.run = some ⟨.decode, o, .blocks pc pending⟩) (hk : s.InputKnown o) (hne : pending ≠ []) :
    ∃ ws pc' pending', Advance o s pending c ws pending' ∧
      coreStep c s = .next ((putAll s ws).withRun (some ⟨.decode, o, .blocks pc' pending'⟩)) := by
  obtain ⟨b, bs, rfl⟩ := List.exists_cons_of_ne_nil hne
  cases c with
  | block n =>
    have hmem := pickBlock_mem n b bs
    obtain ⟨hbytes, hslots⟩ := h.blockReady hr hk hmem
    refine ⟨_, (pickBlock n b bs).pos.next o, _, .block n _ hmem, ?_⟩
    rw [coreStep, CoreChoice.move, coreMove_pending hr hbytes, carryOut_block,
      execUnpack_ok (withRun_run _ _) (fits_blockWrites fun c p => by rw [withRun_plane]; exact hslots c p),
      putAll_withRun, withRun_withRun]
  | lane n m =>
    have hmem := pickBlock_mem n b bs
    have hready := h.blockReady hr hk hmem
    obtain ⟨-, -, hlanes, -, hids⟩ := h.pending_ok hr hmem
    obtain ⟨id, hid⟩ := pickLane_isSome m hlanes
    obtain ⟨i, hdec⟩ := exists_decode_sample (hids id (pickLane_mem hid))
    obtain ⟨e, -, hentry, hsid, -⟩ := exec_sample hdec
    refine ⟨_, (pickBlock n b bs).pos, _, .lane n m _ id e hmem (pickLane_mem hid) hentry, ?_⟩
    rw [coreStep, CoreChoice.move, laneMove_pending hr hid, carryOut_perform hdec,
      exec_extraction (withRun_run _ _) (hready.congr (OnlyPlaneBytes.refl s) _)
        ((instrEntry_of_decode hdec).trans hentry), hsid, ← putAll_nil (putSlot _ _), ← putAll_cons, putAll_withRun,
      withRun_withRun, inputBlock_congr (withRun_input _ _)]

/-- Settles O36: with a block pending a whole block or a sample is written, with none the result is posted. -/
theorem onceBegunNothingFails : Obligations.OnceBegunNothingFails := by
  intro s o pc pending c hinv hr hknown
  rcases eq_or_ne pending [] with rfl | hne
  · exact ⟨_, coreStep_blocks_nil c hr⟩
  · obtain ⟨ws, pc', pending', -, hstep⟩ := coreStep_pending c hinv hr hknown hne
    exact ⟨_, hstep⟩

/-! #### The work left -/

/-- The samples still to be written. -/
def lanesLeft (pending : List PendingBlock) : Nat := (pending.map fun b => b.lanes.length).sum

theorem lanesLeft_cons (b : PendingBlock) (bs : List PendingBlock) :
    lanesLeft (b :: bs) = b.lanes.length + lanesLeft bs := rfl

theorem lanesLeft_blockDone (pos : Cursor) (pending : List PendingBlock) :
    lanesLeft (blockDone pos pending) =
      (pending.map fun b => if b.pos = pos then 0 else b.lanes.length).sum := by
  induction pending with
  | nil => rfl
  | cons b bs ih =>
    rw [List.map_cons, List.sum_cons, ← ih]
    by_cases hp : b.pos = pos
    · simp [blockDone, hp]
    · simp [blockDone, hp, lanesLeft_cons]

theorem lanesLeft_laneDone (pos : Cursor) (id : SampleId) (pending : List PendingBlock) :
    lanesLeft (laneDone pos id pending) =
      (pending.map fun b => if b.pos = pos then (b.lanes.filter fun l => !(l == id)).length else b.lanes.length).sum := by
  induction pending with
  | nil => rfl
  | cons b bs ih =>
    rw [List.map_cons, List.sum_cons, ← ih]
    by_cases hp : b.pos = pos
    · rcases hl : b.lanes.filter fun l => !(l == id) with _ | ⟨l, ls⟩
      · simp only [laneDone, List.filterMap_cons, if_pos hp, hl, List.length_nil, Nat.zero_add]
      · simp only [laneDone, List.filterMap_cons, if_pos hp, hl, lanesLeft_cons]
    · simp only [laneDone, List.filterMap_cons, if_neg hp, lanesLeft_cons]

/-- Every move writes a sample that was still to be written. -/
theorem Advance.lanesLeft_lt {o : Operands} {s : State} {pending pending' : List PendingBlock} {c : CoreChoice}
    {ws : List SlotWrite} (h : Advance o s pending c ws pending') (hne : ∀ b ∈ pending, b.lanes ≠ []) :
    lanesLeft pending' < lanesLeft pending := by
  cases h with
  | block n b picked =>
    rw [lanesLeft_blockDone]
    refine List.sum_lt_sum _ _ (fun b' _ => ?_) ⟨b, picked, ?_⟩
    · split
      · exact Nat.zero_le _
      · exact le_rfl
    · rw [if_pos rfl]
      exact List.length_pos_iff.mpr (hne b picked)
  | lane n m b id e picked left entry =>
    rw [lanesLeft_laneDone]
    refine List.sum_lt_sum _ _ (fun b' _ => ?_) ⟨b, picked, ?_⟩
    · split
      · exact List.length_filter_le _ _
      · exact le_rfl
    · rw [if_pos rfl]
      exact List.length_filter_lt_length_iff_exists.mpr ⟨id, left, by simp⟩

/-- A *block* step takes a block off. -/
theorem Advance.length_lt {o : Operands} {s : State} {pending pending' : List PendingBlock} {n : Nat}
    {ws : List SlotWrite} (h : Advance o s pending (.block n) ws pending') : pending'.length < pending.length := by
  cases h with
  | block _ b picked => exact List.length_filter_lt_length_iff_exists.mpr ⟨b, picked, by simp⟩

theorem lanesLeft_allBlocks (o : Operands) : lanesLeft (allBlocks o) = 24 * blockCount o := by
  have hlanes : (allBlocks o).map (fun b => b.lanes.length) = (allBlocks o).map fun _ => 24 :=
    List.map_congr_left fun b hb => by rw [lanes_of_mem_allBlocks hb]; rfl
  rw [lanesLeft, hlanes, List.map_const', List.sum_replicate, length_allBlocks, smul_eq_mul, Nat.mul_comm, blockCount]

/-! #### The stores left -/

theorem mem_unpackOrder_of_entryOf {id : SampleId} {e : Entry} (h : entryOf id = some e) : e ∈ unpackOrder := by
  have hid : id.toNat < 24 := by
    by_contra hge
    have hnone : entryOf id = none := List.getElem?_eq_none (Nat.le_of_not_lt hge)
    cases hnone.symm.trans h
  obtain ⟨i, hdec⟩ := exists_decode_sample hid
  obtain ⟨e', hmem, he', -⟩ := exec_sample hdec
  obtain rfl : e' = e := Option.some.inj (he'.symm.trans h)
  exact hmem

/-- The store of an entry for a block of the frame of `s`. -/
def sampleStore (s : State) (pos : Cursor) (e : Entry) : SlotWrite :=
  entryWrite (latch s) pos (inputBlock s (inOff (latch s) pos)) e

/-- The stores of a block of the frame of `s`. -/
def blockStores (s : State) (pos : Cursor) : List SlotWrite :=
  blockWrites (latch s) pos (inputBlock s (inOff (latch s) pos))

theorem mem_blockStores {s : State} {pos : Cursor} {w : SlotWrite} :
    w ∈ blockStores s pos ↔ ∃ e ∈ unpackOrder, w = sampleStore s pos e := by
  simp only [blockStores, blockWrites, List.mem_map, sampleStore, eq_comm]

theorem blockStores_subset {s : State} {pos : Cursor} (hr : pos.row < (latch s).height.toNat)
    (hb : pos.blk < blocksPerLine (latch s).width) : ∀ w ∈ blockStores s pos, w ∈ frameStores s := by
  have hblock : (⟨pos, allLanes⟩ : PendingBlock) ∈ allBlocks (latch s) := mem_allBlocks.mpr ⟨hr, hb, rfl⟩
  exact fun w hw => List.mem_flatMap.mpr ⟨_, hblock, hw⟩

/-- The stores of the samples still to be written of the pending blocks. -/
def pendingStores (s : State) (pending : List PendingBlock) : List SlotWrite :=
  pending.flatMap fun b => (b.lanes.filterMap entryOf).map (sampleStore s b.pos)

theorem mem_pendingStores {s : State} {pending : List PendingBlock} {w : SlotWrite} :
    w ∈ pendingStores s pending ↔
      ∃ b ∈ pending, ∃ id ∈ b.lanes, ∃ e, entryOf id = some e ∧ w = sampleStore s b.pos e := by
  simp only [pendingStores, List.mem_flatMap, List.mem_map, List.mem_filterMap]
  constructor
  · rintro ⟨b, hb, e, ⟨id, hid, he⟩, rfl⟩
    exact ⟨b, hb, id, hid, e, he, rfl⟩
  · rintro ⟨b, hb, id, hid, e, he, rfl⟩
    exact ⟨b, hb, e, ⟨id, hid, he⟩, rfl⟩

theorem sampleId_mem_allLanes (c : Chan) (p : Fin 8) : sampleId c p ∈ allLanes := by
  have hall : ∀ p : Fin 8, ∀ c ∈ [Chan.g, .b, .r], sampleId c p ∈ allLanes := by decide
  exact hall p c (by cases c <;> simp)

/-- When the blocks are begun every store of the frame is still to be made. -/
theorem pendingStores_allBlocks {s : State} : ∀ w ∈ frameStores s, w ∈ pendingStores s (allBlocks (latch s)) := by
  intro w hw
  obtain ⟨b, hb, hw⟩ := List.mem_flatMap.mp hw
  obtain ⟨e, he, rfl⟩ := mem_blockStores.mp hw
  have hlane : sampleId e.chan e.pixel ∈ b.lanes := lanes_of_mem_allBlocks hb ▸ sampleId_mem_allLanes _ _
  exact mem_pendingStores.mpr ⟨b, hb, _, hlane, e, unpackOrder_entryOf e he, rfl⟩

theorem pendingStores_blockDone {s : State} {pending : List PendingBlock} (pos : Cursor) {w : SlotWrite}
    (h : w ∈ pendingStores s pending) : w ∈ blockStores s pos ∨ w ∈ pendingStores s (blockDone pos pending) := by
  obtain ⟨b, hb, id, hid, e, he, rfl⟩ := mem_pendingStores.mp h
  by_cases hp : b.pos = pos
  · exact .inl (mem_blockStores.mpr ⟨e, mem_unpackOrder_of_entryOf he, by rw [hp]⟩)
  · exact .inr (mem_pendingStores.mpr ⟨b, mem_blockDone.mpr ⟨hb, hp⟩, id, hid, e, he, rfl⟩)

theorem pendingStores_laneDone {s : State} {pending : List PendingBlock} (pos : Cursor) {id : SampleId} {e : Entry}
    (he : entryOf id = some e) {w : SlotWrite} (h : w ∈ pendingStores s pending) :
    w = sampleStore s pos e ∨ w ∈ pendingStores s (laneDone pos id pending) := by
  obtain ⟨b, hb, id', hid', e', he', rfl⟩ := mem_pendingStores.mp h
  by_cases hp : b.pos = pos
  · by_cases hl : id' = id
    · obtain rfl : e' = e := Option.some.inj (he'.symm.trans (hl ▸ he))
      exact .inl (by rw [hp])
    · have hkept : id' ∈ b.lanes.filter fun l => !(l == id) := List.mem_filter.mpr ⟨hid', by simp [hl]⟩
      have hblock : (⟨pos, b.lanes.filter fun l => !(l == id)⟩ : PendingBlock) ∈ laneDone pos id pending :=
        mem_laneDone.mpr (.inr ⟨rfl, b, hb, hp, rfl, List.ne_nil_of_mem hkept⟩)
      exact .inr (mem_pendingStores.mpr ⟨_, hblock, id', hkept, e', he', by rw [hp]⟩)
  · exact .inr (mem_pendingStores.mpr ⟨b, mem_laneDone.mpr (.inl ⟨hb, hp⟩), id', hid', e', he', rfl⟩)

/-- A move makes stores of the frame. -/
theorem Advance.stores_subset {s : State} {pending pending' : List PendingBlock} {c : CoreChoice}
    {vs : List SlotWrite} (h : Advance (latch s) s pending c vs pending')
    (hok : ∀ b ∈ pending, PendingBlock.Ok (latch s) b) : ∀ w ∈ vs, w ∈ frameStores s := by
  cases h with
  | block n b picked =>
    obtain ⟨hr, hb, -⟩ := hok b picked
    exact blockStores_subset hr hb
  | lane n m b id e picked left entry =>
    obtain ⟨hr, hb, -⟩ := hok b picked
    intro w hw
    obtain rfl := List.mem_singleton.mp hw
    exact blockStores_subset hr hb _ (mem_blockStores.mpr ⟨e, mem_unpackOrder_of_entryOf entry, rfl⟩)

/-- A store still to be made is made by a move, or is still to be made after it. -/
theorem Advance.stores_left {s : State} {pending pending' : List PendingBlock} {c : CoreChoice}
    {vs : List SlotWrite} (h : Advance (latch s) s pending c vs pending') {w : SlotWrite}
    (hw : w ∈ pendingStores s pending) : w ∈ vs ∨ w ∈ pendingStores s pending' := by
  cases h with
  | block n b picked => exact pendingStores_blockDone b.pos hw
  | lane n m b id e picked left entry =>
    exact (pendingStores_laneDone b.pos entry hw).imp_left List.mem_singleton.mpr

/-! #### A `DECODE` under way -/

/-- `u` is a state of the `DECODE` started in `s`: stores `ws` of its frame have been made, and the rest are those of
the pending blocks. -/
structure Underway (s : State) (ws : List SlotWrite) (pending : List PendingBlock) (u : State) : Prop where
  inv : u.Inv
  state : ∃ pc, u = (putAll (start .decode s) ws).withRun (some ⟨.decode, latch s, .blocks pc pending⟩)
  made : ∀ w ∈ ws, w ∈ frameStores s
  left : ∀ w ∈ frameStores s, w ∈ ws ∨ w ∈ pendingStores s pending

theorem Underway.run {s u : State} {ws : List SlotWrite} {pending : List PendingBlock} (h : Underway s ws pending u) :
    ∃ pc, u.run = some ⟨.decode, latch s, .blocks pc pending⟩ := by
  obtain ⟨pc, rfl⟩ := h.state
  exact ⟨pc, withRun_run _ _⟩

theorem Underway.input {s u : State} {ws : List SlotWrite} {pending : List PendingBlock}
    (h : Underway s ws pending u) : u.input = s.input := by
  obtain ⟨pc, rfl⟩ := h.state
  rw [withRun_input, (putAll_onlyPlaneBytes _ _).input, start_input]

theorem Underway.events {s u : State} {ws : List SlotWrite} {pending : List PendingBlock}
    (h : Underway s ws pending u) : u.events = s.events := by
  obtain ⟨pc, rfl⟩ := h.state
  rw [withRun_events, (putAll_onlyPlaneBytes _ _).events, start_events]

theorem coreStep_inv {c : CoreChoice} {s t : State} (h : s.Inv) (hst : coreStep c s = .next t) : t.Inv := by
  cases c with
  | block n => exact (effect_coreMove hst).inv h
  | lane n m => exact (effect_laneMove hst).inv h

/-- With its frame ready, a `DECODE` under way goes on being under way by every move while blocks are pending. -/
theorem Underway.advance {s u : State} {ws : List SlotWrite} {pending : List PendingBlock} (h : Underway s ws pending u)
    (hready : FrameReady s) (hne : pending ≠ []) (c : CoreChoice) :
    ∃ vs pending' u', Advance (latch s) s pending c vs pending' ∧ coreStep c u = .next u' ∧
      Underway s (ws ++ vs) pending' u' := by
  obtain ⟨pc, hrun⟩ := h.run
  have hknown : u.InputKnown (latch s) := by
    simp only [State.InputKnown, State.inByte, h.input]
    exact hready.inputKnown
  obtain ⟨vs, pc', pending', hadv, hstep⟩ := coreStep_pending c h.inv hrun hknown hne
  have hadv' := hadv.congr h.input
  refine ⟨vs, pending', _, hadv', hstep, coreStep_inv h.inv hstep, ⟨pc', ?_⟩, fun w hw => ?_, fun w hw => ?_⟩
  · obtain ⟨_, rfl⟩ := h.state
    rw [putAll_withRun, withRun_withRun, putAll_append]
  · exact (List.mem_append.mp hw).elim (h.made w)
      (hadv'.stores_subset (fun b hb => h.inv.pending_ok hrun hb) w)
  · rw [List.mem_append, or_assoc]
    exact (h.left w hw).imp_right hadv'.stores_left

/-- Stores that agree leave one state, in whatever order they are made. -/
theorem putAll_congr {s : State} {ws vs : List SlotWrite} (hs : PlanesOk s) (hf : Fits s ws) (hc : Consistent ws)
    (h : ∀ w, w ∈ ws ↔ w ∈ vs) : putAll s ws = putAll s vs := by
  have h1 := putAll_onlyPlaneBytes ws s
  have h2 := putAll_onlyPlaneBytes vs s
  exact State.ext_plane _ _ (putAll_plane_congr hs hf hc h) (h1.input.trans h2.input.symm) (h1.run.trans h2.run.symm)
    (h1.width.trans h2.width.symm) (h1.height.trans h2.height.symm) (h1.len.trans h2.len.symm)
    (h1.strideG.trans h2.strideG.symm) (h1.strideB.trans h2.strideB.symm) (h1.strideR.trans h2.strideR.symm)
    (h1.allocFail.trans h2.allocFail.symm) (h1.status.trans h2.status.symm) (h1.consumed.trans h2.consumed.symm)
    (h1.events.trans h2.events.symm) (h1.replies.trans h2.replies.symm) (h1.tick.trans h2.tick.symm)

/-- With no block pending, all stores of the frame have been made, and the End step leaves what the whole operation
leaves. -/
theorem Underway.finish_eq {s u : State} {ws : List SlotWrite} (h : Underway s ws [] u) (hm : s.MemoryOk)
    (hready : FrameReady s) : finish (decodeSuccess (latch s)) u = decoded s := by
  have hsame : ∀ w, w ∈ frameStores s ↔ w ∈ ws :=
    fun w => ⟨fun hw => (h.left w hw).resolve_right (by simp [pendingStores]), h.made w⟩
  have hput : putAll s (frameStores s) = putAll s ws :=
    putAll_congr (planesOk_of_memoryOk hm) (frameWrites_fits hready.duty) (frameWrites_consistent hready.duty) hsame
  obtain ⟨pc, rfl⟩ := h.state
  rw [decoded, hput, finish_withRun, finish_putAll, finish_start, finish_putAll]

/-- The *check* step of a started `DECODE` whose frame is ready: it is under way, nothing stored yet. -/
theorem coreStep_begins {s : State} (hm : s.MemoryOk) (hready : FrameReady s) (c : CoreChoice) :
    coreStep c (start .decode s) = .next (frameBegun s) ∧
      Underway s [] (allBlocks (latch s)) (frameBegun s) := by
  have hduty : brokenDuty (latch s) (start .decode s) = none :=
    (brokenDuty_congr rfl fun c => by rw [start_plane]).trans hready.duty
  have hstep : coreStep c (start .decode s) = .next (frameBegun s) :=
    coreStep_check_proceed c (start_run _ _) (checkOperation_decode_proceed hready.error hduty)
  exact ⟨hstep, coreStep_inv (start_inv .decode hm) hstep, ⟨⟨0, 0⟩, rfl⟩, by simp,
    fun w hw => .inr (pendingStores_allBlocks w hw)⟩

/-! #### Any order of the core's moves -/

theorem coreRun_cons {c : CoreChoice} {s t : State} (h : coreStep c s = .next t) (cs : List CoreChoice) :
    coreRun (c :: cs) s = coreRun cs t := by
  simp only [coreRun, h]

/-- An idle core waits, whatever it is given to choose (spec/60_exceptions.md R154). -/
theorem coreRun_idle {s : State} (h : s.run = none) (cs : List CoreChoice) : coreRun cs s = .next s := by
  induction cs with
  | nil => rfl
  | cons c cs ih =>
    obtain ⟨n, hn⟩ := c.move_eq_coreMove (s := s) (by simp [h])
    have hwait : coreStep c s = .next s := by
      rw [coreStep, hn]
      simp only [coreMove, h, carryOut_settle]
    rw [coreRun_cons hwait, ih]

/-- A `DECODE` under way ends as the whole operation does, when there are more moves than a measure of the pending
work that each of them lessens. -/
theorem Underway.coreRun_eq {s : State} (hm : s.MemoryOk) (hready : FrameReady s) (work : List PendingBlock → Nat)
    (choices : List CoreChoice) : ∀ {ws : List SlotWrite} {pending : List PendingBlock} {u : State},
    (∀ c ∈ choices, ∀ pending vs pending', (∀ b ∈ pending, b.lanes ≠ []) →
      Advance (latch s) s pending c vs pending' → work pending' < work pending) →
    Underway s ws pending u → work pending < choices.length → coreRun choices u = .next (decoded s) := by
  induction choices with
  | nil => exact fun _ _ hlen => absurd hlen (Nat.not_lt_zero _)
  | cons c cs ih =>
    intro ws pending u hwork hu hlen
    obtain ⟨pc, hrun⟩ := hu.run
    rcases eq_or_ne pending [] with rfl | hne
    · rw [coreRun_cons (coreStep_blocks_nil c hrun), hu.finish_eq hm hready, coreRun_idle (decoded_run s)]
    · obtain ⟨vs, pending', u', hadv, hstep, hu'⟩ := hu.advance hready hne c
      have hlanes : ∀ b ∈ pending, b.lanes ≠ [] := fun b hb => by
        obtain ⟨-, -, hlanes, -⟩ := hu.inv.pending_ok hrun hb
        exact hlanes
      have hless := hwork c List.mem_cons_self pending vs pending' hlanes hadv
      rw [coreRun_cons hstep]
      refine ih (fun d hd => hwork d (List.mem_cons_of_mem c hd)) hu' ?_
      rw [List.length_cons] at hlen
      omega

/-- An operation whose check finds a result posts it by its second move. -/
theorem coreRun_of_result {s : State} {code : OpCode} {r : OpResult} {choices : List CoreChoice}
    (h : checkOperation ⟨code, latch s, .check⟩ (start code s) = .result r) (hlen : 2 ≤ choices.length) :
    coreRun choices (start code s) = .next (finish r s) := by
  match choices with
  | c :: d :: cs =>
    rw [coreRun_cons (coreStep_check_result c (start_run _ _) h), coreRun_cons (coreStep_post d (withRun_run _ _)),
      finish_withRun, finish_start, coreRun_idle (finish_run _ _)]

/-- A started `DECODE` whose frame is ready ends as the whole operation does, when after the *check* there are more moves
than pending samples, or, by *block* steps only, than pending blocks. -/
theorem coreRun_of_frameReady {s : State} (hm : s.MemoryOk) (hready : FrameReady s) {choices : List CoreChoice}
    (hlen : 24 * blockCount (latch s) + 2 ≤ choices.length ∨
      (blockCount (latch s) + 2 ≤ choices.length ∧ ∀ c ∈ choices, ∃ n, c = .block n)) :
    coreRun choices (start .decode s) = .next (decoded s) := by
  match choices with
  | [] => simp at hlen
  | c :: cs =>
    obtain ⟨hstep, hbegun⟩ := coreStep_begins hm hready c
    rw [coreRun_cons hstep]
    rw [List.length_cons] at hlen
    rcases hlen with hlen | ⟨hlen, hblock⟩
    · refine hbegun.coreRun_eq hm hready lanesLeft cs (fun _ _ _ _ _ hne hadv => hadv.lanesLeft_lt hne) ?_
      rw [lanesLeft_allBlocks]
      omega
    · refine hbegun.coreRun_eq hm hready List.length cs (fun d hd _ _ _ _ hadv => ?_) ?_
      · obtain ⟨n, rfl⟩ := hblock d (List.mem_cons_of_mem c hd)
        exact hadv.length_lt
      · rw [length_allBlocks, ← blockCount]
        omega

/-- Settles O35: a result that the check finds is posted, and the stores of a frame can be made in any order. -/
theorem anyOrderReachesWholeOperation : Obligations.AnyOrderReachesWholeOperation := by
  intro s t choices hm hidle
  refine ⟨fun hval hlen => ?validate, fun hdec hlen => ?decode⟩
  case validate =>
    rw [exec_validate, execValidate_idle hidle] at hval
    obtain rfl := Host.Outcome.next.inj hval
    exact coreRun_of_result rfl hlen
  case decode =>
    rw [exec_decode] at hdec
    obtain ⟨-, ⟨e, he, rfl⟩ | ⟨hready, rfl⟩⟩ := execDecode_inv hdec
    · exact coreRun_of_result (checkOperation_decode_error he) (by omega)
    · exact coreRun_of_frameReady hm hready hlen

/-! #### The core left alone -/

/-- The counter of the free choices replaced: the form the laws name `{ s with tick := k }` by. -/
def State.withTick (s : State) (k : Nat) : State := { s with tick := k }

@[simp] theorem withTick_latch (k : Nat) (s : State) : latch (s.withTick k) = latch s := rfl
@[simp] theorem withTick_input (k : Nat) (s : State) : (s.withTick k).input = s.input := rfl
@[simp] theorem withTick_plane (k : Nat) (s : State) (c : Chan) : (s.withTick k).plane c = s.plane c := by
  cases c <;> rfl
@[simp] theorem withTick_withTick (k l : Nat) (s : State) : (s.withTick k).withTick l = s.withTick l := rfl
theorem start_withTick (code : OpCode) (k : Nat) (s : State) :
    start code (s.withTick k) = (start code s).withTick k := rfl
theorem finish_withTick (r : OpResult) (k : Nat) (s : State) : finish r (s.withTick k) = (finish r s).withTick k := rfl

theorem putAll_withTick (k : Nat) (ws : List SlotWrite) (s : State) :
    putAll (s.withTick k) ws = (putAll s ws).withTick k :=
  putAll_comm (f := fun s => s.withTick k) (fun s c q => by cases c <;> rfl) (fun s c => withTick_plane k s c) ws s

theorem frameStores_withTick (k : Nat) (s : State) : frameStores (s.withTick k) = frameStores s :=
  frameStores_congr (withTick_latch k s) (withTick_input k s)

theorem pendingStores_withTick (k : Nat) (s : State) (pending : List PendingBlock) :
    pendingStores (s.withTick k) pending = pendingStores s pending := by
  have hsample : ∀ pos, sampleStore (s.withTick k) pos = sampleStore s pos := fun pos => by
    funext e
    rw [sampleStore, sampleStore, withTick_latch, inputBlock_congr (withTick_input k s)]
  simp only [pendingStores, hsample]

theorem decoded_withTick (k : Nat) (s : State) : decoded (s.withTick k) = (decoded s).withTick k := by
  rw [decoded, frameStores_withTick, putAll_withTick, finish_withTick, withTick_latch, ← decoded]

theorem FrameReady.withTick {s : State} (h : FrameReady s) (k : Nat) : FrameReady (s.withTick k) :=
  h.congr (withTick_latch k s) (withTick_input k s) fun c => by rw [withTick_plane]

theorem Underway.withTick {s u : State} {ws : List SlotWrite} {pending : List PendingBlock}
    (h : Underway s ws pending u) (k : Nat) : Underway (s.withTick k) ws pending (u.withTick k) where
  inv := inv_outside h.inv u.events k
  state := by
    obtain ⟨pc, rfl⟩ := h.state
    refine ⟨pc, ?_⟩
    rw [start_withTick, putAll_withTick]
    rfl
  made := by
    rw [frameStores_withTick]
    exact h.made
  left := by
    rw [frameStores_withTick, pendingStores_withTick]
    exact h.left

/-- A busy core with no event to come makes the move of R131 that its next free choice names (log 3). -/
theorem step_free {s : State} (he : s.events = []) (hr : s.run ≠ none) :
    step s = coreStep (.block (Config.blockChoice s.tick)) (s.withTick (s.tick + 1)) := by
  rw [step, nextMove_free he hr]
  rfl

/-- A result that is known is posted by the next step. -/
theorem step_free_post {s : State} {code : OpCode} {o : Operands} {r : OpResult} (he : s.events = [])
    (hr : s.run = some ⟨code, o, .post r⟩) : step s = .next ((finish r s).withTick (s.tick + 1)) := by
  rw [step_free he (by simp [hr]), coreStep_post (s := s.withTick (s.tick + 1)) _ hr, finish_withTick]

theorem run_succ {s t : State} (h : step s = .next t) (k : Nat) :
    Host.Core.run Sys2Proof.core (k + 1) s = Host.Core.run Sys2Proof.core k t := by
  simp only [Host.Core.run, core_step, h]

theorem run_zero (s : State) : Host.Core.run Sys2Proof.core 0 s = .next s := rfl

/-- A `DECODE` under way and left alone ends as the whole operation does, but for the counter, within one step more than
it has blocks pending. -/
theorem Underway.ends {s u : State} {ws : List SlotWrite} {pending : List PendingBlock} (hu : Underway s ws pending u)
    (hm : s.MemoryOk) (hready : FrameReady s) (he : s.events = []) :
    ∃ k n, k ≤ pending.length + 1 ∧ Host.Core.run Sys2Proof.core k u = .next ((decoded s).withTick n) := by
  induction hlen : pending.length using Nat.strong_induction_on generalizing s u ws pending with
  | _ len ih =>
    obtain ⟨pc, hrun⟩ := hu.run
    have hfree := step_free (hu.events.trans he) (by simp [hrun])
    have hu' := hu.withTick (u.tick + 1)
    have hready' := hready.withTick (u.tick + 1)
    rcases eq_or_ne pending [] with rfl | hne
    · have hend : step u = .next ((decoded s).withTick (u.tick + 1)) := by
        rw [hfree, coreStep_blocks_nil (s := u.withTick (u.tick + 1)) _ hrun, ← decoded_withTick,
          ← hu'.finish_eq hm hready', withTick_latch]
      exact ⟨1, u.tick + 1, Nat.le_add_left 1 len, by rw [run_succ hend, run_zero]⟩
    · obtain ⟨vs, pending', u', hadv, hstep, hu''⟩ := hu'.advance hready' hne (.block (Config.blockChoice u.tick))
      have hless : pending'.length < len := hlen ▸ hadv.length_lt
      obtain ⟨k, n, hk, hends⟩ := ih _ hless hu'' hm hready' he rfl
      refine ⟨k + 1, n, by omega, ?_⟩
      rw [run_succ (hfree.trans hstep), hends, decoded_withTick, withTick_withTick]

/-- After its Start step a `DECODE` left alone ends as the whole operation does, but for the counter. -/
theorem run_start_decode {s t : State} (hm : s.MemoryOk) (he : s.events = []) (h : execDecode s = .next t) :
    ∃ k n, k ≤ blockCount (latch s) + 2 ∧
      Host.Core.run Sys2Proof.core k (start .decode s) = .next (t.withTick n) := by
  have hfree : step (start .decode s) =
      coreStep (.block (Config.blockChoice s.tick)) (start .decode (s.withTick (s.tick + 1))) :=
    step_free he (by simp)
  obtain ⟨-, ⟨e, herr, rfl⟩ | ⟨hready, rfl⟩⟩ := execDecode_inv h
  · have hcheck := hfree.trans (coreStep_check_result _ (start_run _ _) (checkOperation_decode_error herr))
    have hpost := step_free_post (s := (start .decode (s.withTick (s.tick + 1))).withRun
      (some ⟨.decode, latch s, .post (.failure e)⟩)) he (withRun_run _ _)
    rw [finish_withRun, finish_start, finish_withTick, withTick_withTick] at hpost
    exact ⟨2, _, Nat.le_add_left 2 _, (run_succ hcheck 1).trans (run_succ hpost 0)⟩
  · obtain ⟨hstep, hbegun⟩ := coreStep_begins (s := s.withTick (s.tick + 1)) hm (hready.withTick _)
      (.block (Config.blockChoice s.tick))
    obtain ⟨k, n, hk, hends⟩ := hbegun.ends hm (hready.withTick _) he
    rw [length_allBlocks, ← blockCount, withTick_latch] at hk
    refine ⟨k + 1, n, by omega, ?_⟩
    rw [run_succ (hfree.trans hstep), hends, decoded_withTick, withTick_withTick]

/-- Settles O37: the Start step, the *check*, a step per block and the End step. -/
theorem startedDecodeEnds : Obligations.StartedDecodeEnds := by
  intro s t hm hidle he hdec
  have hstart : step s = .next (start .decode { s with events := [] }) := step_regWrite_command he hidle (by decide)
  rw [exec_decode] at hdec
  obtain ⟨k, n, hk, hends⟩ := run_start_decode (s := { s with events := [] }) hm rfl hdec
  exact ⟨k + 1, n, Nat.succ_le_succ hk, (run_succ hstart k).trans hends⟩

end Sys2Proof.Machine

/-! ### A failed operation writes nothing, and an idle core waits (spec/60_exceptions.md R142, R154) -/

namespace Sys2Proof.Machine

/-- When `VALIDATE` answers a state, the core was idle and the verdict of the validator was posted. -/
theorem execValidate_inv {s t : State} (h : execValidate s = .next t) :
    s.run = none ∧ t = finish (checkValidate (latch s)) s := by
  have hidle : s.run = none := by
    by_contra hr
    rw [execValidate_busy hr] at h
    cases h
  rw [execValidate_idle hidle] at h
  exact ⟨hidle, (Host.Outcome.next.inj h).symm⟩

/-- A result posted with `OK = 0` is one of the errors (spec/10_state.md R17). -/
theorem failure_of_not_ok {r : OpResult} (h : statusOk (resultStatus r) = 0) : ∃ e, r = .failure e := by
  rcases r with c | e
  · rw [resultStatus_success] at h
    exact absurd h (by decide)
  · exact ⟨e, rfl⟩

/-- All that an operation ended with `OK = 0` has done is to post an error: a `DECODE` that stored its frame has
posted `OK = 1`. -/
theorem command_not_ok_inv {s t : State} {i : Instr} (hi : i = .validate ∨ i = .decode) (h : exec i s = .next t)
    (hok : statusOk t.status = 0) : ∃ e, t = finish (.failure e) s := by
  rcases hi with rfl | rfl
  · rw [exec_validate] at h
    obtain ⟨-, rfl⟩ := execValidate_inv h
    obtain ⟨e, he⟩ := failure_of_not_ok hok
    exact ⟨e, by rw [he]⟩
  · rw [exec_decode] at h
    obtain ⟨-, ⟨e, -, rfl⟩ | ⟨-, rfl⟩⟩ := execDecode_inv h
    · exact ⟨e, rfl⟩
    · rw [decoded_status] at hok
      exact absurd hok (by decide)

/-- Settles O24: what is left is the End step of an error, which sets `STATUS` and `CONSUMED` only. -/
theorem noWriteOnError : Obligations.NoWriteOnError := by
  intro s t i hi h hok
  obtain ⟨e, rfl⟩ := command_not_ok_inv hi h hok
  have hconsumed : (finish (.failure e) s).consumed = 0 := rfl
  exact ⟨finish_sameOperands _ s, finish_sameMemory _ s, hconsumed, rfl, rfl, rfl⟩

theorem nextMove_idle {s : State} (he : s.events = []) (hr : s.run = none) : nextMove s = .settle s := by
  simp [nextMove, he, hr]

/-- Settles O39: with no event and no operation the next move is to stay. -/
theorem idleCoreWaits : Obligations.IdleCoreWaits := by
  intro s hidle he
  rw [step, nextMove_idle he hidle, carryOut_settle]

end Sys2Proof.Machine

/-! ### A reset at any moment, and the host's moves on the buffers (spec/70_reset_and_hazards.md) -/

namespace Sys2Proof.Machine

/-! #### A `DECODE` cut short -/

/-- Of the stores `vs` some have been made since `s`, and nothing else has been done to the memory. -/
structure PartlyStored (s : State) (vs : List SlotWrite) (u : State) : Prop where
  input : u.input = s.input
  stores : ∃ ws, (∀ w ∈ ws, w ∈ vs) ∧ ∀ c, u.plane c = (putAll s ws).plane c

theorem partlyStored_none {s u : State} (vs : List SlotWrite) (hi : u.input = s.input)
    (hp : ∀ c, u.plane c = s.plane c) : PartlyStored s vs u :=
  ⟨hi, [], fun _ hw => absurd hw List.not_mem_nil, hp⟩

theorem decoded_partlyStored (s : State) : PartlyStored s (frameStores s) (decoded s) :=
  ⟨decoded_input s, frameStores s, fun _ hw => hw, decoded_plane s⟩

theorem Underway.partlyStored {s u : State} {ws : List SlotWrite} {pending : List PendingBlock}
    (h : Underway s ws pending u) : PartlyStored s (frameStores s) u := by
  refine ⟨h.input, ws, h.made, fun c => ?_⟩
  obtain ⟨pc, rfl⟩ := h.state
  rw [withRun_plane]
  exact putAll_plane_of_plane ws s _ (start_plane .decode s) c

/-- A `DECODE` under way has, after any number of moves, made some of the stores of its frame. -/
theorem Underway.coreRun_partlyStored {s v : State} (hm : s.MemoryOk) (hready : FrameReady s)
    (choices : List CoreChoice) : ∀ {ws : List SlotWrite} {pending : List PendingBlock} {u : State},
    Underway s ws pending u → coreRun choices u = .next v → PartlyStored s (frameStores s) v := by
  induction choices with
  | nil =>
    intro ws pending u hu hrun
    obtain rfl : u = v := Host.Outcome.next.inj hrun
    exact hu.partlyStored
  | cons c cs ih =>
    intro ws pending u hu hrun
    obtain ⟨pc, hblocks⟩ := hu.run
    rcases eq_or_ne pending [] with rfl | hne
    · rw [coreRun_cons (coreStep_blocks_nil c hblocks), hu.finish_eq hm hready, coreRun_idle (decoded_run s)] at hrun
      obtain rfl := Host.Outcome.next.inj hrun
      exact decoded_partlyStored s
    · obtain ⟨_, _, u', -, hstep, hu'⟩ := hu.advance hready hne c
      rw [coreRun_cons hstep] at hrun
      exact ih hu' hrun

/-- A started `DECODE` whose frame is ready has, after any number of moves, made some of the stores of the frame. -/
theorem coreRun_partlyStored_of_frameReady {s u : State} (hm : s.MemoryOk) (hready : FrameReady s)
    {choices : List CoreChoice} (hrun : coreRun choices (start .decode s) = .next u) :
    PartlyStored s (frameStores s) u := by
  cases choices with
  | nil =>
    obtain rfl := Host.Outcome.next.inj hrun
    exact partlyStored_none _ rfl (start_plane .decode s)
  | cons c cs =>
    obtain ⟨hstep, hbegun⟩ := coreStep_begins hm hready c
    rw [coreRun_cons hstep] at hrun
    exact hbegun.coreRun_partlyStored hm hready cs hrun

/-- A started operation whose check finds a result has, after any number of moves, stored nothing. -/
theorem coreRun_partlyStored_of_result {s u : State} {code : OpCode} {r : OpResult} {choices : List CoreChoice}
    (h : checkOperation ⟨code, latch s, .check⟩ (start code s) = .result r)
    (hrun : coreRun choices (start code s) = .next u) : PartlyStored s [] u := by
  match choices with
  | [] =>
    obtain rfl := Host.Outcome.next.inj hrun
    exact partlyStored_none _ rfl (start_plane code s)
  | [c] =>
    rw [coreRun_cons (coreStep_check_result c (start_run _ _) h)] at hrun
    obtain rfl := Host.Outcome.next.inj hrun
    exact partlyStored_none _ rfl fun c => by rw [withRun_plane, start_plane]
  | c :: d :: cs =>
    rw [coreRun_of_result h (by simp)] at hrun
    obtain rfl := Host.Outcome.next.inj hrun
    exact partlyStored_none _ rfl (finish_plane r s)

/-- The whole `DECODE` makes stores that agree, and its moves, however many, make some of them. -/
theorem coreRun_start_decode {s t u : State} {choices : List CoreChoice} (hm : s.MemoryOk)
    (hdec : execDecode s = .next t) (hrun : coreRun choices (start .decode s) = .next u) :
    ∃ vs, Consistent vs ∧ (∀ c, t.plane c = (putAll s vs).plane c) ∧ PartlyStored s vs u := by
  obtain ⟨-, ⟨e, he, rfl⟩ | ⟨hready, rfl⟩⟩ := execDecode_inv hdec
  · exact ⟨[], fun _ _ _ _ hw => absurd hw List.not_mem_nil, finish_plane _ s,
      coreRun_partlyStored_of_result (checkOperation_decode_error he) hrun⟩
  · exact ⟨frameStores s, frameWrites_consistent hready.duty, decoded_plane s,
      coreRun_partlyStored_of_frameReady hm hready hrun⟩

/-- The two bytes of a slot are alike in two states. -/
def SameSlot (s t : State) (c : Chan) (k : Nat) : Prop :=
  t.planeByte c (2 * k) = s.planeByte c (2 * k) ∧ t.planeByte c (2 * k + 1) = s.planeByte c (2 * k + 1)

theorem SameSlot.of_plane {s s' t t' : State} {c : Chan} {k : Nat} (h : SameSlot s t c k)
    (hs : s'.plane c = s.plane c) (ht : t'.plane c = t.plane c) : SameSlot s' t' c k := by
  simp only [SameSlot, State.planeByte, hs, ht] at h ⊢
  exact h

/-- Stores are of whole slots: when only some of them have been made, a slot is as before all of them or as after. -/
theorem putAll_sameSlot_or {ws vs : List SlotWrite} (hsub : ∀ w ∈ ws, w ∈ vs) (hc : Consistent vs) (s : State)
    (c : Chan) (k : Nat) : SameSlot s (putAll s ws) c k ∨ SameSlot (putAll s vs) (putAll s ws) c k := by
  by_cases hk : ∃ v, (c, k, v) ∈ ws
  · obtain ⟨v, hv⟩ := hk
    have hcw : Consistent ws := fun c k v v' h h' => hc c k v v' (hsub _ h) (hsub _ h')
    obtain ⟨hlow, hhigh⟩ := planeByte_putAll_mem ws c k v s hcw hv
    obtain ⟨hlow', hhigh'⟩ := planeByte_putAll_mem vs c k v s hc (hsub _ hv)
    exact .inr ⟨hlow.trans hlow'.symm, hhigh.trans hhigh'.symm⟩
  · have hother : ∀ w ∈ ws, w.1 = c → w.2.1 ≠ k := by
      rintro ⟨c', k', v⟩ hw rfl rfl
      exact hk ⟨v, hw⟩
    refine .inl ⟨planeByte_putAll_other ws c _ s fun w hw hwc => ?_,
      planeByte_putAll_other ws c _ s fun w hw hwc => ?_⟩
    all_goals
      have hne := hother w hw hwc
      omega

/-- Settles O38: a reset leaves the memory alone, and the moves before it have made some of the stores of the whole
operation, slot by slot. -/
theorem cutDecodeLeavesOldOrFinalSlots : Obligations.CutDecodeLeavesOldOrFinalSlots := by
  intro s t u choices hm _ hdec hrun
  rw [exec_decode] at hdec
  obtain ⟨vs, hc, ht, hi, ws, hsub, hu⟩ := coreRun_start_decode hm hdec hrun
  have hreset : ∀ c, (resetCore u).plane c = (putAll s ws).plane c := fun c => (resetCore_plane u c).trans (hu c)
  refine ⟨resetCore_status u, resetCore_run u, (resetCore_input u).trans hi, fun c k => ?_⟩
  exact (putAll_sameSlot_or hsub hc s c k).imp (fun h => h.of_plane rfl (hreset c))
    (fun h => h.of_plane (ht c) (hreset c))

/-! #### Reset -/

/-- Settles O48: the move is a reset of the core, which names every field it does not keep. -/
theorem resetEventRestoresRegisters : Obligations.ResetEventRestoresRegisters := by
  intro s rest he
  rw [step_event he, eventMove, carryOut_settle]
  rfl

/-! #### The host's moves on the buffers, each by itself -/

theorem step_settled {s t : State} {e : Event} {rest : List Event} (he : s.events = e :: rest)
    (h : eventMove e { s with events := rest } = .settle t) : step s = .next t := by
  rw [step_event he, h, carryOut_settle]

/-- A move of an idle core only goes ahead when no operation runs. -/
theorem idleOnly_idle {s : State} {m : NextMove} (hr : s.run = none) :
    (if s.run.isSome then .decline .hostDuringOperation else m) = m :=
  if_neg (Option.not_isSome_iff_eq_none.mpr hr)

theorem hostStoreIn_allowed {a : Nat} {s : State} (hr : s.run = none ∨ s.len.toNat ≤ a) (b : Byte) :
    hostStoreIn a b s = if a < s.input.size then
      .settle (s.withInput ⟨s.input.size, Memory.write s.input.cells a b⟩) else .decline (.outsideInput a) := by
  refine if_neg fun ⟨hbusy, hlt⟩ => ?_
  rcases hr with hr | hlen
  · rw [hr] at hbusy
    cases hbusy
  · omega

theorem hostStoreIn_inside {a : Nat} {s : State} (hr : s.run = none ∨ s.len.toNat ≤ a) (ha : a < s.input.size)
    (b : Byte) : hostStoreIn a b s = .settle (s.withInput ⟨s.input.size, Memory.write s.input.cells a b⟩) :=
  (hostStoreIn_allowed hr b).trans (if_pos ha)

theorem hostStoreIn_outside {a : Nat} {s : State} (hr : s.run = none) (ha : s.input.size ≤ a) (b : Byte) :
    hostStoreIn a b s = .decline (.outsideInput a) :=
  (hostStoreIn_allowed (.inl hr) b).trans (if_neg (Nat.not_lt.mpr ha))

theorem hostGiveIn_idle {s : State} (hr : s.run = none) (size : Nat) :
    hostGiveIn size s = .settle (s.withInput ⟨size, []⟩) :=
  idleOnly_idle hr

theorem hostFreeIn_idle {s : State} (hr : s.run = none) : hostFreeIn s = .settle (s.withInput ⟨0, []⟩) :=
  idleOnly_idle hr

theorem hostGivePlane_idle {s : State} (hr : s.run = none) (c : Chan) (slots : Nat) :
    hostGivePlane c slots s = .settle (s.setPlane c ⟨slots, []⟩) :=
  idleOnly_idle hr

theorem hostStorePlane_inside {c : Chan} {a : Nat} {s : State} (hr : s.run = none) (ha : a < 2 * (s.plane c).slots)
    (b : Byte) :
    hostStorePlane c a b s = .settle (s.setPlane c ⟨(s.plane c).slots, Memory.write (s.plane c).cells a b⟩) :=
  (idleOnly_idle hr).trans (if_pos ha)

theorem hostStorePlane_outside {c : Chan} {a : Nat} {s : State} (hr : s.run = none)
    (ha : 2 * (s.plane c).slots ≤ a) (b : Byte) : hostStorePlane c a b s = .decline (.outsidePlane c a) :=
  (idleOnly_idle hr).trans (if_neg (Nat.not_lt.mpr ha))

theorem hostLoadPlane_inside {c : Chan} {a : Nat} {s : State} (hr : s.run = none) (ha : a < 2 * (s.plane c).slots) :
    hostLoadPlane c a s = .settle { s with replies := .plane c a (s.planeByte c a) :: s.replies } :=
  (idleOnly_idle hr).trans (if_pos ha)

theorem hostLoadPlane_outside {c : Chan} {a : Nat} {s : State} (hr : s.run = none)
    (ha : 2 * (s.plane c).slots ≤ a) : hostLoadPlane c a s = .decline (.outsidePlane c a) :=
  (idleOnly_idle hr).trans (if_neg (Nat.not_lt.mpr ha))

/-! #### What a move on a buffer leaves as it was -/

/-- What the host's moves on the buffers leave of an idle core: every register, no operation, and the model's own fields,
but that the event is taken off the list. -/
def RegistersKept (s : State) (rest : List Event) (t : State) : Prop :=
  SameOperands s t ∧ t.status = s.status ∧ t.consumed = s.consumed ∧ t.run = none ∧ t.events = rest ∧
    t.replies = s.replies ∧ t.tick = s.tick

theorem registersKept_withInput {s : State} (hr : s.run = none) (rest : List Event) (p : InputBuf) :
    RegistersKept s rest (State.withInput { s with events := rest } p) :=
  ⟨⟨rfl, rfl, rfl, rfl, rfl, rfl, rfl⟩, rfl, rfl, hr, rfl, rfl, rfl⟩

theorem registersKept_setPlane {s : State} (hr : s.run = none) (rest : List Event) (c : Chan) (p : PlaneBuf) :
    RegistersKept s rest (State.setPlane { s with events := rest } c p) := by
  simp [RegistersKept, SameOperands, hr]

/-- A byte of a plane after the host has put one. -/
theorem planeByte_setPlane_write (s : State) (c : Chan) (n a : Nat) (b : Byte) (c' : Chan) (a' : Nat) :
    (s.setPlane c ⟨n, Memory.write (s.plane c).cells a b⟩).planeByte c' a' =
      if c' = c ∧ a' = a then some b else s.planeByte c' a' := by
  rw [State.planeByte, setPlane_plane]
  by_cases hc : c' = c
  · subst hc
    simp [Memory.read_write, State.planeByte]
  · simp [hc, State.planeByte]

theorem slots_setPlane {s : State} {c : Chan} {p : PlaneBuf} (h : p.slots = (s.plane c).slots) (c' : Chan) :
    ((s.setPlane c p).plane c').slots = (s.plane c').slots := by
  rw [setPlane_plane]
  split_ifs with hc
  · rw [h, hc]
  · rfl

/-! #### The host's moves, settled -/

/-- Settles O46: at `LEN` and above the busy core lets the host's store be. -/
theorem storeBeyondLenWhileBusy : Obligations.StoreBeyondLenWhileBusy := by
  intro s rest a b _ he hlen ha
  refine ⟨_, step_settled he (hostStoreIn_inside (s := { s with events := rest }) (.inr hlen) ha b),
    Memory.read_write_same _ a b, fun a' hne => ?_, rfl, withInput_plane _ _, rfl,
    ⟨rfl, rfl, rfl, rfl, rfl, rfl, rfl⟩, rfl, rfl, rfl, rfl, rfl⟩
  exact (Memory.read_write _ a b a').trans (if_neg hne)

/-- Settles O44: inside its buffer each move is a write or a read of the one byte, outside it each is declined. -/
theorem hostMemoryMoves : Obligations.HostMemoryMoves := by
  intro s rest a b c hr
  have hr' : ({ s with events := rest } : State).run = none := hr
  refine ⟨fun he ha => ?storeIn, fun he ha => ?outsideInput, fun he ha => ?storePlane, fun he ha => ?loadPlane,
    fun he ha => ?outsidePlane⟩
  case storeIn =>
    refine ⟨_, step_settled he (hostStoreIn_inside (.inl hr') ha b),
      Memory.read_write_same _ a b, fun a' hne => ?_, rfl, withInput_plane _ _,
      registersKept_withInput hr rest _⟩
    exact (Memory.read_write _ a b a').trans (if_neg hne)
  case outsideInput => exact step_declined he (hostStoreIn_outside hr' ha b)
  case storePlane =>
    have hbyte := planeByte_setPlane_write { s with events := rest } c (s.plane c).slots a b
    exact ⟨_, step_settled he (hostStorePlane_inside hr' ha b), (hbyte c a).trans (if_pos ⟨rfl, rfl⟩),
      fun c' a' hne => (hbyte c' a').trans (if_neg (not_and_or.mpr hne)), setPlane_input _ c _, slots_setPlane rfl,
      registersKept_setPlane hr rest c _⟩
  case loadPlane => exact step_settled he (hostLoadPlane_inside hr' ha)
  case outsidePlane =>
    rcases he with he | he
    · exact step_declined he (hostStorePlane_outside hr' ha b)
    · exact step_declined he (hostLoadPlane_outside hr' ha)

/-- Settles O45: a buffer replaced by one of whose bytes nothing is listed. -/
theorem hostBufferMoves : Obligations.HostBufferMoves := by
  intro s rest n c hr
  have hr' : ({ s with events := rest } : State).run = none := hr
  refine ⟨fun he => ?giveIn, fun he => ?freeIn, fun he => ?givePlane⟩
  case giveIn =>
    exact ⟨_, step_settled he (hostGiveIn_idle hr' n), rfl, Memory.read_nil, withInput_plane _ _,
      registersKept_withInput hr rest _⟩
  case freeIn =>
    exact ⟨_, step_settled he (hostFreeIn_idle hr'), rfl, Memory.read_nil, withInput_plane _ _,
      registersKept_withInput hr rest _⟩
  case givePlane =>
    have hplane := fun c' => setPlane_plane { s with events := rest } c c' ⟨n, []⟩
    have hself := (hplane c).trans (if_pos rfl)
    refine ⟨_, step_settled he (hostGivePlane_idle hr' c n), congrArg PlaneBuf.slots hself, fun a => ?_,
      fun c' hne => (hplane c').trans (if_neg hne), setPlane_input _ c _, registersKept_setPlane hr rest c _⟩
    rw [State.planeByte, hself, Memory.read_nil]

end Sys2Proof.Machine
